-- ==== Sys2Proof/Word.lean ====
section
/-! DEFINITION. The value types of the block: bytes, 32-bit register words, byte strings
(00_scope.md R6, R9, R10). -/

namespace Sys2Proof

/-- One byte of data, an integer 0 to 255 (R10). -/
abbrev Byte := BitVec 8

/-- One register of the block, `REG_W = 32` bits (R6). -/
abbrev Word := BitVec 32

/-- A byte string: a finite sequence of bytes, first byte first (R10). -/
abbrev Bytes := List Byte

end Sys2Proof
end

