-- ==== Sys2Proof/Syntax.lean ====
section
/-! DEFINITION. The command words: their three fields (30_encoding.md R110), the assigned opcodes
(R112), and `Instr`, one constructor per row of spec/opcode_table.json. A command's operands are
registers (R111, R117), so no constructor has arguments. -/

namespace Sys2Proof

/-- The three fields of a command word (R110). -/
structure CommandWord where
  /-- `OPC`, bits 7:0. -/
  opc : Byte
  /-- `FLG`, bits 15:8. -/
  flg : Byte
  /-- `RSV`, bits 31:16. -/
  rsv : BitVec 16
deriving DecidableEq, Repr

/-- The eighteen assigned operation codes (R112). -/
inductive Opcode
  | sha256 | sha256d | sha512
  | hmacSha256 | hmacSha512
  | pbkdf2Sha256 | pbkdf2Sha512 | scrypt
  | aesEcb | aesCbc
  | ecPrivVerify | ecPubFromPriv | ecPubDecompress
  | ecSign | ecSigVerify | ecSigNormalize | ecSigToDer | ecSigFromDer
deriving DecidableEq, Repr

/-- The commands: one constructor per row of the opcode table, that is, per legal pair of `OPC`
and `FLG` (R113; 90_conflicts.md C13). -/
inductive Instr
  | sha256 | sha256d | sha512
  | hmacSha256 | hmacSha512
  | pbkdf2Sha256 | pbkdf2Sha512 | scrypt
  | aesEcbEncrypt | aesEcbDecrypt | aesCbcEncrypt | aesCbcDecrypt
  | ecPrivVerify | ecPubFromPriv | ecPubDecompress
  | ecSignEcdsa | ecSignSchnorr | ecSigVerifyEcdsa | ecSigVerifySchnorr
  | ecSigNormalize | ecSigToDer | ecSigFromDer
deriving DecidableEq, Repr

/-- Why a word is no command, in the order the decoder tells them apart (R118). -/
inductive DecodeError
  /-- `OPC` is not assigned (R114). -/
  | illegalOpcode
  /-- `RSV` is not 0 (R115). -/
  | reservedBits
  /-- `FLG` is not legal for the opcode (R113). -/
  | badFlags
deriving DecidableEq, Repr

end Sys2Proof
end

