-- ==== Sys2Proof/WellFormed.lean ====
section
/-! DEFINITION. When the three fields of a command word are those of a command: the three checks
V1 to V3 of 60_exceptions.md R420, as 30_encoding.md R118 lists them. An `Instr` has no operand
fields, so every term of it is well-formed. -/

namespace Sys2Proof

/-- V1: `OPC` is one of the assigned values (R112, R118). -/
def CommandWord.opcodeAssigned (c : CommandWord) : Bool :=
  [0x01, 0x02, 0x03, 0x11, 0x12, 0x21, 0x22, 0x28, 0x31, 0x32,
    0x41, 0x42, 0x43, 0x44, 0x45, 0x46, 0x47, 0x48].contains c.opc.toNat

/-- V2: `RSV` is zero (R115). -/
def CommandWord.reservedClear (c : CommandWord) : Bool := c.rsv.toNat == 0

/-- V3: `FLG` is a legal value for the opcode (R113). -/
def CommandWord.flagsLegal (c : CommandWord) : Bool :=
  if [0x31, 0x32, 0x44, 0x45].contains c.opc.toNat then [0x01, 0x02].contains c.flg.toNat
  else c.flg.toNat == 0

/-- The fields are those of a command. -/
def CommandWord.wellFormed (c : CommandWord) : Bool :=
  c.opcodeAssigned && c.reservedClear && c.flagsLegal

end Sys2Proof
end

