-- ==== Sys2Proof/Decode.lean ====
section
/-! DEFINITION. The decoder of command words, total on all 2^32 words (30_encoding.md R118), and
the encoder written from the same tables (R110, R112, R113; spec/opcode_table.json). -/

namespace Sys2Proof

/-- The three fields of a word (R110). -/
def fieldsOf (w : Word) : CommandWord :=
  { opc := w.extractLsb' 0 8, flg := w.extractLsb' 8 8, rsv := w.extractLsb' 16 16 }

/-- The word with these three fields (R110). -/
def wordOf (c : CommandWord) : Word := c.rsv ++ c.flg ++ c.opc

/-- The opcode map (R112); every other value is reserved (R114). -/
def opcodeOf (opc : Byte) : Option Opcode :=
  match opc.toNat with
  | 0x01 => some .sha256
  | 0x02 => some .sha256d
  | 0x03 => some .sha512
  | 0x11 => some .hmacSha256
  | 0x12 => some .hmacSha512
  | 0x21 => some .pbkdf2Sha256
  | 0x22 => some .pbkdf2Sha512
  | 0x28 => some .scrypt
  | 0x31 => some .aesEcb
  | 0x32 => some .aesCbc
  | 0x41 => some .ecPrivVerify
  | 0x42 => some .ecPubFromPriv
  | 0x43 => some .ecPubDecompress
  | 0x44 => some .ecSign
  | 0x45 => some .ecSigVerify
  | 0x46 => some .ecSigNormalize
  | 0x47 => some .ecSigToDer
  | 0x48 => some .ecSigFromDer
  | _ => none

/-- The opcode with no flags: `FLG` must be 0x00 (R113). -/
def plainForm (i : Instr) (flg : Byte) : Option Instr :=
  if flg.toNat = 0x00 then some i else none

/-- The opcode with two directions or algorithms: `FLG` is 0x01 or 0x02 (R113). -/
def flaggedForm (one two : Instr) (flg : Byte) : Option Instr :=
  if flg.toNat = 0x01 then some one else if flg.toNat = 0x02 then some two else none

/-- The command of an opcode and its `FLG` (R113); `none` for an illegal `FLG`. -/
def selectForm : Opcode → Byte → Option Instr
  | .sha256 => plainForm .sha256
  | .sha256d => plainForm .sha256d
  | .sha512 => plainForm .sha512
  | .hmacSha256 => plainForm .hmacSha256
  | .hmacSha512 => plainForm .hmacSha512
  | .pbkdf2Sha256 => plainForm .pbkdf2Sha256
  | .pbkdf2Sha512 => plainForm .pbkdf2Sha512
  | .scrypt => plainForm .scrypt
  | .aesEcb => flaggedForm .aesEcbEncrypt .aesEcbDecrypt
  | .aesCbc => flaggedForm .aesCbcEncrypt .aesCbcDecrypt
  | .ecPrivVerify => plainForm .ecPrivVerify
  | .ecPubFromPriv => plainForm .ecPubFromPriv
  | .ecPubDecompress => plainForm .ecPubDecompress
  | .ecSign => flaggedForm .ecSignEcdsa .ecSignSchnorr
  | .ecSigVerify => flaggedForm .ecSigVerifyEcdsa .ecSigVerifySchnorr
  | .ecSigNormalize => plainForm .ecSigNormalize
  | .ecSigToDer => plainForm .ecSigToDer
  | .ecSigFromDer => plainForm .ecSigFromDer

/-- `Decode(w)`: the command of a word, or the first of the three reasons it is none (R118). -/
def decode (w : Word) : Except DecodeError Instr :=
  match opcodeOf (fieldsOf w).opc with
  | none => .error .illegalOpcode
  | some o =>
    if (fieldsOf w).rsv.toNat = 0 then
      match selectForm o (fieldsOf w).flg with
      | some i => .ok i
      | none => .error .badFlags
    else .error .reservedBits

/-- The decoder on the four byte lanes of a bus write, lane `k` carrying bits `8k+7 .. 8k` (R49);
`none` for any other number of bytes, which is no command-register write (R47). -/
def decodeLanes : Bytes → Option (Except DecodeError Instr)
  | [b0, b1, b2, b3] => some (decode (b3 ++ b2 ++ b1 ++ b0))
  | _ => none

/-- The fields of a command's word: `OPC` and `FLG` of its row, `RSV = 0` (R112, R113). -/
def Instr.fields : Instr → CommandWord
  | .sha256 => ⟨0x01, 0x00, 0⟩
  | .sha256d => ⟨0x02, 0x00, 0⟩
  | .sha512 => ⟨0x03, 0x00, 0⟩
  | .hmacSha256 => ⟨0x11, 0x00, 0⟩
  | .hmacSha512 => ⟨0x12, 0x00, 0⟩
  | .pbkdf2Sha256 => ⟨0x21, 0x00, 0⟩
  | .pbkdf2Sha512 => ⟨0x22, 0x00, 0⟩
  | .scrypt => ⟨0x28, 0x00, 0⟩
  | .aesEcbEncrypt => ⟨0x31, 0x01, 0⟩
  | .aesEcbDecrypt => ⟨0x31, 0x02, 0⟩
  | .aesCbcEncrypt => ⟨0x32, 0x01, 0⟩
  | .aesCbcDecrypt => ⟨0x32, 0x02, 0⟩
  | .ecPrivVerify => ⟨0x41, 0x00, 0⟩
  | .ecPubFromPriv => ⟨0x42, 0x00, 0⟩
  | .ecPubDecompress => ⟨0x43, 0x00, 0⟩
  | .ecSignEcdsa => ⟨0x44, 0x01, 0⟩
  | .ecSignSchnorr => ⟨0x44, 0x02, 0⟩
  | .ecSigVerifyEcdsa => ⟨0x45, 0x01, 0⟩
  | .ecSigVerifySchnorr => ⟨0x45, 0x02, 0⟩
  | .ecSigNormalize => ⟨0x46, 0x00, 0⟩
  | .ecSigToDer => ⟨0x47, 0x00, 0⟩
  | .ecSigFromDer => ⟨0x48, 0x00, 0⟩

/-- The word of a command (R110). -/
def encode (i : Instr) : Word := wordOf i.fields

/-- The command the decoder reads from an instruction of `nbits` bits `w`, every bit above them 0.
A command is one 32-bit word; a number that does not fit one is none. -/
def decodeTableWord (nbits w : Nat) : Option Instr :=
  let v := w % 2 ^ nbits
  if v < 2 ^ 32 then (decode (BitVec.ofNat 32 v)).toOption else none

end Sys2Proof
end

