-- ==== Sys2Proof/Config.lean ====
section
/-! DEFINITION. What one block fixes: the constants of 00_scope.md R5 and R6, the OPEN parameters
of R7 (as the plain data `Platform` and as opaque functions), and the free values of
93_implementation_defined.md. -/

namespace Sys2Proof

/-! ### Fixed parameters (R5, R6, R31) -/

/-- The word the register `ID` reads (R31). -/
def Config.idWord : Word := 0x4C570107

/-- `REG_SPAN`: bytes of the register block (R6). -/
def Config.regSpan : Nat := 256

/-- Bytes of the data space, addresses 0 to 2^32 - 1 (R6, R80). -/
def Config.spaceSize : Nat := 2 ^ 32

/-- `SIZE_LIMIT`, the size limit of scrypt's working sets (R6, R232). -/
def Config.sizeLimit : Nat := 2 ^ 32 - 1

/-! ### The OPEN parameters a platform chooses (R7) -/

/-- A range of addresses: `size` bytes from `base` on. It names a region of data (R82) and the
parts of a platform's map. -/
structure Region where
  base : Nat
  size : Nat
deriving DecidableEq, Repr

/-- The platform's choices of R7, as plain data: they never change while the machine runs, and a
statement about every state is a statement about every platform (log 4). -/
structure Platform where
  /-- `BASE`, where the register block sits (R30), in steps of 256: it is a multiple of 256, so its
  low byte is no part of the choice (`Platform.base`). -/
  basePage : BitVec 24
  /-- The addresses whose engine reads complete without a bus error (R7 `readable`). -/
  readMap : List Region
  /-- The addresses whose engine writes complete without a bus error (R7 `writable`). -/
  writeMap : List Region
  /-- The addresses with side effects, device registers (R90, U2). -/
  deviceMap : List Region
  /-- `SCRYPT_MEM_BYTES` (R57, R233). -/
  scryptMemBytes : Nat
  /-- The tries after the first that `ECDSA_NONCE_TRIES_MAX` allows, or `none` for unbounded: a
  bound is at least 1 (R333), so one less than it is any number (`Platform.nonceTriesMax`). -/
  nonceRetriesMax : Option Nat
  /-- `IRQ_LINE`, the platform's interrupt input that `IRQ` drives (R48). -/
  irqLine : Nat
deriving DecidableEq, Repr

/-- `BASE` (R7, R30). -/
def Platform.base (p : Platform) : Word := p.basePage ++ (0x00 : Byte)

/-- `ECDSA_NONCE_TRIES_MAX`: `none` for unbounded (R7, R333). -/
def Platform.nonceTriesMax (p : Platform) : Option Nat := p.nonceRetriesMax.map (· + 1)

/-! ### Free values

Each is a constant without a body: no proof can learn its value, and a statement holds whatever it
is. The first argument is the state's counter `draws`, so that a later use is a fresh value. -/

/-- Any byte, for one address at one draw: U1, U2, U3, U5. -/
opaque Config.freeByte : Nat → Nat → Byte

/-- Any word: a register read while reset is asserted (U6). -/
opaque Config.freeWord : Nat → Word

/-- Any choice: which legal outcome ends a raced command (U1). -/
opaque Config.freeChoice : Nat → Nat

/-- Any length: how many bytes a raced command that ends `OK` wrote (U1). -/
opaque Config.freeLength : Nat → Nat

/-- Any number, for a private key and a hash: the scalars of the signature when the unbounded nonce
search of R331 never finds a candidate (log 9). -/
opaque Config.endlessScalar : Nat → Bytes → Bool → Nat

/-- The Schnorr signature scheme (R360, U20), signing side: a function of the signer's compressed
public key and the hash. A valid private key and its public key determine each other, so every
`SchnorrSign(k, h)` is such a function (log 5). -/
opaque Config.schnorrSignature : Bytes → Bytes → BitVec 512

/-- The Schnorr scheme, verifying side: the further signatures it accepts (R360, log 5). -/
opaque Config.schnorrAccepts : Bytes → Bytes → Bytes → Bool

end Sys2Proof
end

