-- ==== Sys2Proof/Machine/Bytes.lean ====
section
/-! DEFINITION. Byte strings as integers and back, both byte orders, byte lanes, and cutting a
string into blocks (00_scope.md R10; 10_state.md R49). -/

namespace Sys2Proof.Machine

/-- `le_int` (R10): the integer of a little-endian byte string. -/
def leNat : Bytes → Nat
  | [] => 0
  | b :: t => b.toNat + 256 * leNat t

/-- `be_int` (R10): the integer of a big-endian byte string. -/
def beNat (b : Bytes) : Nat := leNat b.reverse

/-- `le_bytes_n` (R10): the low `n` bytes of an integer, least significant first. -/
def leBytes : Nat → Nat → Bytes
  | 0, _ => []
  | n + 1, x => BitVec.ofNat 8 x :: leBytes n (x / 256)

/-- `be_bytes_n` (R10): the low `n` bytes of an integer, most significant first. -/
def beBytes (n x : Nat) : Bytes := (leBytes n x).reverse

/-- `a xor b` on byte strings of equal length (R10). -/
def xorBytes (a b : Bytes) : Bytes := List.zipWith (· ^^^ ·) a b

/-- `b[i..j)` (R10). -/
def slice (b : Bytes) (i j : Nat) : Bytes := (b.drop i).take (j - i)

/-- A string cut into blocks of `n` items, in order; a shorter rest is the last block. -/
def chunks {α : Type} (n : Nat) (l : List α) : List (List α) := cut l.length l
where
  /-- The cut, with as much fuel as the string has items. -/
  cut : Nat → List α → List (List α)
    | 0, _ => []
    | _, [] => []
    | f + 1, a :: t => (a :: t).take n :: cut f ((a :: t).drop n)

/-- The byte lanes of a register word, lane `k` carrying bits `8k+7 .. 8k` (R49). -/
def lanesOf (w : Word) : Bytes := leBytes 4 w.toNat

/-- The word on four byte lanes (R49). -/
def wordOfLanes (lanes : Bytes) : Word := BitVec.ofNat 32 (leNat lanes)

end Sys2Proof.Machine
end

