-- ==== Sys2Proof/Machine/State.lean ====
section
/-! DEFINITION. The state of the block: its registers (10_state.md R30 to R43), its sequencer (R50),
the reset input, the data memory (20_memory.md R80), the platform's parameters (00_scope.md R7) and
the model's own fields; the value of each after reset (R62). -/

namespace Sys2Proof.Machine

/-- The result classes (R400); the values 4 to 15 are never written. -/
inductive ResultClass
  | ok | einval | verifyFail | internal
deriving DecidableEq, Repr

/-- The cause codes (R401). -/
inductive Cause
  | none
  | illegalOpcode | reservedBits | badFlags
  | badSrc0Len | badSrc1Len | badSrc2Len | badDstLen
  | badParam0 | badParam1 | badParam2 | sizeOverflow
  | regionWrap | regionOverlap
  | badPrivkey | badPubkey | badSigScalar | badDer | badPadding
  | noMemory | busErrorRead | busErrorWrite | signFailed
  | verify
deriving DecidableEq, Repr

/-- The sequencer (R50): idle, or executing the latched word `w`. `raced` is the model's own mark
that the host has touched the command's buffers since the issue (R97, R460; log 7). -/
inductive Engine
  | idle
  | busy (w : Word) (raced : Bool)
deriving DecidableEq, Repr

/-- What is known of storage no register exposes (R56, R57): its contents are not observable, so
the model holds whether it is wiped (R60; log 8). -/
inductive Storage
  /-- Every bit that a command has used is 0. -/
  | wiped
  /-- A running command may hold intermediates in it. -/
  | inUse
  /-- As power-on leaves it (R62, U4). -/
  | unspecified
deriving DecidableEq, Repr

/-- The operand registers (R39, R40, R41; log 10). -/
inductive OperandReg
  | src0Addr | src0Len | src1Addr | src1Len | src2Addr | src2Len
  | dstAddr | dstLen
  | param0 | param1 | param2
deriving DecidableEq, Repr

/-- The values of the operand registers, 32 bits each (R39, R40, R41). -/
structure OperandRegs where
  src0Addr : Word
  src0Len : Word
  src1Addr : Word
  src1Len : Word
  src2Addr : Word
  src2Len : Word
  dstAddr : Word
  dstLen : Word
  param0 : Word
  param1 : Word
  param2 : Word
deriving DecidableEq, Repr

/-- A command that has completed and whose completion the host has not observed, so that its buffers
are still its own (R97, R460): its word and operands as they were, and how many bytes it wrote. The
model's own record (log 7). -/
structure Finished where
  word : Word
  operands : OperandRegs
  written : Word
deriving DecidableEq, Repr

/-- The seventeen registers of the map (R30). -/
inductive Reg
  | id | cmd | status | ctrl
  | operand (r : OperandReg)
  | written | lastcmd
deriving DecidableEq, Repr

/-- What happens next at the block's boundary: the events of 60_exceptions.md R423 and the host's
own accesses to data memory (log 1). -/
inductive Event
  /-- A register-space write: physical address, number of beats, and the byte lanes of one beat,
  lowest address first (R44, R47, R49). -/
  | busWrite (addr : Word) (beats : Nat) (lanes : Bytes)
  /-- A register-space read of `width` bytes (R45, R47). -/
  | busRead (addr : Word) (beats : Nat) (width : Nat)
  /-- The host stores bytes into data memory (R80, R120 `MEM`). -/
  | memStore (addr : Word) (bytes : Bytes)
  /-- The host loads bytes from data memory (R80, R97). -/
  | memLoad (addr : Word) (len : Nat)
  /-- The reset input is asserted; `powerOn` when power was removed (R450). -/
  | resetAssert (powerOn : Bool)
  /-- The reset input is released (R450, R452). -/
  | resetRelease
  /-- The engine's completion step is ordered here (R51, R423). -/
  | engine
deriving DecidableEq, Repr

/-- What the bus answered to the last host access: the model's own field (log 1). -/
inductive Response
  /-- No access since reset. -/
  | none
  /-- A write was taken. -/
  | ack
  /-- A register read: the four byte lanes (R45, R49). -/
  | data (lanes : Bytes)
  /-- A load from data memory. -/
  | bytes (b : Bytes)
  /-- The bus error response to a malformed access (R47, R404). -/
  | busError
  /-- The address is not in this block's 256 bytes (R30). -/
  | notSelected
deriving DecidableEq, Repr

/-- Data memory: the listed bytes, addresses strictly rising, no entry equal to what an unlisted
address reads as (`Memory.wf`, Machine/Ops.lean). -/
abbrev Memory := List Host.Cell

/-- The state of the machine. -/
structure State where
  /-- `STATUS.BUSY` and the latched command (R50). -/
  engine : Engine
  /-- `STATUS.DONE` (R34). -/
  done : Bool
  /-- `STATUS.WERR` (R35). -/
  werr : Bool
  /-- `STATUS.RESULT` (R36). -/
  result : ResultClass
  /-- `STATUS.CAUSE` (R37). -/
  cause : Cause
  /-- `CTRL.IE` (R38). -/
  ie : Bool
  /-- The operand registers (R39, R40, R41). -/
  operands : OperandRegs
  /-- `WRITTEN` (R42). -/
  written : Word
  /-- `LASTCMD` (R43). -/
  lastcmd : Word
  /-- The engines' internal working storage (R56). -/
  workStore : Storage
  /-- The scrypt working memory (R57). -/
  scryptStore : Storage
  /-- The level of the reset input (R450, R452). -/
  resetAsserted : Bool
  /-- Data memory (R80). -/
  mem : Memory
  /-- The platform's parameters (R7). -/
  platform : Platform
  /-- The model's own field: the events still to come, first first (log 1). -/
  inbox : List Event
  /-- The model's own field: the bus's last answer (log 1). -/
  response : Response
  /-- The model's own field: how often free values have been drawn (log 6). -/
  draws : Nat
  /-- The model's own field: the completions the host has not observed by a read of `STATUS`, the
  last first (R96, R97; log 7). -/
  unobserved : List Finished
deriving DecidableEq, Repr

/-- The reasons the machine stops with a fault. -/
inductive Fault
  /-- The host's store or load of data memory runs past the last of the 2^32 addresses, so some of
  its addresses do not exist (R80). Raised by the data-memory events of Machine/Host.lean. Safe: the
  spec gives such an access no meaning. -/
  | noSuchAddress
deriving DecidableEq, Repr

/-- The reasons the machine refuses to go on. -/
inductive Refusal
  /-- An instruction without a meaning yet, by its mnemonic. Raised by no arm: every command has
  its meaning. Safe. -/
  | notModelled (mnemonic : String)
deriving DecidableEq, Repr

/-- Every operand register after reset: 0 (R62). -/
def OperandRegs.reset : OperandRegs :=
  { src0Addr := 0, src0Len := 0, src1Addr := 0, src1Len := 0, src2Addr := 0, src2Len := 0,
    dstAddr := 0, dstLen := 0, param0 := 0, param1 := 0, param2 := 0 }

/-- The platform `State.reset` stands on: every address readable and writable, no devices, 2^30
bytes of scrypt memory (the conventions of 95_test_vectors.md section 2), no nonce bound, a base
address and an interrupt line. DESIGN CHOICE (log 4); no statement rests on it. -/
def Platform.reset : Platform :=
  { basePage := 0x400000, readMap := [⟨0, Config.spaceSize⟩], writeMap := [⟨0, Config.spaceSize⟩],
    deviceMap := [], scryptMemBytes := 2 ^ 30, nonceRetriesMax := none, irqLine := 0 }

/-- The machine right after power-on reset (R62, R450). -/
def State.reset : State :=
  { engine := .idle, done := false, werr := false, result := .ok, cause := .none, ie := false,
    operands := OperandRegs.reset, written := 0, lastcmd := 0,
    workStore := .wiped, scryptStore := .unspecified, resetAsserted := false,
    mem := [], platform := Platform.reset, inbox := [], response := .none, draws := 0,
    unobserved := [] }

end Sys2Proof.Machine
end

