-- ==== Sys2Proof/Machine/Flags.lean ====
section
/-! DEFINITION. The fields of `STATUS` and `CTRL` as the host sees them: result and cause codes
(60_exceptions.md R400, R401), the words of the two registers (10_state.md R33, R38), `BUSY`, and
the interrupt output (R48). The block has no other flags (R54). -/

namespace Sys2Proof.Machine

/-- The number of a result class (R400). -/
def ResultClass.code : ResultClass → Nat
  | .ok => 0
  | .einval => 1
  | .verifyFail => 2
  | .internal => 3

/-- The number of a cause (R401). -/
def Cause.code : Cause → Nat
  | .none => 0x00
  | .illegalOpcode => 0x01
  | .reservedBits => 0x02
  | .badFlags => 0x03
  | .badSrc0Len => 0x10
  | .badSrc1Len => 0x11
  | .badSrc2Len => 0x12
  | .badDstLen => 0x13
  | .badParam0 => 0x14
  | .badParam1 => 0x15
  | .badParam2 => 0x16
  | .sizeOverflow => 0x17
  | .regionWrap => 0x18
  | .regionOverlap => 0x19
  | .badPrivkey => 0x20
  | .badPubkey => 0x21
  | .badSigScalar => 0x22
  | .badDer => 0x23
  | .badPadding => 0x24
  | .noMemory => 0x30
  | .busErrorRead => 0x31
  | .busErrorWrite => 0x32
  | .signFailed => 0x33
  | .verify => 0x40

/-- The one class a cause belongs to (R401, R402). -/
def Cause.resultClass : Cause → ResultClass
  | .none => .ok
  | .noMemory | .busErrorRead | .busErrorWrite | .signFailed => .internal
  | .verify => .verifyFail
  | .illegalOpcode | .reservedBits | .badFlags
  | .badSrc0Len | .badSrc1Len | .badSrc2Len | .badDstLen
  | .badParam0 | .badParam1 | .badParam2 | .sizeOverflow
  | .regionWrap | .regionOverlap
  | .badPrivkey | .badPubkey | .badSigScalar | .badDer | .badPadding => .einval

/-- The cause a decode failure is reported as (R118). -/
def decodeCause : DecodeError → Cause
  | .illegalOpcode => .illegalOpcode
  | .reservedBits => .reservedBits
  | .badFlags => .badFlags

/-- `BUSY = 1` exactly in the state `BUSY(w)` (R50). -/
def Engine.isBusy : Engine → Bool
  | .idle => false
  | .busy _ _ => true

/-- The running command's race mark (log 7). -/
def Engine.isRaced : Engine → Bool
  | .idle => false
  | .busy _ raced => raced

/-- `STATUS.BUSY` (R33). -/
def State.busy (s : State) : Bool := s.engine.isBusy

/-- The word `STATUS` reads (R33): bit 0 `BUSY`, bit 1 `DONE`, bit 2 `WERR`, bits 7:4 `RESULT`,
bits 15:8 `CAUSE`, the rest 0. -/
def State.statusWord (s : State) : Word :=
  BitVec.ofNat 32
    (s.busy.toNat + 2 * s.done.toNat + 4 * s.werr.toNat + 16 * s.result.code + 256 * s.cause.code)

/-- The word `CTRL` reads: `IE` in bit 0, the rest 0 (R38, R45). -/
def State.ctrlWord (s : State) : Word := BitVec.ofNat 32 s.ie.toNat

/-- The interrupt output: `IRQ = CTRL.IE and STATUS.DONE` (R48, R430). -/
def State.irq (s : State) : Bool := s.ie && s.done

/-- The level the block drives on an interrupt input of the platform (R48 `IRQ_LINE`). -/
def State.irqInput (s : State) (line : Nat) : Bool := line == s.platform.irqLine && s.irq

end Sys2Proof.Machine
end

