-- ==== Sys2Proof/Machine/Ops.lean ====
section
/-! DEFINITION. The named operations over memory and registers: the data memory, what the engine
reads and writes of it (20_memory.md R89 to R94), issue (10_state.md R50), completion, the block's
one way of reporting an outcome (R51; 60_exceptions.md R410), its acknowledgement (R413), and
reset (70_reset_and_hazards.md R450, R451). -/

namespace Sys2Proof.Machine

/-! ### Data memory -/

/-- What an address that is not listed reads as (DESIGN CHOICE, log 3). -/
def unlistedByte : Byte := 0

/-- The byte at an address. -/
def Memory.read : Memory → Nat → Byte
  | [], _ => unlistedByte
  | (k, b) :: t, a => if a = k then b else Memory.read t a

/-- The memory with one byte changed, in the canonical form. -/
def Memory.write : Memory → Nat → Byte → Memory
  | [], a, v => if v = unlistedByte then [] else [(a, v)]
  | (k, b) :: t, a, v =>
    if a < k then (if v = unlistedByte then (k, b) :: t else (a, v) :: (k, b) :: t)
    else if a = k then (if v = unlistedByte then t else (a, v) :: t)
    else (k, b) :: Memory.write t a v

/-- The canonical form: addresses below 2^32 and strictly rising, no byte listed that reads the
same unlisted. -/
def Memory.wf : Memory → Bool
  | [] => true
  | (a, b) :: t =>
    decide (a < Config.spaceSize) && b != unlistedByte && t.all (fun c => decide (a < c.1)) &&
      Memory.wf t

/-- `MemWrite` (R12): the bytes at `a`, `a + 1`, and so on. -/
def Memory.writeBytes : Memory → Nat → Bytes → Memory
  | m, _, [] => m
  | m, a, b :: t => Memory.writeBytes (Memory.write m a b) (a + 1) t

/-- The bytes `a` to `a + n - 1` that `may` admits take free values (U1, U3, U5). -/
def Memory.scramble (m : Memory) (draw : Nat) (may : Nat → Bool) (a : Nat) : Nat → Memory
  | 0 => m
  | n + 1 =>
    let m' := Memory.scramble m draw may a n
    if may (a + n) then Memory.write m' (a + n) (Config.freeByte draw (a + n)) else m'

/-- The bytes of several regions that `may` admits take free values (R97). -/
def Memory.scrambleAll (m : Memory) (draw : Nat) (may : Nat → Bool) : List Region → Memory
  | [] => m
  | r :: t => Memory.scrambleAll (m.scramble draw may r.base r.size) draw may t

/-! ### Regions and the platform's map -/

/-- An address lies in a range. -/
def covers (r : Region) (a : Nat) : Bool := decide (r.base ≤ a) && decide (a < r.base + r.size)

/-- No wrap-around: the region ends at 2^32 or before (R83). -/
def fits (r : Region) : Bool := decide (r.base + r.size ≤ Config.spaceSize)

/-- Two regions of nonzero length share at least one byte (R84). -/
def overlaps (r q : Region) : Bool :=
  decide (0 < r.size) && decide (0 < q.size) &&
    decide (r.base < q.base + q.size) && decide (q.base < r.base + r.size)

/-- `readable(a)`, of a 32-bit address (R7). -/
def readable (p : Platform) (a : Nat) : Bool :=
  decide (a < Config.spaceSize) && p.readMap.any (covers · a)

/-- `writable(a)`, of a 32-bit address (R7). -/
def writable (p : Platform) (a : Nat) : Bool :=
  decide (a < Config.spaceSize) && p.writeMap.any (covers · a)

/-- The address is one whose reads or writes have side effects (R90, U2). -/
def isDevice (p : Platform) (a : Nat) : Bool := p.deviceMap.any (covers · a)

/-- Every byte of the region is readable (R93). -/
def regionReadable (p : Platform) (r : Region) : Bool :=
  (List.range r.size).all fun k => readable p (r.base + k)

/-- Every byte of the region is writable (R94). -/
def regionWritable (p : Platform) (r : Region) : Bool :=
  (List.range r.size).all fun k => writable p (r.base + k)

/-- The byte a bus read gives: the memory's, or any byte where the address is a device's (U2). -/
def State.fetchByte (s : State) (a : Nat) : Byte :=
  if isDevice s.platform a then Config.freeByte s.draws a else s.mem.read a

/-- `Region(A, L)` (R12, R82): the byte string of a region. -/
def State.fetch (s : State) (r : Region) : Bytes :=
  (List.range r.size).map fun k => s.fetchByte (r.base + k)

/-! ### Issue -/

/-- `Issue(w)` (R50). Every word is accepted. -/
def State.issue (s : State) (w : Word) : State :=
  { s with
    lastcmd := w, written := 0, engine := .busy w false, done := false,
    result := .ok, cause := .none, workStore := .inUse, scryptStore := .inUse }

/-! ### Completion: the block's taking of an exception -/

/-- How a command ends (R13). -/
inductive Verdict
  /-- `finish(n)`: result `OK`, `n = out.length` bytes written to the destination. -/
  | finish (out : Bytes)
  /-- `raise`: the cause, and with it the class; nothing is written. -/
  | raise (c : Cause)
  /-- `INTERNAL(BUS_ERROR_WRITE)` for an output of `n` bytes (R94). -/
  | writeFailed (n : Nat)
deriving DecidableEq, Repr

/-- The completions the host has yet to observe once the running command has written `written`
bytes: its own is the newest (R97). -/
def State.withFinished (s : State) (written : Word) : List Finished :=
  match s.engine with
  | .idle => s.unobserved
  | .busy w _ => ⟨w, s.operands, written⟩ :: s.unobserved

/-- `WRITTEN` at a completion with cause `c` and `n` bytes written (R42). -/
def writtenWord (c : Cause) (n : Nat) : Word := if c = .none then BitVec.ofNat 32 n else 0

/-- The completion step (R51, R410) with cause `c`, `n` bytes written and the memory `m` the
command leaves: the outcome is saved, the working storage wiped (R60), `BUSY` falls, `DONE` rises.
The host has yet to observe it (R97). -/
def State.conclude (s : State) (c : Cause) (n : Nat) (m : Memory) : State :=
  { s with
    result := c.resultClass, cause := c, written := writtenWord c n,
    workStore := .wiped, scryptStore := .wiped, engine := .idle, done := true,
    mem := m, draws := s.draws + 1, unobserved := s.withFinished (writtenWord c n) }

/-- The completion of a command that ends with a verdict: its output bytes, its one cause, or the
unspecified writable bytes of a failed write (R91, R92, R94, U3). -/
def State.complete (s : State) : Verdict → State
  | .finish out => s.conclude .none out.length (s.mem.writeBytes s.operands.dstAddr.toNat out)
  | .raise c => s.conclude c 0 s.mem
  | .writeFailed n =>
    s.conclude .busErrorWrite 0
      (s.mem.scramble s.draws (writable s.platform) s.operands.dstAddr.toNat n)

/-- The host's acknowledgement of a completion, a write of `STATUS` (R34, R35, R44, R413): bit 1
clears `DONE`, bit 2 clears `WERR`, every other bit is ignored. -/
def State.acknowledge (s : State) (v : Word) : State :=
  { s with done := s.done && !v.getLsbD 1, werr := s.werr && !v.getLsbD 2 }

/-- A write refused because the block is busy (R35). -/
def State.refuseWrite (s : State) : State := { s with werr := true }

/-! ### Reset -/

/-- Reset (R450): every register and output to R62's values, the engine idle, the storage wiped;
`m` is the data memory afterwards (R451). The scrypt memory is unspecified after power-on and stays
so until a command has run (R62). A reset is no observation of an earlier completion (log 7). -/
def State.enterReset (s : State) (powerOn : Bool) (m : Memory) : State :=
  { State.reset with
    scryptStore := if powerOn || s.scryptStore == .unspecified then .unspecified else .wiped,
    resetAsserted := true, mem := m, platform := s.platform, inbox := s.inbox,
    draws := s.draws + 1, unobserved := s.unobserved }

end Sys2Proof.Machine
end

