-- ==== Sys2Proof/Machine/Operands.lean ====
section
/-! DEFINITION. What a command takes as operands (30_encoding.md R117), the check order V4 to V13
(60_exceptions.md R420, R421) as one shared operation `State.run`, and the outcome of a raced
command (93_implementation_defined.md U1). -/

namespace Sys2Proof.Machine

/-- The three source regions (R39). -/
inductive Source
  | src0 | src1 | src2
deriving DecidableEq, Repr

/-! ### Operand registers -/

/-- The value of an operand register (R39, R40, R41). -/
def OperandRegs.get (o : OperandRegs) : OperandReg → Word
  | .src0Addr => o.src0Addr
  | .src0Len => o.src0Len
  | .src1Addr => o.src1Addr
  | .src1Len => o.src1Len
  | .src2Addr => o.src2Addr
  | .src2Len => o.src2Len
  | .dstAddr => o.dstAddr
  | .dstLen => o.dstLen
  | .param0 => o.param0
  | .param1 => o.param1
  | .param2 => o.param2

/-- The operand registers with one of them written. -/
def OperandRegs.set (o : OperandRegs) (v : Word) : OperandReg → OperandRegs
  | .src0Addr => { o with src0Addr := v }
  | .src0Len => { o with src0Len := v }
  | .src1Addr => { o with src1Addr := v }
  | .src1Len => { o with src1Len := v }
  | .src2Addr => { o with src2Addr := v }
  | .src2Len => { o with src2Len := v }
  | .dstAddr => { o with dstAddr := v }
  | .dstLen => { o with dstLen := v }
  | .param0 => { o with param0 := v }
  | .param1 => { o with param1 := v }
  | .param2 => { o with param2 := v }

/-- The source region a pair of registers names, its values read as unsigned integers (R39, R82,
R111). -/
def State.source (s : State) : Source → Region
  | .src0 => ⟨s.operands.src0Addr.toNat, s.operands.src0Len.toNat⟩
  | .src1 => ⟨s.operands.src1Addr.toNat, s.operands.src1Len.toNat⟩
  | .src2 => ⟨s.operands.src2Addr.toNat, s.operands.src2Len.toNat⟩

/-- The destination region, its whole capacity (R40, R82). -/
def State.dest (s : State) : Region := ⟨s.operands.dstAddr.toNat, s.operands.dstLen.toNat⟩

/-- `SRCk_LEN` (R39). -/
def State.srcLen (s : State) (k : Source) : Nat := (s.source k).size

/-- `DST_LEN` (R40). -/
def State.dstLen (s : State) : Nat := s.dest.size

/-- The bytes of a source region. -/
def State.input (s : State) (k : Source) : Bytes := s.fetch (s.source k)

/-! ### Which operands a command uses (R117) -/

/-- The source regions a command uses, in order. -/
def usedSources : Instr → List Source
  | .sha256 | .sha256d | .sha512 => [.src0]
  | .hmacSha256 | .hmacSha512 => [.src0, .src1]
  | .pbkdf2Sha256 | .pbkdf2Sha512 | .scrypt => [.src0, .src1]
  | .aesEcbEncrypt | .aesEcbDecrypt => [.src0, .src1]
  | .aesCbcEncrypt | .aesCbcDecrypt => [.src0, .src1, .src2]
  | .ecPrivVerify | .ecPubFromPriv | .ecPubDecompress => [.src0]
  | .ecSignEcdsa | .ecSignSchnorr => [.src0, .src1]
  | .ecSigVerifyEcdsa | .ecSigVerifySchnorr => [.src0, .src1, .src2]
  | .ecSigNormalize | .ecSigToDer | .ecSigFromDer => [.src0]

/-- Whether a command has a destination. -/
def usesDest : Instr → Bool
  | .ecPrivVerify | .ecSigVerifyEcdsa | .ecSigVerifySchnorr => false
  | .sha256 | .sha256d | .sha512 | .hmacSha256 | .hmacSha512
  | .pbkdf2Sha256 | .pbkdf2Sha512 | .scrypt
  | .aesEcbEncrypt | .aesEcbDecrypt | .aesCbcEncrypt | .aesCbcDecrypt
  | .ecPubFromPriv | .ecPubDecompress | .ecSignEcdsa | .ecSignSchnorr
  | .ecSigNormalize | .ecSigToDer | .ecSigFromDer => true

/-- The used source regions of a command in a state. -/
def State.sources (s : State) (i : Instr) : List Region := (usedSources i).map s.source

/-- The least and the greatest number of bytes a command that ends `OK` writes (R421, last
column). -/
def State.outputRange (s : State) : Instr → Nat × Nat
  | .sha256 | .sha256d | .hmacSha256 => (32, 32)
  | .sha512 | .hmacSha512 => (64, 64)
  | .pbkdf2Sha256 | .pbkdf2Sha512 | .scrypt => (s.dstLen, s.dstLen)
  | .aesEcbEncrypt | .aesEcbDecrypt => (s.srcLen .src1, s.srcLen .src1)
  | .aesCbcEncrypt => (16 * (s.srcLen .src2 / 16) + 16, 16 * (s.srcLen .src2 / 16) + 16)
  | .aesCbcDecrypt => (s.srcLen .src2 - 16, s.srcLen .src2 - 1)
  | .ecPrivVerify | .ecSigVerifyEcdsa | .ecSigVerifySchnorr => (0, 0)
  | .ecPubFromPriv => (33, 33)
  | .ecPubDecompress => (65, 65)
  | .ecSignEcdsa | .ecSignSchnorr => (64, 64)
  | .ecSigNormalize | .ecSigFromDer => (64, 64)
  | .ecSigToDer => (8, 72)

/-! ### The checks (R420, R421) -/

/-- One check: the condition that lets the command pass, and the cause it is refused with. -/
structure Check where
  passes : Bool
  cause : Cause
deriving DecidableEq, Repr

/-- The cause of the first check that fails (R420). -/
def firstFailed : List Check → Option Cause
  | [] => none
  | c :: t => if c.passes then firstFailed t else some c.cause

/-- V6 and V7: wrap of the used regions in the order SRC0, SRC1, SRC2, DST (R83), then overlap of
DST with each used source (R84). -/
def State.regionChecks (s : State) (i : Instr) : List Check :=
  (s.sources i).map (fun r => ⟨fits r, .regionWrap⟩) ++
    (if usesDest i then
      ⟨fits s.dest, .regionWrap⟩ ::
        (s.sources i).map (fun r => ⟨!overlaps s.dest r, .regionOverlap⟩)
    else [])

/-- V9: every byte of every used source region is readable (R93, R420). -/
def State.sourcesReadable (s : State) (i : Instr) : Bool :=
  (s.sources i).all (regionReadable s.platform)

/-- V12 and V13: an output whose bytes are not all writable is a failed write (R94). -/
def State.deliver (s : State) : Verdict → Verdict
  | .finish out =>
    if regionWritable s.platform ⟨s.operands.dstAddr.toNat, out.length⟩ then .finish out
    else .writeFailed out.length
  | .raise c => .raise c
  | .writeFailed n => .writeFailed n

/-- The outcome of a command: the length and parameter checks of its rule (V4, V5), the region
checks (V6, V7), its memory rule (V8), the read check (V9), its content and computation (V10, V11),
the write check (V12, V13); the first that applies decides (R420). -/
def State.verdict (s : State) (i : Instr) (early memory : List Check) (content : Unit → Verdict) :
    Verdict :=
  match firstFailed (early ++ s.regionChecks i ++ memory) with
  | some c => .raise c
  | none => if s.sourcesReadable i then s.deliver (content ()) else .raise .busErrorRead

/-! ### A raced command (U1) -/

/-- The causes the length rules of a command raise (R401, R421). -/
def lengthCauses : Instr → List Cause
  | .sha256 | .sha256d | .sha512 | .hmacSha256 | .hmacSha512
  | .pbkdf2Sha256 | .pbkdf2Sha512 | .scrypt => [.badDstLen]
  | .aesEcbEncrypt | .aesEcbDecrypt | .ecSignEcdsa | .ecSignSchnorr =>
    [.badSrc0Len, .badSrc1Len, .badDstLen]
  | .aesCbcEncrypt | .aesCbcDecrypt => [.badSrc0Len, .badSrc1Len, .badSrc2Len, .badDstLen]
  | .ecPrivVerify => [.badSrc0Len]
  | .ecPubFromPriv | .ecPubDecompress | .ecSigNormalize | .ecSigToDer | .ecSigFromDer =>
    [.badSrc0Len, .badDstLen]
  | .ecSigVerifyEcdsa | .ecSigVerifySchnorr => [.badSrc0Len, .badSrc1Len, .badSrc2Len]

/-- The causes the parameter, memory, content and computation rules of a command raise (R401,
R421). -/
def contentCauses : Instr → List Cause
  | .sha256 | .sha256d | .sha512 | .hmacSha256 | .hmacSha512 => []
  | .pbkdf2Sha256 | .pbkdf2Sha512 => [.badParam0]
  | .scrypt => [.badParam0, .badParam1, .badParam2, .sizeOverflow, .noMemory]
  | .aesEcbEncrypt | .aesEcbDecrypt | .aesCbcEncrypt => []
  | .aesCbcDecrypt => [.badPadding]
  | .ecPrivVerify | .ecPubFromPriv => [.badPrivkey]
  | .ecPubDecompress => [.badPubkey]
  | .ecSignEcdsa => [.badPrivkey, .signFailed]
  | .ecSignSchnorr => [.badPrivkey]
  | .ecSigVerifyEcdsa | .ecSigVerifySchnorr => [.verify]
  | .ecSigNormalize | .ecSigToDer => [.badSigScalar]
  | .ecSigFromDer => [.badDer, .badSigScalar]

/-- The causes a command's completion may report (R401, R421). -/
def legalCauses (i : Instr) : List Cause :=
  .none :: lengthCauses i ++ contentCauses i ++ [.regionWrap, .busErrorRead] ++
    (if usesDest i then [.regionOverlap, .busErrorWrite] else [])

/-- The completion of a command whose buffers the host has touched (U1, R460): any legal cause;
when that is `OK`, any length of its output range within the destination, and any bytes; when it is
`BUS_ERROR_WRITE`, any writable bytes; else nothing is written. No byte outside DST changes. -/
def State.completeRaced (s : State) (i : Instr) : State :=
  let cause := (legalCauses i).getD (Config.freeChoice s.draws % (legalCauses i).length) .none
  let span := s.outputRange i
  let n := min s.dstLen (span.1 + Config.freeLength s.draws % (span.2 - span.1 + 1))
  match cause with
  | .none =>
    s.conclude .none n
      (s.mem.scramble s.draws (writable s.platform) s.operands.dstAddr.toNat n)
  | .busErrorWrite => s.complete (.writeFailed n)
  | c => s.complete (.raise c)

/-! ### Running a command -/

/-- A command's completion step: the free outcome of a raced one, else the verdict of its checks
and content, applied at once (R51, R58, R420). -/
def State.run (s : State) (i : Instr) (early memory : List Check) (content : Unit → Verdict) :
    Host.Outcome State Fault Refusal :=
  .next
    (if s.engine.isRaced then s.completeRaced i
    else s.complete (s.verdict i early memory content))

end Sys2Proof.Machine
end

