-- ==== Sys2Proof/Machine/Cipher.lean ====
section
/-! DEFINITION. The AES cipher (43_cipher.md R260 to R265), the modes ECB and CBC with PKCS#7 (R270
to R272) and the cipher commands (R275 to R282). -/

namespace Sys2Proof.Machine

/-! ### Bytes and the S-boxes -/

/-- `SBOX` (R261), by rows. -/
def sboxTable : Bytes :=
    [0x63, 0x7c, 0x77, 0x7b, 0xf2, 0x6b, 0x6f, 0xc5, 0x30, 0x01, 0x67, 0x2b, 0xfe, 0xd7, 0xab, 0x76] ++
    [0xca, 0x82, 0xc9, 0x7d, 0xfa, 0x59, 0x47, 0xf0, 0xad, 0xd4, 0xa2, 0xaf, 0x9c, 0xa4, 0x72, 0xc0] ++
    [0xb7, 0xfd, 0x93, 0x26, 0x36, 0x3f, 0xf7, 0xcc, 0x34, 0xa5, 0xe5, 0xf1, 0x71, 0xd8, 0x31, 0x15] ++
    [0x04, 0xc7, 0x23, 0xc3, 0x18, 0x96, 0x05, 0x9a, 0x07, 0x12, 0x80, 0xe2, 0xeb, 0x27, 0xb2, 0x75] ++
    [0x09, 0x83, 0x2c, 0x1a, 0x1b, 0x6e, 0x5a, 0xa0, 0x52, 0x3b, 0xd6, 0xb3, 0x29, 0xe3, 0x2f, 0x84] ++
    [0x53, 0xd1, 0x00, 0xed, 0x20, 0xfc, 0xb1, 0x5b, 0x6a, 0xcb, 0xbe, 0x39, 0x4a, 0x4c, 0x58, 0xcf] ++
    [0xd0, 0xef, 0xaa, 0xfb, 0x43, 0x4d, 0x33, 0x85, 0x45, 0xf9, 0x02, 0x7f, 0x50, 0x3c, 0x9f, 0xa8] ++
    [0x51, 0xa3, 0x40, 0x8f, 0x92, 0x9d, 0x38, 0xf5, 0xbc, 0xb6, 0xda, 0x21, 0x10, 0xff, 0xf3, 0xd2] ++
    [0xcd, 0x0c, 0x13, 0xec, 0x5f, 0x97, 0x44, 0x17, 0xc4, 0xa7, 0x7e, 0x3d, 0x64, 0x5d, 0x19, 0x73] ++
    [0x60, 0x81, 0x4f, 0xdc, 0x22, 0x2a, 0x90, 0x88, 0x46, 0xee, 0xb8, 0x14, 0xde, 0x5e, 0x0b, 0xdb] ++
    [0xe0, 0x32, 0x3a, 0x0a, 0x49, 0x06, 0x24, 0x5c, 0xc2, 0xd3, 0xac, 0x62, 0x91, 0x95, 0xe4, 0x79] ++
    [0xe7, 0xc8, 0x37, 0x6d, 0x8d, 0xd5, 0x4e, 0xa9, 0x6c, 0x56, 0xf4, 0xea, 0x65, 0x7a, 0xae, 0x08] ++
    [0xba, 0x78, 0x25, 0x2e, 0x1c, 0xa6, 0xb4, 0xc6, 0xe8, 0xdd, 0x74, 0x1f, 0x4b, 0xbd, 0x8b, 0x8a] ++
    [0x70, 0x3e, 0xb5, 0x66, 0x48, 0x03, 0xf6, 0x0e, 0x61, 0x35, 0x57, 0xb9, 0x86, 0xc1, 0x1d, 0x9e] ++
    [0xe1, 0xf8, 0x98, 0x11, 0x69, 0xd9, 0x8e, 0x94, 0x9b, 0x1e, 0x87, 0xe9, 0xce, 0x55, 0x28, 0xdf] ++
    [0x8c, 0xa1, 0x89, 0x0d, 0xbf, 0xe6, 0x42, 0x68, 0x41, 0x99, 0x2d, 0x0f, 0xb0, 0x54, 0xbb, 0x16]

/-- `INV_SBOX` (R262), by rows. -/
def invSboxTable : Bytes :=
    [0x52, 0x09, 0x6a, 0xd5, 0x30, 0x36, 0xa5, 0x38, 0xbf, 0x40, 0xa3, 0x9e, 0x81, 0xf3, 0xd7, 0xfb] ++
    [0x7c, 0xe3, 0x39, 0x82, 0x9b, 0x2f, 0xff, 0x87, 0x34, 0x8e, 0x43, 0x44, 0xc4, 0xde, 0xe9, 0xcb] ++
    [0x54, 0x7b, 0x94, 0x32, 0xa6, 0xc2, 0x23, 0x3d, 0xee, 0x4c, 0x95, 0x0b, 0x42, 0xfa, 0xc3, 0x4e] ++
    [0x08, 0x2e, 0xa1, 0x66, 0x28, 0xd9, 0x24, 0xb2, 0x76, 0x5b, 0xa2, 0x49, 0x6d, 0x8b, 0xd1, 0x25] ++
    [0x72, 0xf8, 0xf6, 0x64, 0x86, 0x68, 0x98, 0x16, 0xd4, 0xa4, 0x5c, 0xcc, 0x5d, 0x65, 0xb6, 0x92] ++
    [0x6c, 0x70, 0x48, 0x50, 0xfd, 0xed, 0xb9, 0xda, 0x5e, 0x15, 0x46, 0x57, 0xa7, 0x8d, 0x9d, 0x84] ++
    [0x90, 0xd8, 0xab, 0x00, 0x8c, 0xbc, 0xd3, 0x0a, 0xf7, 0xe4, 0x58, 0x05, 0xb8, 0xb3, 0x45, 0x06] ++
    [0xd0, 0x2c, 0x1e, 0x8f, 0xca, 0x3f, 0x0f, 0x02, 0xc1, 0xaf, 0xbd, 0x03, 0x01, 0x13, 0x8a, 0x6b] ++
    [0x3a, 0x91, 0x11, 0x41, 0x4f, 0x67, 0xdc, 0xea, 0x97, 0xf2, 0xcf, 0xce, 0xf0, 0xb4, 0xe6, 0x73] ++
    [0x96, 0xac, 0x74, 0x22, 0xe7, 0xad, 0x35, 0x85, 0xe2, 0xf9, 0x37, 0xe8, 0x1c, 0x75, 0xdf, 0x6e] ++
    [0x47, 0xf1, 0x1a, 0x71, 0x1d, 0x29, 0xc5, 0x89, 0x6f, 0xb7, 0x62, 0x0e, 0xaa, 0x18, 0xbe, 0x1b] ++
    [0xfc, 0x56, 0x3e, 0x4b, 0xc6, 0xd2, 0x79, 0x20, 0x9a, 0xdb, 0xc0, 0xfe, 0x78, 0xcd, 0x5a, 0xf4] ++
    [0x1f, 0xdd, 0xa8, 0x33, 0x88, 0x07, 0xc7, 0x31, 0xb1, 0x12, 0x10, 0x59, 0x27, 0x80, 0xec, 0x5f] ++
    [0x60, 0x51, 0x7f, 0xa9, 0x19, 0xb5, 0x4a, 0x0d, 0x2d, 0xe5, 0x7a, 0x9f, 0x93, 0xc9, 0x9c, 0xef] ++
    [0xa0, 0xe0, 0x3b, 0x4d, 0xae, 0x2a, 0xf5, 0xb0, 0xc8, 0xeb, 0xbb, 0x3c, 0x83, 0x53, 0x99, 0x61] ++
    [0x17, 0x2b, 0x04, 0x7e, 0xba, 0x77, 0xd6, 0x26, 0xe1, 0x69, 0x14, 0x63, 0x55, 0x21, 0x0c, 0x7d]

/-- `SBOX(a)` (R261). -/
def subByte (a : Byte) : Byte := sboxTable.getD a.toNat 0

/-- `INV_SBOX(a)` (R262). -/
def invSubByte (a : Byte) : Byte := invSboxTable.getD a.toNat 0

/-- `xtime(a)`: twice `a` in GF(2^8) with the polynomial 0x11B (R260). -/
def xtime (a : Byte) : Byte := (a <<< 1) ^^^ (if a.getLsbD 7 then 0x1B else 0x00)

/-- `k * a` in GF(2^8), for a factor of four bits (R260): every factor of R263 is one. -/
def gfMul (k : BitVec 4) (a : Byte) : Byte :=
  (if k.getLsbD 0 then a else 0) ^^^ (if k.getLsbD 1 then xtime a else 0) ^^^
    (if k.getLsbD 2 then xtime (xtime a) else 0) ^^^
    (if k.getLsbD 3 then xtime (xtime (xtime a)) else 0)

/-! ### Round transformations (R263)

The state is its sixteen bytes in the order `in[r + 4c] = s[r][c]` (R260). -/

/-- `SubBytes`. -/
def subBytes (s : Bytes) : Bytes := s.map subByte

/-- `InvSubBytes`. -/
def invSubBytes (s : Bytes) : Bytes := s.map invSubByte

/-- `ShiftRows`: `s[r][c] <- s[r][(c + r) mod 4]`. -/
def shiftRows (s : Bytes) : Bytes :=
  (List.range 16).map fun k => s.getD (k % 4 + 4 * ((k / 4 + k % 4) % 4)) 0

/-- `InvShiftRows`: `s[r][c] <- s[r][(c - r) mod 4]`. -/
def invShiftRows (s : Bytes) : Bytes :=
  (List.range 16).map fun k => s.getD (k % 4 + 4 * ((k / 4 + 4 - k % 4) % 4)) 0

/-- `MixColumns`, column by column. -/
def mixColumns : Bytes → Bytes
  | a0 :: a1 :: a2 :: a3 :: t =>
    (gfMul 2 a0 ^^^ gfMul 3 a1 ^^^ a2 ^^^ a3) ::
    (a0 ^^^ gfMul 2 a1 ^^^ gfMul 3 a2 ^^^ a3) ::
    (a0 ^^^ a1 ^^^ gfMul 2 a2 ^^^ gfMul 3 a3) ::
    (gfMul 3 a0 ^^^ a1 ^^^ a2 ^^^ gfMul 2 a3) :: mixColumns t
  | _ => []

/-- `InvMixColumns`, column by column. -/
def invMixColumns : Bytes → Bytes
  | a0 :: a1 :: a2 :: a3 :: t =>
    (gfMul 14 a0 ^^^ gfMul 11 a1 ^^^ gfMul 13 a2 ^^^ gfMul 9 a3) ::
    (gfMul 9 a0 ^^^ gfMul 14 a1 ^^^ gfMul 11 a2 ^^^ gfMul 13 a3) ::
    (gfMul 13 a0 ^^^ gfMul 9 a1 ^^^ gfMul 14 a2 ^^^ gfMul 11 a3) ::
    (gfMul 11 a0 ^^^ gfMul 13 a1 ^^^ gfMul 9 a2 ^^^ gfMul 14 a3) :: invMixColumns t
  | _ => []

/-! ### Key expansion (R264) -/

/-- `Rcon[1..10]`; `Rcon[0]` is not used. -/
def rcon : Bytes := [0x00, 0x01, 0x02, 0x04, 0x08, 0x10, 0x20, 0x40, 0x80, 0x1b, 0x36]

/-- `RotWord`. -/
def rotWord (t : Bytes) : Bytes := t.drop 1 ++ t.take 1

/-- The word xored onto `w[i-Nk]` for `w[i]`, from `w[i-1]`. -/
def keyMask (nk i : Nat) (t : Bytes) : Bytes :=
  if i % nk = 0 then xorBytes (subBytes (rotWord t)) [rcon.getD (i / nk) 0, 0, 0, 0]
  else if nk = 8 ∧ i % nk = 4 then subBytes t
  else t

/-- `n` further words of the schedule from `w[i]` on; the words so far are given latest first. -/
def extendKey (nk : Nat) : Nat → Nat → List Bytes → List Bytes
  | 0, _, latest => latest
  | n + 1, i, latest =>
    extendKey nk n (i + 1)
      (xorBytes (latest.getD (nk - 1) []) (keyMask nk i (latest.getD 0 [])) :: latest)

/-- The words `w[0] .. w[4 (Nr + 1) - 1]`, with `Nr = Nk + 6`. -/
def keyWords (key : Bytes) : List Bytes :=
  let nk := key.length / 4
  (extendKey nk (4 * (nk + 7) - nk) nk (chunks 4 key).reverse).reverse

/-- The round keys, sixteen bytes each: `w[4 rd] .. w[4 rd + 3]` for every round `rd`. -/
def roundKeys (key : Bytes) : List Bytes := (chunks 4 (keyWords key)).map List.flatten

/-! ### The block cipher (R265) -/

/-- `AddRoundKey`. -/
def addRoundKey (s k : Bytes) : Bytes := xorBytes s k

/-- The rounds of `AES_Enc` after the first `AddRoundKey`; the last has no `MixColumns`. -/
def encRounds : Bytes → List Bytes → Bytes
  | s, [] => s
  | s, [k] => addRoundKey (shiftRows (subBytes s)) k
  | s, k :: ks => encRounds (addRoundKey (mixColumns (shiftRows (subBytes s))) k) ks

/-- `AES_Enc` under given round keys. -/
def aesEncBlock (keys : List Bytes) (block : Bytes) : Bytes :=
  encRounds (addRoundKey block (keys.getD 0 [])) (keys.drop 1)

/-- The rounds of `AES_Dec` after the first `AddRoundKey`, the round keys in falling order. -/
def decRounds : Bytes → List Bytes → Bytes
  | s, [] => s
  | s, [k] => addRoundKey (invSubBytes (invShiftRows s)) k
  | s, k :: ks => decRounds (invMixColumns (addRoundKey (invSubBytes (invShiftRows s)) k)) ks

/-- `AES_Dec` under given round keys (in rising order). -/
def aesDecBlock (keys : List Bytes) (block : Bytes) : Bytes :=
  decRounds (addRoundKey block (keys.reverse.getD 0 [])) (keys.reverse.drop 1)

/-- `AES_Enc(K, blk)`. -/
def aesEnc (key block : Bytes) : Bytes := aesEncBlock (roundKeys key) block

/-- `AES_Dec(K, blk)`. -/
def aesDec (key block : Bytes) : Bytes := aesDecBlock (roundKeys key) block

/-! ### Modes -/

/-- `ECB_E(K, D)` (R270). -/
def ecbEncrypt (key d : Bytes) : Bytes := (chunks 16 d).flatMap (aesEncBlock (roundKeys key))

/-- `ECB_D(K, D)` (R270). -/
def ecbDecrypt (key d : Bytes) : Bytes := (chunks 16 d).flatMap (aesDecBlock (roundKeys key))

/-- PKCS#7 padding, always appended (R271). -/
def pkcs7Pad (d : Bytes) : Bytes :=
  let n := 16 - d.length % 16
  d ++ List.replicate n (BitVec.ofNat 8 n)

/-- PKCS#7 padding checked and stripped; `none` for `BAD_PADDING` (R272). -/
def pkcs7Strip (q : Bytes) : Option Bytes :=
  let n := (q.getLastD 0).toNat
  if n < 1 ∨ 16 < n then none
  else if q.drop (q.length - n) = List.replicate n (BitVec.ofNat 8 n) then
    some (q.take (q.length - n))
  else none

/-- The ciphertext blocks of CBC from the previous one (R271). -/
def cbcEncBlocks (keys : List Bytes) : Bytes → List Bytes → List Bytes
  | _, [] => []
  | prev, d :: t =>
    let c := aesEncBlock keys (xorBytes d prev)
    c :: cbcEncBlocks keys c t

/-- The plaintext blocks of CBC from the previous ciphertext block (R272). -/
def cbcDecBlocks (keys : List Bytes) : Bytes → List Bytes → List Bytes
  | _, [] => []
  | prev, c :: t => xorBytes (aesDecBlock keys c) prev :: cbcDecBlocks keys c t

/-- `CBC_E(K, IV, D)` with PKCS#7 (R271). -/
def cbcEncrypt (key iv d : Bytes) : Bytes :=
  (cbcEncBlocks (roundKeys key) iv (chunks 16 (pkcs7Pad d))).flatten

/-- `CBC_D(K, IV, C)` with PKCS#7 (R272). -/
def cbcDecrypt (key iv c : Bytes) : Option Bytes :=
  pkcs7Strip (cbcDecBlocks (roundKeys key) iv (chunks 16 c)).flatten

/-! ### The cipher commands -/

/-- The key is 16, 24 or 32 bytes (R275, R280). -/
def State.keyLenOk (s : State) : Check := ⟨[16, 24, 32].contains (s.srcLen .src0), .badSrc0Len⟩

/-- A nonzero multiple of the block length. -/
def wholeBlocks (n : Nat) : Bool := n != 0 && n % 16 == 0

/-- The length rules of `AES_ECB` (R275). -/
def State.ecbChecks (s : State) : List Check :=
  [s.keyLenOk, ⟨wholeBlocks (s.srcLen .src1), .badSrc1Len⟩,
    ⟨s.dstLen == s.srcLen .src1, .badDstLen⟩]

/-- The length rules of `AES_CBC` that both directions share (R280). -/
def State.cbcChecks (s : State) : List Check :=
  [s.keyLenOk, ⟨s.srcLen .src1 == 16, .badSrc1Len⟩]

/-- `AES_ECB.ENCRYPT` (R276): SRC0 is the key, SRC1 the data. -/
def execAesEcbEncrypt (s : State) : Host.Outcome State Fault Refusal :=
  s.run .aesEcbEncrypt s.ecbChecks [] fun _ =>
    .finish (ecbEncrypt (s.input .src0) (s.input .src1))

/-- `AES_ECB.DECRYPT` (R277): SRC0 is the key, SRC1 the data. -/
def execAesEcbDecrypt (s : State) : Host.Outcome State Fault Refusal :=
  s.run .aesEcbDecrypt s.ecbChecks [] fun _ =>
    .finish (ecbDecrypt (s.input .src0) (s.input .src1))

/-- `AES_CBC.ENCRYPT` (R281): SRC0 is the key, SRC1 the IV, SRC2 the data. -/
def execAesCbcEncrypt (s : State) : Host.Outcome State Fault Refusal :=
  s.run .aesCbcEncrypt
    (s.cbcChecks ++
      [⟨decide (s.srcLen .src2 ≤ 2 ^ 32 - 17), .badSrc2Len⟩,
        ⟨decide (16 * (s.srcLen .src2 / 16) + 16 ≤ s.dstLen), .badDstLen⟩]) []
    fun _ => .finish (cbcEncrypt (s.input .src0) (s.input .src1) (s.input .src2))

/-- `AES_CBC.DECRYPT` (R282): SRC0 is the key, SRC1 the IV, SRC2 the data. -/
def execAesCbcDecrypt (s : State) : Host.Outcome State Fault Refusal :=
  s.run .aesCbcDecrypt
    (s.cbcChecks ++
      [⟨wholeBlocks (s.srcLen .src2), .badSrc2Len⟩,
        ⟨decide (s.srcLen .src2 - 1 ≤ s.dstLen), .badDstLen⟩]) []
    fun _ =>
      match cbcDecrypt (s.input .src0) (s.input .src1) (s.input .src2) with
      | some m => .finish m
      | none => .raise .badPadding

end Sys2Proof.Machine
end

