-- ==== Sys2Proof/Machine/Digest.lean ====
section
/-! DEFINITION. The SHA-256 and SHA-512 cores (40_digest.md R140 to R168), as one construction over
the word width, and the digest commands (R150, R151, R170). -/

namespace Sys2Proof.Machine

/-! ### The two cores -/

/-- What tells SHA-512 from SHA-256: the functions of R140 and R160, the constants of R141 and
R161, the initial value of R142 and R162, and the bytes of a word. -/
structure ShaCore (w : Nat) where
  bsig0 : BitVec w → BitVec w
  bsig1 : BitVec w → BitVec w
  ssig0 : BitVec w → BitVec w
  ssig1 : BitVec w → BitVec w
  constants : List (BitVec w)
  initial : List (BitVec w)
  wordBytes : Nat

/-- `Ch` (R140, R160). -/
def shaCh {w : Nat} (x y z : BitVec w) : BitVec w := (x &&& y) ^^^ (~~~x &&& z)

/-- `Maj` (R140, R160). -/
def shaMaj {w : Nat} (x y z : BitVec w) : BitVec w := (x &&& y) ^^^ (x &&& z) ^^^ (y &&& z)

/-- `K256` (R141). -/
def k256 : List (BitVec 32) :=
    [0x428a2f98, 0x71374491, 0xb5c0fbcf, 0xe9b5dba5, 0x3956c25b, 0x59f111f1, 0x923f82a4, 0xab1c5ed5] ++
    [0xd807aa98, 0x12835b01, 0x243185be, 0x550c7dc3, 0x72be5d74, 0x80deb1fe, 0x9bdc06a7, 0xc19bf174] ++
    [0xe49b69c1, 0xefbe4786, 0x0fc19dc6, 0x240ca1cc, 0x2de92c6f, 0x4a7484aa, 0x5cb0a9dc, 0x76f988da] ++
    [0x983e5152, 0xa831c66d, 0xb00327c8, 0xbf597fc7, 0xc6e00bf3, 0xd5a79147, 0x06ca6351, 0x14292967] ++
    [0x27b70a85, 0x2e1b2138, 0x4d2c6dfc, 0x53380d13, 0x650a7354, 0x766a0abb, 0x81c2c92e, 0x92722c85] ++
    [0xa2bfe8a1, 0xa81a664b, 0xc24b8b70, 0xc76c51a3, 0xd192e819, 0xd6990624, 0xf40e3585, 0x106aa070] ++
    [0x19a4c116, 0x1e376c08, 0x2748774c, 0x34b0bcb5, 0x391c0cb3, 0x4ed8aa4a, 0x5b9cca4f, 0x682e6ff3] ++
    [0x748f82ee, 0x78a5636f, 0x84c87814, 0x8cc70208, 0x90befffa, 0xa4506ceb, 0xbef9a3f7, 0xc67178f2]

/-- `K512` (R161). -/
def k512 : List (BitVec 64) :=
    [0x428a2f98d728ae22, 0x7137449123ef65cd, 0xb5c0fbcfec4d3b2f, 0xe9b5dba58189dbbc] ++
    [0x3956c25bf348b538, 0x59f111f1b605d019, 0x923f82a4af194f9b, 0xab1c5ed5da6d8118] ++
    [0xd807aa98a3030242, 0x12835b0145706fbe, 0x243185be4ee4b28c, 0x550c7dc3d5ffb4e2] ++
    [0x72be5d74f27b896f, 0x80deb1fe3b1696b1, 0x9bdc06a725c71235, 0xc19bf174cf692694] ++
    [0xe49b69c19ef14ad2, 0xefbe4786384f25e3, 0x0fc19dc68b8cd5b5, 0x240ca1cc77ac9c65] ++
    [0x2de92c6f592b0275, 0x4a7484aa6ea6e483, 0x5cb0a9dcbd41fbd4, 0x76f988da831153b5] ++
    [0x983e5152ee66dfab, 0xa831c66d2db43210, 0xb00327c898fb213f, 0xbf597fc7beef0ee4] ++
    [0xc6e00bf33da88fc2, 0xd5a79147930aa725, 0x06ca6351e003826f, 0x142929670a0e6e70] ++
    [0x27b70a8546d22ffc, 0x2e1b21385c26c926, 0x4d2c6dfc5ac42aed, 0x53380d139d95b3df] ++
    [0x650a73548baf63de, 0x766a0abb3c77b2a8, 0x81c2c92e47edaee6, 0x92722c851482353b] ++
    [0xa2bfe8a14cf10364, 0xa81a664bbc423001, 0xc24b8b70d0f89791, 0xc76c51a30654be30] ++
    [0xd192e819d6ef5218, 0xd69906245565a910, 0xf40e35855771202a, 0x106aa07032bbd1b8] ++
    [0x19a4c116b8d2d0c8, 0x1e376c085141ab53, 0x2748774cdf8eeb99, 0x34b0bcb5e19b48a8] ++
    [0x391c0cb3c5c95a63, 0x4ed8aa4ae3418acb, 0x5b9cca4f7763e373, 0x682e6ff3d6b2b8a3] ++
    [0x748f82ee5defb2fc, 0x78a5636f43172f60, 0x84c87814a1f0ab72, 0x8cc702081a6439ec] ++
    [0x90befffa23631e28, 0xa4506cebde82bde9, 0xbef9a3f7b2c67915, 0xc67178f2e372532b] ++
    [0xca273eceea26619c, 0xd186b8c721c0c207, 0xeada7dd6cde0eb1e, 0xf57d4f7fee6ed178] ++
    [0x06f067aa72176fba, 0x0a637dc5a2c898a6, 0x113f9804bef90dae, 0x1b710b35131c471b] ++
    [0x28db77f523047d84, 0x32caab7b40c72493, 0x3c9ebe0a15c9bebc, 0x431d67c49c100d4c] ++
    [0x4cc5d4becb3e42b6, 0x597f299cfc657e2a, 0x5fcb6fab3ad6faec, 0x6c44198c4a475817]

/-- SHA-256 (R140, R141, R142). -/
def sha256Core : ShaCore 32 where
  bsig0 x := x.rotateRight 2 ^^^ x.rotateRight 13 ^^^ x.rotateRight 22
  bsig1 x := x.rotateRight 6 ^^^ x.rotateRight 11 ^^^ x.rotateRight 25
  ssig0 x := x.rotateRight 7 ^^^ x.rotateRight 18 ^^^ (x >>> 3)
  ssig1 x := x.rotateRight 17 ^^^ x.rotateRight 19 ^^^ (x >>> 10)
  constants := k256
  initial :=
    [0x6a09e667, 0xbb67ae85, 0x3c6ef372, 0xa54ff53a, 0x510e527f, 0x9b05688c, 0x1f83d9ab, 0x5be0cd19]
  wordBytes := 4

/-- SHA-512 (R160, R161, R162). -/
def sha512Core : ShaCore 64 where
  bsig0 x := x.rotateRight 28 ^^^ x.rotateRight 34 ^^^ x.rotateRight 39
  bsig1 x := x.rotateRight 14 ^^^ x.rotateRight 18 ^^^ x.rotateRight 41
  ssig0 x := x.rotateRight 1 ^^^ x.rotateRight 8 ^^^ (x >>> 7)
  ssig1 x := x.rotateRight 19 ^^^ x.rotateRight 61 ^^^ (x >>> 6)
  constants := k512
  initial :=
    [0x6a09e667f3bcc908, 0xbb67ae8584caa73b, 0x3c6ef372fe94f82b, 0xa54ff53a5f1d36f1] ++
    [0x510e527fade682d1, 0x9b05688c2b3e6c1f, 0x1f83d9abfb41bd6b, 0x5be0cd19137e2179]
  wordBytes := 8

/-- The bytes of a block: sixteen words (R144, R164). -/
def ShaCore.blockBytes {w : Nat} (c : ShaCore w) : Nat := 16 * c.wordBytes

/-! ### Padding, schedule, compression -/

/-- `Pad256` and `Pad512` (R143, R163): 0x80, the least number of zero bytes that leaves room for
the length in bits on two words, and that length. -/
def ShaCore.pad {w : Nat} (c : ShaCore w) (m : Bytes) : Bytes :=
  let zeros := (2 * c.blockBytes - 2 * c.wordBytes - 1 - m.length % c.blockBytes) % c.blockBytes
  m ++ [0x80] ++ List.replicate zeros 0x00 ++ beBytes (2 * c.wordBytes) (8 * m.length)

/-- The next schedule word `W[t]` from the words before it, the latest first (R144, R164). -/
def ShaCore.nextWord {w : Nat} (c : ShaCore w) (latest : List (BitVec w)) : BitVec w :=
  c.ssig1 (latest.getD 1 0) + latest.getD 6 0 + c.ssig0 (latest.getD 14 0) + latest.getD 15 0

/-- The schedule extended by a number of words, the latest first. -/
def ShaCore.extend {w : Nat} (c : ShaCore w) : Nat → List (BitVec w) → List (BitVec w)
  | 0, latest => latest
  | n + 1, latest => ShaCore.extend c n (c.nextWord latest :: latest)

/-- The message schedule of a block, one word per round constant (R144, R164). -/
def ShaCore.schedule {w : Nat} (c : ShaCore w) (block : Bytes) : List (BitVec w) :=
  let first := (chunks c.wordBytes block).map fun b => BitVec.ofNat w (beNat b)
  (c.extend (c.constants.length - 16) first.reverse).reverse

/-- The working variables `a` to `h` (R145). -/
structure ShaVars (w : Nat) where
  a : BitVec w
  b : BitVec w
  c : BitVec w
  d : BitVec w
  e : BitVec w
  f : BitVec w
  g : BitVec w
  h : BitVec w

/-- One round with its constant and schedule word (R145, R165). -/
def ShaCore.round {w : Nat} (c : ShaCore w) (v : ShaVars w) (kw : BitVec w × BitVec w) : ShaVars w :=
  let t1 := v.h + c.bsig1 v.e + shaCh v.e v.f v.g + kw.1 + kw.2
  let t2 := c.bsig0 v.a + shaMaj v.a v.b v.c
  { a := t1 + t2, b := v.a, c := v.b, d := v.c, e := v.d + t1, f := v.e, g := v.f, h := v.g }

/-- The variables from a chaining value (R145). -/
def shaLoad {w : Nat} (h : List (BitVec w)) : ShaVars w :=
  { a := h.getD 0 0, b := h.getD 1 0, c := h.getD 2 0, d := h.getD 3 0,
    e := h.getD 4 0, f := h.getD 5 0, g := h.getD 6 0, h := h.getD 7 0 }

/-- The compression of one block into the chaining value (R145, R165). -/
def ShaCore.compress {w : Nat} (c : ShaCore w) (h : List (BitVec w)) (block : Bytes) :
    List (BitVec w) :=
  let v := (c.constants.zip (c.schedule block)).foldl c.round (shaLoad h)
  List.zipWith (· + ·) h [v.a, v.b, v.c, v.d, v.e, v.f, v.g, v.h]

/-- The hash: every padded block in order, then the eight words big-endian (R146, R147, R166,
R167). -/
def ShaCore.hash {w : Nat} (c : ShaCore w) (m : Bytes) : Bytes :=
  ((chunks c.blockBytes (c.pad m)).foldl c.compress c.initial).flatMap fun x =>
    beBytes c.wordBytes x.toNat

/-- `SHA256(M)` (R147). -/
def sha256 (m : Bytes) : Bytes := sha256Core.hash m

/-- `SHA256D(M)` (R147, R151). -/
def sha256d (m : Bytes) : Bytes := sha256 (sha256 m)

/-- `SHA512(M)` (R167). -/
def sha512 (m : Bytes) : Bytes := sha512Core.hash m

/-! ### The digest commands -/

/-- `DST_LEN` must be a given number (R117). -/
def State.dstLenIs (s : State) (n : Nat) : Check := ⟨s.dstLen == n, .badDstLen⟩

/-- `SHA256` (R150). -/
def execSha256 (s : State) : Host.Outcome State Fault Refusal :=
  s.run .sha256 [s.dstLenIs 32] [] fun _ => .finish (sha256 (s.input .src0))

/-- `SHA256D` (R151). -/
def execSha256d (s : State) : Host.Outcome State Fault Refusal :=
  s.run .sha256d [s.dstLenIs 32] [] fun _ => .finish (sha256d (s.input .src0))

/-- `SHA512` (R170). -/
def execSha512 (s : State) : Host.Outcome State Fault Refusal :=
  s.run .sha512 [s.dstLenIs 64] [] fun _ => .finish (sha512 (s.input .src0))

end Sys2Proof.Machine
end

