-- ==== Sys2Proof/Machine/Mac.lean ====
section
/-! DEFINITION. The HMAC controller (41_mac.md R190 to R195) and the MAC commands (R196, R197). -/

namespace Sys2Proof.Machine

/-- `K0` (R191): a key longer than the block is digested first; then zeros fill the block. -/
def ShaCore.hmacKey {w : Nat} (c : ShaCore w) (key : Bytes) : Bytes :=
  let k := if c.blockBytes < key.length then c.hash key else key
  k ++ List.replicate (c.blockBytes - k.length) 0x00

/-- `HMAC_H(K, m)` (R190), with the pads of R192. -/
def ShaCore.hmac {w : Nat} (c : ShaCore w) (key m : Bytes) : Bytes :=
  let k0 := c.hmacKey key
  let ipad := List.replicate c.blockBytes (0x36 : Byte)
  let opad := List.replicate c.blockBytes (0x5C : Byte)
  c.hash (xorBytes k0 opad ++ c.hash (xorBytes k0 ipad ++ m))

/-- `HMAC_SHA256(K, m)` (R193). -/
def hmacSha256 (key m : Bytes) : Bytes := sha256Core.hmac key m

/-- `HMAC_SHA512(K, m)` (R194). -/
def hmacSha512 (key m : Bytes) : Bytes := sha512Core.hmac key m

/-! ### The MAC commands -/

/-- `HMAC_SHA256` (R196): SRC0 is the key, SRC1 the message. -/
def execHmacSha256 (s : State) : Host.Outcome State Fault Refusal :=
  s.run .hmacSha256 [s.dstLenIs 32] [] fun _ =>
    .finish (hmacSha256 (s.input .src0) (s.input .src1))

/-- `HMAC_SHA512` (R197): SRC0 is the key, SRC1 the message. -/
def execHmacSha512 (s : State) : Host.Outcome State Fault Refusal :=
  s.run .hmacSha512 [s.dstLenIs 64] [] fun _ =>
    .finish (hmacSha512 (s.input .src0) (s.input .src1))

end Sys2Proof.Machine
end

