-- ==== Sys2Proof/Machine/Kdf.lean ====
section
/-! DEFINITION. The PBKDF2 iteration engine (42_kdf.md R210 to R214), the scrypt mixing loop (R220
to R225) and the KDF commands (R215, R216, R230 to R233). -/

namespace Sys2Proof.Machine

/-! ### PBKDF2 -/

/-- `n` further iterations: `U` becomes `MAC(P, U)`, `T` takes it in by xor (R210). -/
def pbkdf2Iterate (mac : Bytes → Bytes) : Nat → Bytes → Bytes → Bytes
  | 0, _, t => t
  | n + 1, u, t => pbkdf2Iterate mac n (mac u) (xorBytes t (mac u))

/-- `T_i`, the block of index `i`, counted from 1 and encoded `be32(i)` (R210, R211). -/
def pbkdf2Block (mac : Bytes → Bytes → Bytes) (p s : Bytes) (c i : Nat) : Bytes :=
  let u1 := mac p (s ++ beBytes 4 i)
  pbkdf2Iterate (mac p) (c - 1) u1 u1

/-- `PBKDF2_MAC(P, S, c, dkLen)` for a MAC of `hlen` bytes (R210). -/
def pbkdf2 (mac : Bytes → Bytes → Bytes) (hlen : Nat) (p s : Bytes) (c dkLen : Nat) : Bytes :=
  let blocks := (dkLen + hlen - 1) / hlen
  ((List.range blocks).flatMap fun i => pbkdf2Block mac p s c (i + 1)).take dkLen

/-- PBKDF2 over HMAC-SHA-256 (R210, R215). -/
def pbkdf2Sha256 : Bytes → Bytes → Nat → Nat → Bytes := pbkdf2 hmacSha256 32

/-- PBKDF2 over HMAC-SHA-512 (R210, R216). -/
def pbkdf2Sha512 : Bytes → Bytes → Nat → Nat → Bytes := pbkdf2 hmacSha512 64

/-! ### Salsa20/8, BlockMix, ROMix -/

/-- One statement of a Salsa20 round: `x[d] ^= R(x[a] + x[b], s)` (R220). -/
def salsaStep (x : List (BitVec 32)) (q : Nat × Nat × Nat × Nat) : List (BitVec 32) :=
  let (d, a, b, s) := q
  x.set d (x.getD d 0 ^^^ (x.getD a 0 + x.getD b 0).rotateLeft s)

/-- The column round, its statements in order: `(d, a, b, s)` (R220). -/
def salsaColumns : List (Nat × Nat × Nat × Nat) :=
  [(4, 0, 12, 7), (8, 4, 0, 9), (12, 8, 4, 13), (0, 12, 8, 18)] ++
  [(9, 5, 1, 7), (13, 9, 5, 9), (1, 13, 9, 13), (5, 1, 13, 18)] ++
  [(14, 10, 6, 7), (2, 14, 10, 9), (6, 2, 14, 13), (10, 6, 2, 18)] ++
  [(3, 15, 11, 7), (7, 3, 15, 9), (11, 7, 3, 13), (15, 11, 7, 18)]

/-- The row round, its statements in order (R220). -/
def salsaRows : List (Nat × Nat × Nat × Nat) :=
  [(1, 0, 3, 7), (2, 1, 0, 9), (3, 2, 1, 13), (0, 3, 2, 18)] ++
  [(6, 5, 4, 7), (7, 6, 5, 9), (4, 7, 6, 13), (5, 4, 7, 18)] ++
  [(11, 10, 9, 7), (8, 11, 10, 9), (9, 8, 11, 13), (10, 9, 8, 18)] ++
  [(12, 15, 14, 7), (13, 12, 15, 9), (14, 13, 12, 13), (15, 14, 13, 18)]

/-- A double round: columns, then rows (R220). -/
def salsaDouble (x : List (BitVec 32)) : List (BitVec 32) :=
  (salsaColumns ++ salsaRows).foldl salsaStep x

/-- The Salsa20/8 core: four double rounds and the feed-forward, words little-endian (R220). -/
def salsa20 (b : Bytes) : Bytes :=
  let input := (chunks 4 b).map fun q => BitVec.ofNat 32 (leNat q)
  let mixed := salsaDouble (salsaDouble (salsaDouble (salsaDouble input)))
  (List.zipWith (· + ·) mixed input).flatMap fun x => leBytes 4 x.toNat

/-- The blocks `Y_0`, `Y_1`, ... of BlockMix from a chaining block `X` (R222). -/
def blockMixChain : Bytes → List Bytes → List Bytes
  | _, [] => []
  | x, b :: t => salsa20 (xorBytes x b) :: blockMixChain (salsa20 (xorBytes x b)) t

/-- The items at even places. -/
def evens {α : Type} : List α → List α
  | [] => []
  | [a] => [a]
  | a :: _ :: t => a :: evens t

/-- The items at odd places. -/
def odds {α : Type} : List α → List α
  | [] => []
  | [_] => []
  | _ :: b :: t => b :: odds t

/-- `BlockMix_r(B)` for a string of `2r` blocks of 64 bytes (R222). -/
def blockMix (b : Bytes) : Bytes :=
  let blocks := chunks 64 b
  let y := blockMixChain (blocks.getLastD []) blocks
  (evens y ++ odds y).flatten

/-- `Integerify(X)`: the last 64-byte block, little-endian (R223). -/
def integerify (x : Bytes) : Nat := leNat (x.drop (x.length - 64))

/-- The first loop of ROMix: the working area `V_0 .. V_{n-1}` and the last `X` (R224). -/
def roMixFill : Nat → Bytes → List Bytes × Bytes
  | 0, x => ([], x)
  | n + 1, x =>
    let (v, last) := roMixFill n (blockMix x)
    (x :: v, last)

/-- The second loop of ROMix, `n` times, over a working area of `size` blocks (R224). -/
def roMixUse (v : List Bytes) (size : Nat) : Nat → Bytes → Bytes
  | 0, x => x
  | n + 1, x => roMixUse v size n (blockMix (xorBytes x (v.getD (integerify x % size) [])))

/-- `ROMix_r(B, N)` (R224). -/
def roMix (b : Bytes) (size : Nat) : Bytes :=
  let (v, x) := roMixFill size b
  roMixUse v size size x

/-- `SCRYPT(P, S, N, r, p, dkLen)`, the three stages (R225). -/
def scrypt (pass salt : Bytes) (cost r p dkLen : Nat) : Bytes :=
  let b := pbkdf2Sha256 pass salt 1 (p * 128 * r)
  let mixed := (chunks (128 * r) b).flatMap fun block => roMix block cost
  pbkdf2Sha256 pass mixed 1 dkLen

/-! ### The KDF commands -/

/-- `DST_LEN` must be a nonzero multiple of the MAC length (R212). -/
def State.dstLenMultiple (s : State) (hlen : Nat) : Check :=
  ⟨s.dstLen != 0 && s.dstLen % hlen == 0, .badDstLen⟩

/-- `PARAM0`, the iteration count, must be at least 1 (R213). -/
def State.costNonzero (s : State) : Check := ⟨s.operands.param0.toNat != 0, .badParam0⟩

/-- `PBKDF2_SHA256` (R215): SRC0 is the password, SRC1 the salt. -/
def execPbkdf2Sha256 (s : State) : Host.Outcome State Fault Refusal :=
  s.run .pbkdf2Sha256 [s.dstLenMultiple 32, s.costNonzero] [] fun _ =>
    .finish (pbkdf2Sha256 (s.input .src0) (s.input .src1) s.operands.param0.toNat s.dstLen)

/-- `PBKDF2_SHA512` (R216): SRC0 is the password, SRC1 the salt. -/
def execPbkdf2Sha512 (s : State) : Host.Outcome State Fault Refusal :=
  s.run .pbkdf2Sha512 [s.dstLenMultiple 64, s.costNonzero] [] fun _ =>
    .finish (pbkdf2Sha512 (s.input .src0) (s.input .src1) s.operands.param0.toNat s.dstLen)

/-- `need(N, r, p)`: the bytes of scrypt working memory the command needs (R233). -/
def scryptNeed (cost r p : Nat) : Nat := 128 * r * cost + 128 * r * p + 256 * r

/-- The parameter checks of scrypt in their order (R231), then the size checks (R232). -/
def scryptChecks (cost r p : Nat) : List Check :=
  [⟨decide (2 ≤ cost) && cost &&& (cost - 1) == 0, .badParam0⟩,
    ⟨r != 0, .badParam1⟩,
    ⟨p != 0, .badParam2⟩,
    ⟨decide (128 * r * cost ≤ Config.sizeLimit) && decide (128 * r * p ≤ Config.sizeLimit),
      .sizeOverflow⟩]

/-- `SCRYPT` (R230): SRC0 is the password, SRC1 the salt; `PARAM0`, `PARAM1`, `PARAM2` are N, r and
p. -/
def execScrypt (s : State) : Host.Outcome State Fault Refusal :=
  let cost := s.operands.param0.toNat
  let r := s.operands.param1.toNat
  let p := s.operands.param2.toNat
  s.run .scrypt (⟨s.dstLen != 0, .badDstLen⟩ :: scryptChecks cost r p)
    [⟨decide (scryptNeed cost r p ≤ s.platform.scryptMemBytes), .noMemory⟩] fun _ =>
    .finish (scrypt (s.input .src0) (s.input .src1) cost r p s.dstLen)

end Sys2Proof.Machine
end

