-- ==== Sys2Proof/Machine/Curve.lean ====
section
/-! DEFINITION. secp256k1: its parameters, the group law, the encodings of points and scalars
(44_ec.md R310 to R317). -/

namespace Sys2Proof.Machine

/-! ### Parameters (R310, R316) -/

/-- `p`, the field prime. -/
def fieldPrime : Nat := 0xFFFFFFFFFFFFFFFFFFFFFFFFFFFFFFFFFFFFFFFFFFFFFFFFFFFFFFFEFFFFFC2F

/-- `n`, the curve order. -/
def curveOrder : Nat := 0xFFFFFFFFFFFFFFFFFFFFFFFFFFFFFFFEBAAEDCE6AF48A03BBFD25E8CD0364141

/-- `HALF_N = floor(n / 2)`. -/
def halfOrder : Nat := curveOrder / 2

/-- A point of the curve (R311): the identity `O`, or affine coordinates. -/
inductive Point
  | infinity
  | affine (x y : Nat)
deriving DecidableEq, Repr

/-- The base point `G`. -/
def basePoint : Point :=
  .affine 0x79BE667EF9DCBBAC55A06295CE870B07029BFCDB2DCE28D959F2815B16F81798
    0x483ADA7726A3C4655DA4FBFC0E1108A8FD17B448A68554199C47D08FFB10D4B8

/-- `(x, y)` satisfies `y^2 = x^3 + 7 (mod p)` with both coordinates below `p` (R311). -/
def onCurve (x y : Nat) : Bool :=
  decide (x < fieldPrime) && decide (y < fieldPrime) &&
    y * y % fieldPrime == (x * x * x + 7) % fieldPrime

/-! ### Modular arithmetic -/

/-- `a - b mod m` (R9). -/
def subMod (m a b : Nat) : Nat := (a % m + (m - b % m)) % m

/-- `b ^ e mod m`, by squaring. -/
def powMod (m b e : Nat) : Nat := go e (b % m) e (1 % m)
where
  /-- The squaring loop: base, exponent left, accumulator; `e` itself is fuel enough. -/
  go : Nat → Nat → Nat → Nat → Nat
    | 0, _, _, acc => acc
    | f + 1, b, e, acc =>
      if e = 0 then acc
      else go f (b * b % m) (e / 2) (if e % 2 = 1 then acc * b % m else acc)

/-- The inverse of `a` modulo a prime `m`, as `a ^ (m - 2)` (R311 division; R331 and R340
`k^-1`, `s^-1`). DEDUCED: `m` is prime (log 12). -/
def invMod (m a : Nat) : Nat := powMod m a (m - 2)

/-! ### The group law (R311) -/

/-- The sum of two finite points on a line of slope `lam`. -/
def chord (lam x1 y1 x2 : Nat) : Point :=
  let x3 := subMod fieldPrime (subMod fieldPrime (lam * lam) x1) x2
  .affine x3 (subMod fieldPrime (lam * subMod fieldPrime x1 x3) y1)

/-- The sum of two points (R311). -/
def addPoints : Point → Point → Point
  | .infinity, b => b
  | a, .infinity => a
  | .affine x1 y1, .affine x2 y2 =>
    if x1 = x2 then
      if (y1 + y2) % fieldPrime = 0 then .infinity
      else chord (3 * x1 * x1 * invMod fieldPrime (2 * y1) % fieldPrime) x1 y1 x2
    else
      chord (subMod fieldPrime y2 y1 * invMod fieldPrime (subMod fieldPrime x2 x1) % fieldPrime)
        x1 y1 x2

/-- `k P` (R311), by doubling. DEDUCED: the group law is associative, so this is the `k`-fold sum
(log 12). -/
def mulPoint (k : Nat) (p : Point) : Point := go k k p
where
  /-- The doubling loop: scalar left and point; `k` itself is fuel enough. -/
  go : Nat → Nat → Point → Point
    | 0, _, _ => .infinity
    | f + 1, k, p =>
      if k = 0 then .infinity
      else if k % 2 = 1 then addPoints p (go f (k / 2) (addPoints p p))
      else go f (k / 2) (addPoints p p)

/-- The x coordinate of a finite point (`R.x`, R331, R340). -/
def Point.xCoord : Point → Nat
  | .infinity => 0
  | .affine x _ => x

/-- The y coordinate of a finite point. -/
def Point.yCoord : Point → Nat
  | .infinity => 0
  | .affine _ y => y

/-! ### Encodings -/

/-- The compressed form (R312): 0x02 for an even `y`, 0x03 for an odd one, then `x`. -/
def compressPoint (q : Point) : Bytes :=
  BitVec.ofNat 8 (0x02 + q.yCoord % 2) :: beBytes 32 q.xCoord

/-- The uncompressed form (R312). -/
def uncompressed (x y : Nat) : Bytes := 0x04 :: (beBytes 32 x ++ beBytes 32 y)

/-- The square root candidate `c^((p + 1) / 4) mod p` (R313). -/
def fieldSqrt (c : Nat) : Nat := powMod fieldPrime c ((fieldPrime + 1) / 4)

/-- `ParseCompressed(b)` (R313); `none` for `invalid`. -/
def parseCompressed (b : Bytes) : Option (Nat × Nat) :=
  let tag := (b.getD 0 0).toNat
  let x := beNat (slice b 1 33)
  let c := (x * x * x + 7) % fieldPrime
  let y := fieldSqrt c
  if tag ≠ 0x02 ∧ tag ≠ 0x03 then none
  else if fieldPrime ≤ x then none
  else if y * y % fieldPrime ≠ c then none
  else if y % 2 ≠ tag % 2 then some (x, fieldPrime - y)
  else some (x, y)

/-- A scalar in `[1, n - 1]`. -/
def scalarInRange (v : Nat) : Bool := decide (1 ≤ v) && decide (v ≤ curveOrder - 1)

/-- `PrivOK(b)` (R314). -/
def privOk (b : Bytes) : Bool := scalarInRange (beNat b)

/-- `r` of a compact signature (R315). -/
def sigR (sig : Bytes) : Nat := beNat (slice sig 0 32)

/-- `s` of a compact signature (R315). -/
def sigS (sig : Bytes) : Nat := beNat (slice sig 32 64)

/-- `ScalarsOK(sig)` (R315). -/
def scalarsOk (sig : Bytes) : Bool := scalarInRange (sigR sig) && scalarInRange (sigS sig)

/-- The compact form of a pair (R315). -/
def compactSig (r s : Nat) : Bytes := beBytes 32 r ++ beBytes 32 s

/-- The low representative of `s` (R316, R331, R350). -/
def lowS (s : Nat) : Nat := if halfOrder < s then curveOrder - s else s

end Sys2Proof.Machine
end

