-- ==== Sys2Proof/Machine/Signature.lean ====
section
/-! DEFINITION. The signature engine: RFC 6979 nonces and ECDSA (44_ec.md R330, R331, R340), the
Schnorr parameter (R360), DER (R351, R353), and the key and signature commands (R320 to R354). -/

namespace Sys2Proof.Machine

/-! ### RFC 6979 nonces (R330) -/

/-- The generator's registers `K` and `V`. -/
structure NonceGen where
  k : Bytes
  v : Bytes
deriving DecidableEq, Repr

/-- One seeding step: `K <- HMAC(K, V || tag || more)`, then `V <- HMAC(K, V)`. -/
def NonceGen.reseed (g : NonceGen) (tag : Byte) (more : Bytes) : NonceGen :=
  let k := hmacSha256 g.k (g.v ++ [tag] ++ more)
  { k := k, v := hmacSha256 k g.v }

/-- The generator for a private key and a hash, before its first candidate. -/
def nonceInit (d : Nat) (hash : Bytes) : NonceGen :=
  let seed := beBytes 32 d ++ beBytes 32 (beNat hash % curveOrder)
  ((NonceGen.mk (List.replicate 32 0x00) (List.replicate 32 0x01)).reseed 0x00 seed).reseed 0x01 seed

/-- The next candidate: `V <- HMAC(K, V)`; the candidate is `be_int(V)`. -/
def NonceGen.candidate (g : NonceGen) : Bytes := hmacSha256 g.k g.v

/-- The generator after a candidate has been taken. -/
def NonceGen.advance (g : NonceGen) : NonceGen :=
  NonceGen.reseed { g with v := g.candidate } 0x00 []

/-! ### ECDSA -/

/-- `be_int(hash) mod n` (R317). -/
def hashScalar (hash : Bytes) : Nat := beNat hash % curveOrder

/-- The signature with nonce `k`, or `none` where the candidate is passed over (R331). -/
def ecdsaWithNonce (d : Nat) (hash : Bytes) (k : Nat) : Option Bytes :=
  if k = 0 ∨ curveOrder ≤ k then none
  else
    let r := (mulPoint k basePoint).xCoord % curveOrder
    if r = 0 then none
    else
      let s := invMod curveOrder k * (hashScalar hash + r * d) % curveOrder
      if s = 0 then none else some (compactSig r (lowS s))

/-- The loop over at most `tries` candidates (R331). -/
def ecdsaSearch (d : Nat) (hash : Bytes) : Nat → NonceGen → Option Bytes
  | 0, _ => none
  | tries + 1, g =>
    match ecdsaWithNonce d hash (beNat g.candidate) with
    | some sig => some sig
    | none => ecdsaSearch d hash tries g.advance

/-- The number of values of the generator's `K` and `V` together: after so many candidates the
unbounded search has come round and would find nothing more (log 9). -/
def nonceSpace : Nat := 2 ^ 512

/-- The signature of an unbounded search that never ends: some valid low-S signature (log 9). -/
def endlessSignature (d : Nat) (hash : Bytes) : Bytes :=
  compactSig (1 + Config.endlessScalar d hash false % (curveOrder - 1))
    (1 + Config.endlessScalar d hash true % halfOrder)

/-- `ECDSA_Sign(d, hash)` under `ECDSA_NONCE_TRIES_MAX` (R331, R333); `none` for `SIGN_FAILED`,
which a bound alone can give. -/
def ecdsaSign (triesMax : Option Nat) (d : Nat) (hash : Bytes) : Option Bytes :=
  match triesMax with
  | some bound => ecdsaSearch d hash bound (nonceInit d hash)
  | none => some ((ecdsaSearch d hash nonceSpace (nonceInit d hash)).getD (endlessSignature d hash))

/-- `ECDSA_Verify(Q, hash, sig)` (R340). -/
def ecdsaVerify (q : Point) (hash sig : Bytes) : Bool :=
  let r := sigR sig
  let s := sigS sig
  if !(scalarInRange r && scalarInRange s) then false
  else if halfOrder < s then false
  else
    let w := invMod curveOrder s
    let u := mulPoint (hashScalar hash * w % curveOrder) basePoint
    match addPoints u (mulPoint (r * w % curveOrder) q) with
    | .infinity => false
    | .affine x _ => x % curveOrder == r

/-! ### Schnorr, the OPEN parameter (R360; log 5) -/

/-- `SchnorrSign(k, hash)`: 64 bytes, a function of the key and the hash. -/
def schnorrSign (key hash : Bytes) : Bytes :=
  beBytes 64 (Config.schnorrSignature (compressPoint (mulPoint (beNat key) basePoint)) hash).toNat

/-- `SchnorrVerify(pub, hash, sig)`: false for a key that does not parse, true for the signature the
scheme itself makes under that key, and whatever the scheme says else. -/
def schnorrVerify (pub hash sig : Bytes) : Bool :=
  (parseCompressed pub).isSome &&
    (sig == beBytes 64 (Config.schnorrSignature pub hash).toNat ||
      Config.schnorrAccepts pub hash sig)

/-! ### DER -/

/-- `DerInt(v)` (R351): the 32 bytes without leading zeros, a zero put back where the high bit is
set, under INTEGER and a short-form length. -/
def derInt (v : Nat) : Bytes :=
  let c := (beBytes 32 v).dropWhile (· == 0x00)
  let c := if (c.getD 0 0).getLsbD 7 then 0x00 :: c else c
  0x02 :: BitVec.ofNat 8 c.length :: c

/-- `SigToDer(r, s)` (R351). -/
def sigToDer (r s : Nat) : Bytes :=
  let body := derInt r ++ derInt s
  0x30 :: BitVec.ofNat 8 body.length :: body

/-- The content rules of one INTEGER (R353 step 7): not negative, minimal, below 2^256. -/
def derContentOk (c : Bytes) : Bool :=
  !(c.getD 0 0).getLsbD 7 &&
    !(decide (1 < c.length) && c.getD 0 0 == 0x00 && !(c.getD 1 0).getLsbD 7) &&
    !(c.length == 33 && c.getD 0 0 != 0x00)

/-- `DerToSig(d)` (R353), its steps in order; `none` for `BAD_DER`. -/
def derToSig (d : Bytes) : Option (Nat × Nat) :=
  let at_ := fun (i : Nat) => (d.getD i 0).toNat
  let lr := at_ 3
  let ls := at_ (5 + lr)
  let r := slice d 4 (4 + lr)
  let s := slice d (6 + lr) (6 + lr + ls)
  if ¬(8 ≤ d.length ∧ d.length ≤ 72) then none
  else if at_ 0 ≠ 0x30 then none
  else if at_ 1 ≠ d.length - 2 then none
  else if ¬(at_ 2 = 0x02 ∧ 1 ≤ lr ∧ lr ≤ 33 ∧ 4 + lr + 2 ≤ d.length) then none
  else if ¬(at_ (4 + lr) = 0x02 ∧ 1 ≤ ls ∧ ls ≤ 33) then none
  else if 6 + lr + ls ≠ d.length then none
  else if derContentOk r && derContentOk s then some (beNat r, beNat s)
  else none

/-! ### Key commands -/

/-- `SRCk_LEN` must be a given number (R117). -/
def State.srcLenIs (s : State) (k : Source) (n : Nat) (c : Cause) : Check := ⟨s.srcLen k == n, c⟩

/-- `EC_PRIV_VERIFY` (R320): SRC0 is the private key; no destination. -/
def execEcPrivVerify (s : State) : Host.Outcome State Fault Refusal :=
  s.run .ecPrivVerify [s.srcLenIs .src0 32 .badSrc0Len] [] fun _ =>
    if privOk (s.input .src0) then .finish [] else .raise .badPrivkey

/-- `EC_PUB_FROM_PRIV` (R321): SRC0 is the private key. -/
def execEcPubFromPriv (s : State) : Host.Outcome State Fault Refusal :=
  s.run .ecPubFromPriv [s.srcLenIs .src0 32 .badSrc0Len, ⟨s.dstLen == 33, .badDstLen⟩] [] fun _ =>
    if privOk (s.input .src0) then
      .finish (compressPoint (mulPoint (beNat (s.input .src0)) basePoint))
    else .raise .badPrivkey

/-- `EC_PUB_DECOMPRESS` (R322): SRC0 is the compressed public key. -/
def execEcPubDecompress (s : State) : Host.Outcome State Fault Refusal :=
  s.run .ecPubDecompress [s.srcLenIs .src0 33 .badSrc0Len, ⟨s.dstLen == 65, .badDstLen⟩] [] fun _ =>
    match parseCompressed (s.input .src0) with
    | some (x, y) => .finish (uncompressed x y)
    | none => .raise .badPubkey

/-! ### Signing and verification -/

/-- The length rules of `EC_SIGN` (R332). -/
def State.signChecks (s : State) : List Check :=
  [s.srcLenIs .src0 32 .badSrc0Len, s.srcLenIs .src1 32 .badSrc1Len, ⟨s.dstLen == 64, .badDstLen⟩]

/-- The length rules of `EC_SIG_VERIFY` (R341). -/
def State.verifyChecks (s : State) : List Check :=
  [s.srcLenIs .src0 33 .badSrc0Len, s.srcLenIs .src1 32 .badSrc1Len,
    s.srcLenIs .src2 64 .badSrc2Len]

/-- `EC_SIGN.ECDSA` (R333): SRC0 is the private key, SRC1 the hash. -/
def execEcSignEcdsa (s : State) : Host.Outcome State Fault Refusal :=
  s.run .ecSignEcdsa s.signChecks [] fun _ =>
    if privOk (s.input .src0) then
      match ecdsaSign s.platform.nonceTriesMax (beNat (s.input .src0)) (s.input .src1) with
      | some sig => .finish sig
      | none => .raise .signFailed
    else .raise .badPrivkey

/-- `EC_SIGN.SCHNORR` (R334): SRC0 is the private key, SRC1 the hash. -/
def execEcSignSchnorr (s : State) : Host.Outcome State Fault Refusal :=
  s.run .ecSignSchnorr s.signChecks [] fun _ =>
    if privOk (s.input .src0) then .finish (schnorrSign (s.input .src0) (s.input .src1))
    else .raise .badPrivkey

/-- `ECDSA` verification of the three inputs (R342): a key that does not parse fails like every
other content. -/
def ecdsaAccepts (pub hash sig : Bytes) : Bool :=
  match parseCompressed pub with
  | some (x, y) => ecdsaVerify (.affine x y) hash sig
  | none => false

/-- `EC_SIG_VERIFY.ECDSA` (R342): SRC0 is the public key, SRC1 the hash, SRC2 the signature; no
destination. -/
def execEcSigVerifyEcdsa (s : State) : Host.Outcome State Fault Refusal :=
  s.run .ecSigVerifyEcdsa s.verifyChecks [] fun _ =>
    if ecdsaAccepts (s.input .src0) (s.input .src1) (s.input .src2) then .finish []
    else .raise .verify

/-- `EC_SIG_VERIFY.SCHNORR` (R343): SRC0 is the public key, SRC1 the hash, SRC2 the signature; no
destination. -/
def execEcSigVerifySchnorr (s : State) : Host.Outcome State Fault Refusal :=
  s.run .ecSigVerifySchnorr s.verifyChecks [] fun _ =>
    if schnorrVerify (s.input .src0) (s.input .src1) (s.input .src2) then .finish []
    else .raise .verify

/-! ### Normaliser and DER commands -/

/-- `EC_SIG_NORMALIZE` (R350): SRC0 is the compact signature. -/
def execEcSigNormalize (s : State) : Host.Outcome State Fault Refusal :=
  s.run .ecSigNormalize [s.srcLenIs .src0 64 .badSrc0Len, ⟨s.dstLen == 64, .badDstLen⟩] [] fun _ =>
    let sig := s.input .src0
    if scalarsOk sig then .finish (compactSig (sigR sig) (lowS (sigS sig)))
    else .raise .badSigScalar

/-- `EC_SIG_TO_DER` (R352): SRC0 is the compact signature. -/
def execEcSigToDer (s : State) : Host.Outcome State Fault Refusal :=
  s.run .ecSigToDer [s.srcLenIs .src0 64 .badSrc0Len, ⟨decide (72 ≤ s.dstLen), .badDstLen⟩] []
    fun _ =>
      let sig := s.input .src0
      if scalarsOk sig then .finish (sigToDer (sigR sig) (sigS sig)) else .raise .badSigScalar

/-- `EC_SIG_FROM_DER` (R354): SRC0 is the DER signature. -/
def execEcSigFromDer (s : State) : Host.Outcome State Fault Refusal :=
  s.run .ecSigFromDer
    [⟨decide (8 ≤ s.srcLen .src0) && decide (s.srcLen .src0 ≤ 72), .badSrc0Len⟩,
      ⟨s.dstLen == 64, .badDstLen⟩] []
    fun _ =>
      match derToSig (s.input .src0) with
      | none => .raise .badDer
      | some (r, t) =>
        if scalarInRange r && scalarInRange t then .finish (compactSig r t)
        else .raise .badSigScalar

end Sys2Proof.Machine
end

