-- ==== Sys2Proof/Machine/Dispatch.lean ====
section
/-! DEFINITION. One arm per command of spec/opcode_table.json: the completion step of that command
(10_state.md R51). -/

namespace Sys2Proof.Machine

def exec (i : Instr) (s : State) : Host.Outcome State Fault Refusal :=
  match i with
  | .sha256 => Sys2Proof.Machine.execSha256 s
  | .sha256d => Sys2Proof.Machine.execSha256d s
  | .sha512 => Sys2Proof.Machine.execSha512 s
  | .hmacSha256 => Sys2Proof.Machine.execHmacSha256 s
  | .hmacSha512 => Sys2Proof.Machine.execHmacSha512 s
  | .pbkdf2Sha256 => Sys2Proof.Machine.execPbkdf2Sha256 s
  | .pbkdf2Sha512 => Sys2Proof.Machine.execPbkdf2Sha512 s
  | .scrypt => Sys2Proof.Machine.execScrypt s
  | .aesEcbEncrypt => Sys2Proof.Machine.execAesEcbEncrypt s
  | .aesEcbDecrypt => Sys2Proof.Machine.execAesEcbDecrypt s
  | .aesCbcEncrypt => Sys2Proof.Machine.execAesCbcEncrypt s
  | .aesCbcDecrypt => Sys2Proof.Machine.execAesCbcDecrypt s
  | .ecPrivVerify => Sys2Proof.Machine.execEcPrivVerify s
  | .ecPubFromPriv => Sys2Proof.Machine.execEcPubFromPriv s
  | .ecPubDecompress => Sys2Proof.Machine.execEcPubDecompress s
  | .ecSignEcdsa => Sys2Proof.Machine.execEcSignEcdsa s
  | .ecSignSchnorr => Sys2Proof.Machine.execEcSignSchnorr s
  | .ecSigVerifyEcdsa => Sys2Proof.Machine.execEcSigVerifyEcdsa s
  | .ecSigVerifySchnorr => Sys2Proof.Machine.execEcSigVerifySchnorr s
  | .ecSigNormalize => Sys2Proof.Machine.execEcSigNormalize s
  | .ecSigToDer => Sys2Proof.Machine.execEcSigToDer s
  | .ecSigFromDer => Sys2Proof.Machine.execEcSigFromDer s

end Sys2Proof.Machine
end

