-- ==== Sys2Proof/Machine/Host.lean ====
section
/-! DEFINITION. What the host can do to the block: register accesses on the bus (10_state.md R30,
R44 to R47, R49), its own accesses to data memory and the races they make (20_memory.md R80, R97;
93_implementation_defined.md U1), and the reset input (70_reset_and_hazards.md R450 to R452). -/

namespace Sys2Proof.Machine

/-! ### The register map (R30) -/

/-- The register at an offset; `none` for reserved offsets (R46). -/
def regAt (off : Nat) : Option Reg :=
  match off with
  | 0x00 => some .id
  | 0x04 => some .cmd
  | 0x08 => some .status
  | 0x0C => some .ctrl
  | 0x10 => some (.operand .src0Addr)
  | 0x14 => some (.operand .src0Len)
  | 0x18 => some (.operand .src1Addr)
  | 0x1C => some (.operand .src1Len)
  | 0x20 => some (.operand .src2Addr)
  | 0x24 => some (.operand .src2Len)
  | 0x28 => some (.operand .dstAddr)
  | 0x2C => some (.operand .dstLen)
  | 0x30 => some (.operand .param0)
  | 0x34 => some (.operand .param1)
  | 0x38 => some (.operand .param2)
  | 0x3C => some .written
  | 0x40 => some .lastcmd
  | _ => none

/-- The offset of a register (R30). -/
def Reg.offset : Reg → Nat
  | .id => 0x00
  | .cmd => 0x04
  | .status => 0x08
  | .ctrl => 0x0C
  | .operand .src0Addr => 0x10
  | .operand .src0Len => 0x14
  | .operand .src1Addr => 0x18
  | .operand .src1Len => 0x1C
  | .operand .src2Addr => 0x20
  | .operand .src2Len => 0x24
  | .operand .dstAddr => 0x28
  | .operand .dstLen => 0x2C
  | .operand .param0 => 0x30
  | .operand .param1 => 0x34
  | .operand .param2 => 0x38
  | .written => 0x3C
  | .lastcmd => 0x40

/-- The operand register `r` written (R39, R40, R41). -/
def State.setOperand (s : State) (r : OperandReg) (v : Word) : State :=
  { s with operands := s.operands.set v r }

/-- `CTRL` written: bit 0 is kept, the rest ignored (R38). -/
def State.setCtrl (s : State) (v : Word) : State := { s with ie := v.getLsbD 0 }

/-- `HostWrite(off, v)` (R44, R46). -/
def State.hostWrite (s : State) (off : Nat) (v : Word) : State :=
  match regAt off with
  | some .cmd => if s.busy then s.refuseWrite else s.issue v
  | some .status => s.acknowledge v
  | some .ctrl => s.setCtrl v
  | some (.operand r) => if s.busy then s.refuseWrite else s.setOperand r v
  | some .id | some .written | some .lastcmd | none => s

/-- `HostRead(off)` (R45, R46). -/
def State.hostRead (s : State) (off : Nat) : Word :=
  match regAt off with
  | some .id => Config.idWord
  | some .cmd => 0
  | some .status => s.statusWord
  | some .ctrl => s.ctrlWord
  | some (.operand r) => s.operands.get r
  | some .written => s.written
  | some .lastcmd => s.lastcmd
  | none => 0

/-! ### Bus accesses -/

/-- The offset of a physical address in the register block, if it is one of its 256 (R30). An access
is the block's exactly when its FIRST address is: DESIGN CHOICE (log 14) for one that starts below
`BASE` and runs into the block, of which R47 and R404 do not speak. -/
def State.selected (s : State) (addr : Word) : Option Nat :=
  if (addr - s.platform.base).toNat < Config.regSpan then some (addr - s.platform.base).toNat
  else none

/-- The one kind of access the block answers: one beat, four lanes, aligned (R47). -/
def alignedWord (off beats width : Nat) : Bool := beats == 1 && width == 4 && off % 4 == 0

/-- The bus's answer to an access. -/
def State.respond (s : State) (r : Response) : State := { s with response := r }

/-- A bus write (R44, R47, R49). While reset is asserted it has no effect (R452). The answer `ack` to
every aligned write, also to one refused, ignored or made during reset, is a DESIGN CHOICE (log 13). -/
def State.busWrite (s : State) (addr : Word) (beats : Nat) (lanes : Bytes) : State :=
  match s.selected addr with
  | none => s.respond .notSelected
  | some off =>
    if alignedWord off beats lanes.length then
      if s.resetAsserted then s.respond .ack
      else (s.hostWrite off (wordOfLanes lanes)).respond .ack
    else s.respond .busError

/-- A value drawn: the counter moves on, so that the next free value is a fresh one. -/
def State.drawn (s : State) : State := { s with draws := s.draws + 1 }

/-- The host observes completion by a read of `STATUS` that gives `DONE = 1` or `BUSY = 0`: every
completed command's buffers are the host's again (R96, R97, R460). -/
def State.observe (s : State) (off : Nat) : State :=
  { s with
    unobserved :=
      if regAt off = some .status ∧ (s.done = true ∨ s.busy = false) then [] else s.unobserved }

/-- A bus read (R45, R47, R49). While reset is asserted it returns any value (R452, U6); that a
malformed access is answered with a bus error then too is a DESIGN CHOICE (log 13). -/
def State.busRead (s : State) (addr : Word) (beats width : Nat) : State :=
  match s.selected addr with
  | none => s.respond .notSelected
  | some off =>
    if alignedWord off beats width then
      if s.resetAsserted then s.drawn.respond (.data (lanesOf (Config.freeWord s.draws)))
      else (s.observe off).respond (.data (lanesOf (s.hostRead off)))
    else s.respond .busError

/-! ### Data memory and the buffers of a command (R97) -/

/-- The command the engine is running, where its word is one (R50, R118). -/
def State.running (s : State) : Option Instr :=
  match s.engine with
  | .idle => none
  | .busy w _ => (decode w).toOption

/-- The destination the running command owns (R97); empty where it has none. -/
def State.ownedDest (s : State) : Region :=
  match s.running with
  | some i => if usesDest i then s.dest else ⟨0, 0⟩
  | none => ⟨0, 0⟩

/-- The sources the running command owns (R97). -/
def State.ownedSources (s : State) : List Region :=
  match s.running with
  | some i => s.sources i
  | none => []

/-- The block as it stood while a completed command ran, its word latched and its operands in their
registers: until the host observes the completion, the command owns what it owned then (R97). -/
def State.whileRunning (s : State) (f : Finished) : State :=
  { s with engine := .busy f.word false, operands := f.operands }

/-- The bytes a completed command wrote: the first `WRITTEN` of its destination (R42, R91). -/
def Finished.output (f : Finished) : Region := ⟨f.operands.dstAddr.toNat, f.written.toNat⟩

/-- The destinations owned now: the running command's, and those of the completed commands whose
completion the host has not observed (R97, R460, R464). -/
def State.ownedDests (s : State) : List Region :=
  s.ownedDest :: s.unobserved.map fun f => (s.whileRunning f).ownedDest

/-- A host store to the region races with the running command: it touches the destination or a used
source (R97). -/
def State.storeRaces (s : State) (r : Region) : Bool :=
  overlaps r s.ownedDest || s.ownedSources.any (overlaps r)

/-- A host load from the region races with the running command: it touches the destination (R97). -/
def State.loadRaces (s : State) (r : Region) : Bool := overlaps r s.ownedDest

/-- The running command's buffers have been touched (R97, R460). -/
def State.markRaced (s : State) : State :=
  match s.engine with
  | .idle => s
  | .busy w _ => { s with engine := .busy w true }

/-- The outputs of the unobserved commands that an access races with. -/
def State.racedOutputs (s : State) (races : State → Bool) : List Region :=
  (s.unobserved.filter fun f => races (s.whileRunning f)).map Finished.output

/-- What a host access makes of the commands it races with (R97, R460): the output of an unobserved
one takes any values, its outcome registers staying as they are (R34); the running one is marked, as
it is where such an output lies in its buffers, and its completion has any legal outcome (U1; log 7). -/
def State.race (s : State) (races : State → Bool) : State :=
  let outputs := s.racedOutputs races
  let s' := { s with mem := s.mem.scrambleAll s.draws (writable s.platform) outputs }.drawn
  if races s || outputs.any s.storeRaces then s'.markRaced else s'

/-- The host stores bytes, and races where they touch a command's buffers (R80, R97). -/
def State.hostStore (s : State) (addr : Nat) (b : Bytes) : State :=
  ({ s with mem := s.mem.writeBytes addr b }.respond .ack).race (·.storeRaces ⟨addr, b.length⟩)

/-- The byte a host load gives: any value in an owned destination (R97, U1) and from a device (U2),
else the memory's. -/
def State.hostByte (s : State) (a : Nat) : Byte :=
  if s.ownedDests.any (covers · a) then Config.freeByte s.draws a else s.fetchByte a

/-- The host loads bytes, and races where they are of an owned destination (R80, R97). -/
def State.hostLoad (s : State) (addr n : Nat) : State :=
  (s.drawn.respond (.bytes ((List.range n).map fun k => s.hostByte (addr + k)))).race
    (·.loadRaces ⟨addr, n⟩)

/-! ### Reset -/

/-- How many bytes the output range of the running command has within its destination (R421, R451).
Where R421 gives no one length (`SRC2 - pad` of `AES_CBC.DECRYPT`, 8 to 72 of `EC_SIG_TO_DER`) it is
the greatest, `SRC2_LEN - 1` and 72: DESIGN CHOICE (log 15). -/
def State.abandonedBytes (s : State) : Nat :=
  match s.running with
  | some i => min s.dstLen (s.outputRange i).2
  | none => 0

/-- Reset asserted (R450): a running command is abandoned without a completion, each byte of its
output range holding any value; the sources are not written (R451, U5). -/
def State.assertReset (s : State) (powerOn : Bool) : State :=
  s.enterReset powerOn
    (s.mem.scramble s.draws
      (fun a => decide (a < Config.spaceSize) && !s.ownedSources.any (covers · a))
      s.operands.dstAddr.toNat s.abandonedBytes)

/-- Reset released: the block is ready at once (R450). -/
def State.releaseReset (s : State) : State := { s with resetAsserted := false }

end Sys2Proof.Machine
end

