-- ==== Sys2Proof/Machine/Sequencer.lean ====
section
/-! DEFINITION. The engine's turn (10_state.md R50, R51) and the effect of each event
(60_exceptions.md R423). -/

namespace Sys2Proof.Machine

/-- The engine's turn: an idle block does nothing (R438); a busy one takes its completion step, the
command's own, or `EINVAL` with the decoder's cause for a word that is none (R118, R410). Reset
overrides everything (R423). -/
def engineTurn (s : State) : Host.Outcome State Fault Refusal :=
  if s.resetAsserted then .next s
  else
    match s.engine with
    | .idle => .next s
    | .busy w _ =>
      match decode w with
      | .ok i => exec i s
      | .error e => .next (s.complete (.raise (decodeCause e)))

/-- One event. A data-memory access past the last address has no bytes to act on (R80). -/
def takeEvent (e : Event) (s : State) : Host.Outcome State Fault Refusal :=
  match e with
  | .busWrite addr beats lanes => .next (s.busWrite addr beats lanes)
  | .busRead addr beats width => .next (s.busRead addr beats width)
  | .memStore addr b =>
    if addr.toNat + b.length ≤ Config.spaceSize then .next (s.hostStore addr.toNat b)
    else .fault .noSuchAddress
  | .memLoad addr n =>
    if addr.toNat + n ≤ Config.spaceSize then .next (s.hostLoad addr.toNat n)
    else .fault .noSuchAddress
  | .resetAssert powerOn => .next (s.assertReset powerOn)
  | .resetRelease => .next s.releaseReset
  | .engine => engineTurn s

/-- The first event taken from the inbox. -/
def State.withInbox (s : State) (rest : List Event) : State := { s with inbox := rest }

end Sys2Proof.Machine
end

