-- ==== Sys2Proof/Machine/Step.lean ====
section
/-! DEFINITION. One step of the machine, and the placing of a command word where the next step
runs it. -/

namespace Sys2Proof.Machine

/-- One step: the next event of the inbox; with none waiting, the engine's turn (log 1). -/
def step (s : State) : Host.Outcome State Fault Refusal :=
  match s.inbox with
  | [] => engineTurn s
  | e :: rest => takeEvent e (s.withInbox rest)

/-- The inbox with the engine's turn next: with none waiting it is next already. -/
def engineNext : List Event → List Event
  | [] => []
  | e :: rest => .engine :: e :: rest

/-- The state in which the block, out of reset, has accepted the word (R50) and the engine's turn is
next: the block fetches no instructions (R52), a host's `CMD` write brings them (log 1). -/
def State.withFetchWord (s : State) (nbits w : Nat) : State :=
  (({ s with resetAsserted := false }).issue (BitVec.ofNat 32 (w % 2 ^ nbits))).withInbox
    (engineNext s.inbox)

end Sys2Proof.Machine
end

