-- ==== Sys2Proof/Machine/Script.lean ====
section
/-! DEFINITION. The host command-script notation (30_encoding.md R120 to R122): its statements and
the bus operations each stands for, as events of the inbox. -/

namespace Sys2Proof.Machine

/-- One statement of a script (R120, R121). -/
inductive Stmt
  /-- `WR <reg>, <v>`. -/
  | wr (r : Reg) (v : Word)
  /-- `RD <reg>`. -/
  | rd (r : Reg)
  /-- `ISSUE <mnemonic>`. -/
  | issue (i : Instr)
  /-- `ISSUE RAW <v>`. -/
  | issueRaw (v : Word)
  /-- `WAIT`: `polls` reads of `STATUS` that find the block busy, the completion, then a read that
  does not; the number of polls is open (R122, R470). -/
  | wait (polls : Nat)
  /-- `CLEAR`. -/
  | clear
  /-- `MEM <addr>, <hex bytes>`. -/
  | mem (addr : Word) (bytes : Bytes)
  /-- `RUN`: the operands given, as address and length or as a number; then issue and wait. -/
  | run (i : Instr) (src0 src1 src2 dst : Option (Word × Word)) (p0 p1 p2 : Option Word)
      (polls : Nat)
deriving DecidableEq, Repr

/-- The bus write `WR` stands for: one aligned 32-bit write at `BASE + offset` (R120, R122). -/
def writeOp (base : Word) (r : Reg) (v : Word) : Event :=
  .busWrite (base + BitVec.ofNat 32 r.offset) 1 (lanesOf v)

/-- The bus read `RD` stands for. -/
def readOp (base : Word) (r : Reg) : Event :=
  .busRead (base + BitVec.ofNat 32 r.offset) 1 4

/-- The writes for a region operand of `RUN` that is given (R121). -/
def regionOps (base : Word) (addr len : OperandReg) : Option (Word × Word) → List Event
  | none => []
  | some (a, l) => [writeOp base (.operand addr) a, writeOp base (.operand len) l]

/-- The write for a number operand of `RUN` that is given (R121). -/
def paramOps (base : Word) (r : OperandReg) : Option Word → List Event
  | none => []
  | some v => [writeOp base (.operand r) v]

/-- `WAIT` (R120, R122). -/
def waitOps (base : Word) (polls : Nat) : List Event :=
  List.replicate polls (readOp base .status) ++ [.engine, readOp base .status]

/-- The bus operations of a statement, in order (R120, R121, R122). -/
def Stmt.ops (base : Word) : Stmt → List Event
  | .wr r v => [writeOp base r v]
  | .rd r => [readOp base r]
  | .issue i => [writeOp base .cmd (encode i)]
  | .issueRaw v => [writeOp base .cmd v]
  | .wait polls => waitOps base polls
  | .clear => [writeOp base .status 0x00000006]
  | .mem addr bytes => [.memStore addr bytes]
  | .run i src0 src1 src2 dst p0 p1 p2 polls =>
    regionOps base .src0Addr .src0Len src0 ++ regionOps base .src1Addr .src1Len src1 ++
      regionOps base .src2Addr .src2Len src2 ++ regionOps base .dstAddr .dstLen dst ++
      paramOps base .param0 p0 ++ paramOps base .param1 p1 ++ paramOps base .param2 p2 ++
      [writeOp base .cmd (encode i)] ++ waitOps base polls

/-- The encoding of a script: the bus operations of its statements in order (R122). -/
def scriptOps (base : Word) (script : List Stmt) : List Event := script.flatMap (Stmt.ops base)

end Sys2Proof.Machine
end

