-- ==== Sys2Proof/Safety.lean ====
section
/-! DEFINITION. The terms the statements are made in: when a command is ready to run, how a command
ends, what a completion leaves alone, and the invariant of the block. -/

namespace Sys2Proof.Machine

/-! ### Before a command -/

/-- The conditions every command shares for its own effect, in numbers: no race on its buffers
(R460), no wrap (R83), no overlap of a nonempty destination with a nonempty source (R84), every
source byte readable (R93). -/
structure Ready (s : State) (i : Instr) : Prop where
  calm : s.engine.isRaced = false
  sourcesFit : ∀ k ∈ usedSources i, (s.source k).base + (s.source k).size ≤ 2 ^ 32
  destFits : usesDest i = true → s.dest.base + s.dest.size ≤ 2 ^ 32
  apart : usesDest i = true → ∀ k ∈ usedSources i,
    s.dest.size = 0 ∨ (s.source k).size = 0 ∨
      s.dest.base + s.dest.size ≤ (s.source k).base ∨
      (s.source k).base + (s.source k).size ≤ s.dest.base
  sourcesReadable : ∀ k ∈ usedSources i, ∀ j < (s.source k).size,
    readable s.platform ((s.source k).base + j) = true

/-- The first `n` bytes of the destination are writable (R94). -/
def CanWrite (s : State) (n : Nat) : Prop :=
  ∀ j < n, writable s.platform (s.dest.base + j) = true

/-! ### After a command -/

/-- What no completion changes: the operand registers, `CTRL`, `WERR`, `LASTCMD`, the platform, the
reset input, the events still to come and the bus's last answer (R51, R53, R54). -/
structure Undisturbed (s t : State) : Prop where
  operands : t.operands = s.operands
  ie : t.ie = s.ie
  werr : t.werr = s.werr
  lastcmd : t.lastcmd = s.lastcmd
  platform : t.platform = s.platform
  resetAsserted : t.resetAsserted = s.resetAsserted
  inbox : t.inbox = s.inbox
  response : t.response = s.response

/-- The completion step's own registers (R51, R60): idle, `DONE` set, the storage wiped. -/
structure Completed (t : State) : Prop where
  idle : t.engine = .idle
  done : t.done = true
  workWiped : t.workStore = .wiped
  scryptWiped : t.scryptStore = .wiped

/-- The command ended `OK` with the output bytes `out`: they stand at the start of the destination,
`WRITTEN` counts them, and nothing else changed (R51, R91). -/
structure EndsOk (s t : State) (out : Bytes) : Prop where
  completed : Completed t
  result : t.result = .ok
  cause : t.cause = .none
  written : t.written.toNat = out.length
  bytes : ∀ k < out.length, t.mem.read (s.dest.base + k) = out.getD k 0
  elsewhere : ∀ a, a < s.dest.base ∨ s.dest.base + out.length ≤ a → t.mem.read a = s.mem.read a
  undisturbed : Undisturbed s t

/-- The command ended with a cause and its class, and wrote nothing (R51, R92, R401). -/
structure EndsWith (s t : State) (c : Cause) : Prop where
  completed : Completed t
  result : t.result = c.resultClass
  cause : t.cause = c
  written : t.written = 0
  memory : t.mem = s.mem
  undisturbed : Undisturbed s t

/-- The pairing of the outcome registers (R402). -/
structure Paired (t : State) : Prop where
  okIff : t.cause = .none ↔ t.result = .ok
  verifyIff : t.cause = .verify ↔ t.result = .verifyFail
  classOf : t.result = t.cause.resultClass
  nothingWritten : t.result ≠ .ok → t.written = 0

/-! ### The refusals, as 60_exceptions.md R421 tables them -/

/-- The cause where a condition for refusal holds. -/
def refuseIf (bad : Prop) [Decidable bad] (c : Cause) : Option Cause := if bad then some c else none

/-- V4: the length rules, in the order SRC0, SRC1, SRC2, DST. -/
def State.lengthRefusal (s : State) : Instr → Option Cause
  | .sha256 | .sha256d | .hmacSha256 => refuseIf (s.dstLen ≠ 32) .badDstLen
  | .sha512 | .hmacSha512 => refuseIf (s.dstLen ≠ 64) .badDstLen
  | .pbkdf2Sha256 => refuseIf (s.dstLen = 0 ∨ s.dstLen % 32 ≠ 0) .badDstLen
  | .pbkdf2Sha512 => refuseIf (s.dstLen = 0 ∨ s.dstLen % 64 ≠ 0) .badDstLen
  | .scrypt => refuseIf (s.dstLen < 1) .badDstLen
  | .aesEcbEncrypt | .aesEcbDecrypt =>
    (refuseIf (s.srcLen .src0 ∉ [16, 24, 32]) .badSrc0Len).or <|
    (refuseIf (s.srcLen .src1 = 0 ∨ s.srcLen .src1 % 16 ≠ 0) .badSrc1Len).or <|
    refuseIf (s.dstLen ≠ s.srcLen .src1) .badDstLen
  | .aesCbcEncrypt =>
    (refuseIf (s.srcLen .src0 ∉ [16, 24, 32]) .badSrc0Len).or <|
    (refuseIf (s.srcLen .src1 ≠ 16) .badSrc1Len).or <|
    (refuseIf (2 ^ 32 - 17 < s.srcLen .src2) .badSrc2Len).or <|
    refuseIf (s.dstLen < 16 * (s.srcLen .src2 / 16) + 16) .badDstLen
  | .aesCbcDecrypt =>
    (refuseIf (s.srcLen .src0 ∉ [16, 24, 32]) .badSrc0Len).or <|
    (refuseIf (s.srcLen .src1 ≠ 16) .badSrc1Len).or <|
    (refuseIf (s.srcLen .src2 = 0 ∨ s.srcLen .src2 % 16 ≠ 0) .badSrc2Len).or <|
    refuseIf (s.dstLen < s.srcLen .src2 - 1) .badDstLen
  | .ecPrivVerify => refuseIf (s.srcLen .src0 ≠ 32) .badSrc0Len
  | .ecPubFromPriv =>
    (refuseIf (s.srcLen .src0 ≠ 32) .badSrc0Len).or <| refuseIf (s.dstLen ≠ 33) .badDstLen
  | .ecPubDecompress =>
    (refuseIf (s.srcLen .src0 ≠ 33) .badSrc0Len).or <| refuseIf (s.dstLen ≠ 65) .badDstLen
  | .ecSignEcdsa | .ecSignSchnorr =>
    (refuseIf (s.srcLen .src0 ≠ 32) .badSrc0Len).or <|
    (refuseIf (s.srcLen .src1 ≠ 32) .badSrc1Len).or <| refuseIf (s.dstLen ≠ 64) .badDstLen
  | .ecSigVerifyEcdsa | .ecSigVerifySchnorr =>
    (refuseIf (s.srcLen .src0 ≠ 33) .badSrc0Len).or <|
    (refuseIf (s.srcLen .src1 ≠ 32) .badSrc1Len).or <|
    refuseIf (s.srcLen .src2 ≠ 64) .badSrc2Len
  | .ecSigNormalize =>
    (refuseIf (s.srcLen .src0 ≠ 64) .badSrc0Len).or <| refuseIf (s.dstLen ≠ 64) .badDstLen
  | .ecSigToDer =>
    (refuseIf (s.srcLen .src0 ≠ 64) .badSrc0Len).or <| refuseIf (s.dstLen < 72) .badDstLen
  | .ecSigFromDer =>
    (refuseIf (s.srcLen .src0 < 8 ∨ 72 < s.srcLen .src0) .badSrc0Len).or <|
    refuseIf (s.dstLen ≠ 64) .badDstLen

/-- V5: the parameter rules, in the order PARAM0, PARAM1, PARAM2, then scrypt's size rule. -/
def State.paramRefusal (s : State) : Instr → Option Cause
  | .pbkdf2Sha256 | .pbkdf2Sha512 => refuseIf (s.operands.param0 = 0) .badParam0
  | .scrypt =>
    (refuseIf (¬∃ k, k < 31 ∧ s.operands.param0.toNat = 2 ^ (k + 1)) .badParam0).or <|
    (refuseIf (s.operands.param1 = 0) .badParam1).or <|
    (refuseIf (s.operands.param2 = 0) .badParam2).or <|
    refuseIf
      (2 ^ 32 - 1 < 128 * s.operands.param1.toNat * s.operands.param0.toNat ∨
        2 ^ 32 - 1 < 128 * s.operands.param1.toNat * s.operands.param2.toNat) .sizeOverflow
  | .sha256 | .sha256d | .sha512 | .hmacSha256 | .hmacSha512
  | .aesEcbEncrypt | .aesEcbDecrypt | .aesCbcEncrypt | .aesCbcDecrypt
  | .ecPrivVerify | .ecPubFromPriv | .ecPubDecompress
  | .ecSignEcdsa | .ecSignSchnorr | .ecSigVerifyEcdsa | .ecSigVerifySchnorr
  | .ecSigNormalize | .ecSigToDer | .ecSigFromDer => none

/-- V6 and V7: a used region that wraps, then a destination that overlaps a used source. -/
def State.regionRefusal (s : State) (i : Instr) : Option Cause :=
  (refuseIf ((∃ k ∈ usedSources i, 2 ^ 32 < (s.source k).base + (s.source k).size) ∨
      (usesDest i = true ∧ 2 ^ 32 < s.dest.base + s.dest.size)) .regionWrap).or <|
  refuseIf (usesDest i = true ∧ ∃ k ∈ usedSources i,
    s.dest.size ≠ 0 ∧ (s.source k).size ≠ 0 ∧
      s.dest.base < (s.source k).base + (s.source k).size ∧
      (s.source k).base < s.dest.base + s.dest.size) .regionOverlap

/-- V8: scrypt's memory rule (R233). -/
def State.memoryRefusal (s : State) (i : Instr) : Option Cause :=
  refuseIf (i = .scrypt ∧ s.platform.scryptMemBytes <
    128 * s.operands.param1.toNat * s.operands.param0.toNat +
      128 * s.operands.param1.toNat * s.operands.param2.toNat + 256 * s.operands.param1.toNat)
    .noMemory

/-- V4 to V8: what a command is refused for before it reads any memory (R420). -/
def State.earlyRefusal (s : State) (i : Instr) : Option Cause :=
  (s.lengthRefusal i).or <| (s.paramRefusal i).or <| (s.regionRefusal i).or (s.memoryRefusal i)

/-- Some byte of a used source region is not readable (V9, R93). -/
def UnreadableSource (s : State) (i : Instr) : Prop :=
  ∃ k ∈ usedSources i, ∃ j < (s.source k).size, readable s.platform ((s.source k).base + j) = false

/-! ### Two states that agree on what a command takes (R58, R117, R425) -/

/-- The number operands a command uses. -/
def usedParams : Instr → List OperandReg
  | .pbkdf2Sha256 | .pbkdf2Sha512 => [.param0]
  | .scrypt => [.param0, .param1, .param2]
  | .sha256 | .sha256d | .sha512 | .hmacSha256 | .hmacSha512
  | .aesEcbEncrypt | .aesEcbDecrypt | .aesCbcEncrypt | .aesCbcDecrypt
  | .ecPrivVerify | .ecPubFromPriv | .ecPubDecompress
  | .ecSignEcdsa | .ecSignSchnorr | .ecSigVerifyEcdsa | .ecSigVerifySchnorr
  | .ecSigNormalize | .ecSigToDer | .ecSigFromDer => []

/-- The used operands, the bytes of the used sources and the platform agree, and neither command is
raced. -/
structure SameInputs (s s' : State) (i : Instr) : Prop where
  calm : s.engine.isRaced = false ∧ s'.engine.isRaced = false
  sources : ∀ k ∈ usedSources i, s.source k = s'.source k
  bytes : ∀ k ∈ usedSources i, s.input k = s'.input k
  dest : usesDest i = true → s.dest = s'.dest
  params : ∀ r ∈ usedParams i, s.operands.get r = s'.operands.get r
  platform : s.platform = s'.platform

/-! ### What a step is about to do -/

/-- The engine's turn is next: nothing waits, or the engine's own event is first (R423). -/
def EngineNext (s : State) : Prop := s.inbox = [] ∨ ∃ rest, s.inbox = .engine :: rest

/-- The completion step is next: a busy block out of reset, with the engine's turn next (R51). -/
def CompletionNext (s : State) (w : Word) : Prop :=
  s.resetAsserted = false ∧ (∃ raced, s.engine = .busy w raced) ∧ EngineNext s

/-- The assertion of reset is next. -/
def ResetNext (s : State) : Prop := ∃ powerOn rest, s.inbox = .resetAssert powerOn :: rest

/-- `HostWrite(off, v)` is next: an aligned 32-bit write of the block, out of reset (R44, R47). -/
def WriteNext (s : State) (off : Nat) (v : Word) : Prop :=
  s.resetAsserted = false ∧ ∃ addr lanes rest, s.inbox = .busWrite addr 1 lanes :: rest ∧
    lanes.length = 4 ∧ wordOfLanes lanes = v ∧ s.selected addr = some off ∧ off % 4 = 0

/-- The bytes of the destination region that the host's store of `n` bytes at `a` touches, or those
of a used source region (R97). -/
def Touches (s : State) (i : Instr) (a n : Nat) : Prop :=
  ∃ x, a ≤ x ∧ x < a + n ∧
    ((usesDest i = true ∧ s.dest.base ≤ x ∧ x < s.dest.base + s.dest.size) ∨
      ∃ k ∈ usedSources i, (s.source k).base ≤ x ∧ x < (s.source k).base + (s.source k).size)

/-- The destination region is among the bytes that the host's load of `n` bytes at `a` touches
(R97). -/
def TouchesDest (s : State) (i : Instr) (a n : Nat) : Prop :=
  usesDest i = true ∧ ∃ x, a ≤ x ∧ x < a + n ∧ s.dest.base ≤ x ∧ x < s.dest.base + s.dest.size

/-- The byte at `x` is of the output of a completed command that the host has not observed, and whose
buffers an access touches, as `touches` says of the block that ran it (R97). -/
def RacedOutput (s : State) (touches : State → Instr → Prop) (x : Nat) : Prop :=
  ∃ f ∈ s.unobserved, ∃ i, decode f.word = .ok i ∧ touches (s.whileRunning f) i ∧
    f.operands.dstAddr.toNat ≤ x ∧ x < f.operands.dstAddr.toNat + f.written.toNat

/-- The byte at `x` is of a destination that is owned: the running command's, or that of a completed
one the host has not observed (R97, R464). -/
def InOwnedDest (s : State) (x : Nat) : Prop :=
  (∃ w raced i, s.engine = .busy w raced ∧ decode w = .ok i ∧ TouchesDest s i x 1) ∨
    ∃ f ∈ s.unobserved, ∃ i, decode f.word = .ok i ∧ TouchesDest (s.whileRunning f) i x 1

/-- What an access of the host to data memory does to the block: it changes no register, and it marks
the running command exactly where it touches its buffers, or where the output of another command that
it races with lies in them (R80, R97; log 7). -/
structure HostAccess (s t : State) (touches : State → Instr → Prop) : Prop where
  operands : t.operands = s.operands
  result : t.result = s.result
  cause : t.cause = s.cause
  written : t.written = s.written
  lastcmd : t.lastcmd = s.lastcmd
  done : t.done = s.done
  werr : t.werr = s.werr
  ie : t.ie = s.ie
  unobserved : t.unobserved = s.unobserved
  idle : s.engine = .idle → t.engine = .idle
  noCommand : ∀ w raced e, s.engine = .busy w raced → decode w = .error e → t.engine = s.engine
  marked : ∀ w raced i, s.engine = .busy w raced → decode w = .ok i →
    (touches s i ∨ ∃ x, RacedOutput s touches x ∧ Touches s i x 1) → t.engine = .busy w true
  unmarked : ∀ w raced i, s.engine = .busy w raced → decode w = .ok i →
    ¬touches s i → (∀ x, RacedOutput s touches x → ¬Touches s i x 1) → t.engine = .busy w raced

/-! ### Arithmetic of bytes (R260) -/

/-- The product of two bytes in GF(2^8): `a` times each bit of `b`, shifted by `xtime`. -/
def gfProduct (a b : Byte) : Byte :=
  go 8 a b
where
  /-- The product of `a` and the low bits of `b`. -/
  go : Nat → Byte → Byte → Byte
    | 0, _, _ => 0
    | n + 1, a, b => (if b.getLsbD 0 then a else 0) ^^^ go n (xtime a) (b >>> 1)

/-! ### The invariant -/

/-- What holds of the block at every moment: `BUSY` and `DONE` exclude each other (R33), the outcome
registers pair (R402), while busy they read 0 and `LASTCMD` is the running word (R36, R37, R42, R43,
R464), an idle block's storage is wiped (R60), reset leaves it idle (R450), and the data memory is
in its canonical form. -/
structure State.Inv (s : State) : Prop where
  exclusive : s.done = true → s.engine = .idle
  paired : s.result = s.cause.resultClass
  failedWroteNothing : s.result ≠ .ok → s.written = 0
  busyOutcome : ∀ w raced, s.engine = .busy w raced →
    s.result = .ok ∧ s.cause = .none ∧ s.written = 0 ∧ s.lastcmd = w
  idleWiped : s.engine = .idle → s.workStore = .wiped ∧ s.scryptStore ≠ .inUse
  heldInReset : s.resetAsserted = true → s.engine = .idle ∧ s.done = false ∧ s.ie = false
  canonical : s.mem.wf = true

end Sys2Proof.Machine
end

