-- ==== Sys2Proof/Certificates/Slice0/Obligations.lean ====
section
/-! DEFINITION. The statements for the provers. Each docstring names the rules of spec/ it comes from;
`R<n>` stands in the file spec/INDEX.md gives for it. -/

open Sys2Proof Sys2Proof.Machine

/-! ### Encoding and decoding -/

/-- R118, R112, R113: a word decodes to a command exactly when it is that command's word; so decoding
gives back every encoded command, and no two words are one command. -/
def Obligations.DecoderAcceptsExactlyTheEncodings : Prop :=
  ∀ (w : Word) (i : Instr), decode w = .ok i ↔ w = encode i

/-- R118: `Decode` on every word, its three fields taken as the digits of the number. -/
def Obligations.DecoderClassifiesEveryWord : Prop :=
  ∀ w : Word,
    let opc := w.toNat % 256
    let flg := w.toNat / 256 % 256
    let rsv := w.toNat / 65536
    let assigned := opc ∈ [0x01, 0x02, 0x03, 0x11, 0x12, 0x21, 0x22, 0x28, 0x31, 0x32,
      0x41, 0x42, 0x43, 0x44, 0x45, 0x46, 0x47, 0x48]
    let legal := if opc ∈ [0x31, 0x32, 0x44, 0x45] then flg = 0x01 ∨ flg = 0x02 else flg = 0x00
    (¬assigned → decode w = .error .illegalOpcode) ∧
      (assigned → rsv ≠ 0 → decode w = .error .reservedBits) ∧
      (assigned → rsv = 0 → ¬legal → decode w = .error .badFlags) ∧
      (assigned → rsv = 0 → legal →
        ∃ i, decode w = .ok i ∧ i.fields.opc.toNat = opc ∧ i.fields.flg.toNat = flg)

/-- R112, R113: a word of each family, written out in its bits, decodes to its command. -/
def Obligations.WrittenOutWordsDecode : Prop :=
  decode 0b00000000000000000000000000000001 = .ok .sha256 ∧
    decode 0b00000000000000000000000000010010 = .ok .hmacSha512 ∧
    decode 0b00000000000000000000000000101000 = .ok .scrypt ∧
    decode 0b00000000000000000000001000110010 = .ok .aesCbcDecrypt ∧
    decode 0b00000000000000000000000101000100 = .ok .ecSignEcdsa ∧
    decode 0b00000000000000000000000000000000 = .error .illegalOpcode ∧
    decode 0b00000000000000010000000000000001 = .error .reservedBits ∧
    decode 0b00000000000000000000001101000100 = .error .badFlags

/-- R50, R51, R438, R450: a busy block out of reset whose turn it is runs the command its word
decodes to, and the step adds nothing but taking the engine's event; an idle block, and one held in
reset, does nothing. The order of events in the inbox is the model's, and so is `withFetchWord`: a
word it places is the next one run, as just issued, with the waiting events still to come (log 1). -/
def Obligations.StepRunsTheDecodedCommand : Prop :=
  ∀ (s : State) (rest : List Event),
    (∀ w raced i, s.resetAsserted = false → s.engine = .busy w raced → decode w = .ok i →
      (s.inbox = [] → step s = exec i s) ∧
        (s.inbox = .engine :: rest → step s = exec i (s.withInbox rest))) ∧
      (s.engine = .idle ∨ s.resetAsserted = true →
        (s.inbox = [] → step s = .next s) ∧
          (s.inbox = .engine :: rest → step s = .next (s.withInbox rest))) ∧
      ∀ (nbits w : Nat) (i : Instr), decode (BitVec.ofNat 32 (w % 2 ^ nbits)) = .ok i →
        step (s.withFetchWord nbits w) =
          exec i ((s.releaseReset.issue (BitVec.ofNat 32 (w % 2 ^ nbits))).withInbox s.inbox)

/-- R116, R118: every word is a command with legal `FLG` and zero `RSV`, and is executed, or it
completes with `EINVAL` and one of three causes and does nothing else. -/
def Obligations.EveryWordExecutesOrIsRefused : Prop :=
  ∀ (s : State) (w : Word), CompletionNext s w →
    (∃ i, w = encode i ∧ step s = exec i (s.withInbox s.inbox.tail)) ∨
      ((∀ i, w ≠ encode i) ∧
        ∃ c ∈ [Cause.illegalOpcode, Cause.reservedBits, Cause.badFlags], ∃ t,
          step s = .next t ∧ t.result = .einval ∧ EndsWith (s.withInbox s.inbox.tail) t c)

/-! ### What each command computes

In every one: the data memory is in its canonical form, the command is `Ready` (no race, no wrap, no
overlap, readable sources), its lengths and parameters are those of R117, the bytes it writes are
writable. Then it ends `OK` with the output its rule gives; `EndsOk` says where the bytes stand, and
that nothing else changed. -/

/-- R150, R151, R170. -/
def Obligations.DigestResults : Prop :=
  ∀ s : State, s.mem.wf = true →
    (Ready s .sha256 → s.dstLen = 32 → CanWrite s 32 → ∃ t, exec .sha256 s = .next t ∧
      EndsOk s t (sha256 (s.input .src0)) ∧ t.written = 32) ∧
    (Ready s .sha256d → s.dstLen = 32 → CanWrite s 32 → ∃ t, exec .sha256d s = .next t ∧
      EndsOk s t (sha256 (sha256 (s.input .src0))) ∧ t.written = 32) ∧
    (Ready s .sha512 → s.dstLen = 64 → CanWrite s 64 → ∃ t, exec .sha512 s = .next t ∧
      EndsOk s t (sha512 (s.input .src0)) ∧ t.written = 64)

/-- R196, R197: SRC0 is the key, SRC1 the message. -/
def Obligations.MacResults : Prop :=
  ∀ s : State, s.mem.wf = true →
    (Ready s .hmacSha256 → s.dstLen = 32 → CanWrite s 32 → ∃ t, exec .hmacSha256 s = .next t ∧
      EndsOk s t (hmacSha256 (s.input .src0) (s.input .src1)) ∧ t.written = 32) ∧
    (Ready s .hmacSha512 → s.dstLen = 64 → CanWrite s 64 → ∃ t, exec .hmacSha512 s = .next t ∧
      EndsOk s t (hmacSha512 (s.input .src0) (s.input .src1)) ∧ t.written = 64)

/-- R212, R213, R215, R216: SRC0 is the password, SRC1 the salt, PARAM0 the iteration count. -/
def Obligations.Pbkdf2Results : Prop :=
  ∀ s : State, s.mem.wf = true → s.operands.param0 ≠ 0 → s.dstLen ≠ 0 → CanWrite s s.dstLen →
    (Ready s .pbkdf2Sha256 → s.dstLen % 32 = 0 → ∃ t, exec .pbkdf2Sha256 s = .next t ∧
      EndsOk s t
        (pbkdf2Sha256 (s.input .src0) (s.input .src1) s.operands.param0.toNat s.dstLen) ∧
      t.written = s.operands.dstLen) ∧
    (Ready s .pbkdf2Sha512 → s.dstLen % 64 = 0 → ∃ t, exec .pbkdf2Sha512 s = .next t ∧
      EndsOk s t
        (pbkdf2Sha512 (s.input .src0) (s.input .src1) s.operands.param0.toNat s.dstLen) ∧
      t.written = s.operands.dstLen)

/-- R230 to R233: with a cost that is a power of two of at least 2, block size and parallelism of at
least 1, both sizes within the limit and enough memory, the command gives R225's output. -/
def Obligations.ScryptResult : Prop :=
  ∀ (s : State) (k : Nat),
    let n := s.operands.param0.toNat
    let r := s.operands.param1.toNat
    let p := s.operands.param2.toNat
    s.mem.wf = true → Ready s .scrypt → s.dstLen ≠ 0 → CanWrite s s.dstLen →
      n = 2 ^ (k + 1) → 1 ≤ r → 1 ≤ p → 128 * r * n ≤ 2 ^ 32 - 1 → 128 * r * p ≤ 2 ^ 32 - 1 →
      128 * r * n + 128 * r * p + 256 * r ≤ s.platform.scryptMemBytes →
      ∃ t, exec .scrypt s = .next t ∧
        EndsOk s t (scrypt (s.input .src0) (s.input .src1) n r p s.dstLen) ∧
        t.written = s.operands.dstLen

/-- R270, R275, R276, R277: SRC0 is the key, SRC1 the data. -/
def Obligations.EcbResults : Prop :=
  ∀ s : State, s.mem.wf = true → s.srcLen .src0 ∈ [16, 24, 32] → s.srcLen .src1 ≠ 0 →
    s.srcLen .src1 % 16 = 0 → s.dstLen = s.srcLen .src1 → CanWrite s s.dstLen →
    (Ready s .aesEcbEncrypt → ∃ t, exec .aesEcbEncrypt s = .next t ∧
      EndsOk s t ((chunks 16 (s.input .src1)).flatMap (aesEnc (s.input .src0))) ∧
      t.written = s.operands.src1Len) ∧
    (Ready s .aesEcbDecrypt → ∃ t, exec .aesEcbDecrypt s = .next t ∧
      EndsOk s t ((chunks 16 (s.input .src1)).flatMap (aesDec (s.input .src0))) ∧
      t.written = s.operands.src1Len)

/-- R271, R280, R281: SRC0 is the key, SRC1 the IV, SRC2 the data. -/
def Obligations.CbcEncryptResult : Prop :=
  ∀ s : State, s.mem.wf = true → Ready s .aesCbcEncrypt → s.srcLen .src0 ∈ [16, 24, 32] →
    s.srcLen .src1 = 16 → s.srcLen .src2 ≤ 2 ^ 32 - 17 →
    16 * (s.srcLen .src2 / 16) + 16 ≤ s.dstLen →
    CanWrite s (16 * (s.srcLen .src2 / 16) + 16) →
    ∃ t, exec .aesCbcEncrypt s = .next t ∧
      EndsOk s t (cbcEncrypt (s.input .src0) (s.input .src1) (s.input .src2)) ∧
      t.written.toNat = 16 * (s.srcLen .src2 / 16) + 16

/-- R272, R280, R282: where the padding is valid; `WRITTEN` is the length less the padding. -/
def Obligations.CbcDecryptResult : Prop :=
  ∀ (s : State) (m : Bytes), s.mem.wf = true → Ready s .aesCbcDecrypt →
    s.srcLen .src0 ∈ [16, 24, 32] → s.srcLen .src1 = 16 → s.srcLen .src2 ≠ 0 →
    s.srcLen .src2 % 16 = 0 → s.srcLen .src2 - 1 ≤ s.dstLen →
    cbcDecrypt (s.input .src0) (s.input .src1) (s.input .src2) = some m → CanWrite s m.length →
    ∃ t, exec .aesCbcDecrypt s = .next t ∧ EndsOk s t m ∧
      ∃ padn, 1 ≤ padn ∧ padn ≤ 16 ∧ t.written.toNat + padn = s.srcLen .src2

/-- R314, R320, R321: a key in `[1, n - 1]` is valid; its public key is the compressed form of the
multiple of the base point. -/
def Obligations.PrivateKeyResults : Prop :=
  ∀ s : State, s.mem.wf = true → s.srcLen .src0 = 32 → 1 ≤ beNat (s.input .src0) →
    beNat (s.input .src0) < curveOrder →
    (Ready s .ecPrivVerify → ∃ t, exec .ecPrivVerify s = .next t ∧ EndsOk s t [] ∧
      t.written = 0) ∧
    (Ready s .ecPubFromPriv → s.dstLen = 33 → CanWrite s 33 →
      ∃ t, exec .ecPubFromPriv s = .next t ∧
        EndsOk s t (compressPoint (mulPoint (beNat (s.input .src0)) basePoint)) ∧ t.written = 33)

/-- R313, R322: a compressed key that parses gives its uncompressed form. -/
def Obligations.PubDecompressResult : Prop :=
  ∀ (s : State) (x y : Nat), s.mem.wf = true → Ready s .ecPubDecompress → s.srcLen .src0 = 33 →
    s.dstLen = 65 → CanWrite s 65 → parseCompressed (s.input .src0) = some (x, y) →
    ∃ t, exec .ecPubDecompress s = .next t ∧
      EndsOk s t (0x04 :: (beBytes 32 x ++ beBytes 32 y)) ∧ t.written = 65

/-- R331 to R333: a valid key signs, with the signature of R331. That an unbounded search always ends
`OK`, with a free signature where no candidate ever serves, is the model's DESIGN CHOICE (log 9): R331
gives no outcome there, and `ecdsaSign none` takes in that free value. -/
def Obligations.EcdsaSignResult : Prop :=
  ∀ s : State, s.mem.wf = true → Ready s .ecSignEcdsa → s.srcLen .src0 = 32 →
    s.srcLen .src1 = 32 → s.dstLen = 64 → CanWrite s 64 → 1 ≤ beNat (s.input .src0) →
    beNat (s.input .src0) < curveOrder →
    (∀ sig, ecdsaSign s.platform.nonceTriesMax (beNat (s.input .src0)) (s.input .src1) = some sig →
      ∃ t, exec .ecSignEcdsa s = .next t ∧ EndsOk s t sig ∧ t.written = 64) ∧
    (s.platform.nonceTriesMax = none →
      ∃ t sig, exec .ecSignEcdsa s = .next t ∧ EndsOk s t sig ∧ t.written = 64)

/-- R332, R334: a valid key signs with the scheme's own signature, whatever the scheme is; the
function `schnorrSign` stands for R360's OPEN parameter (log 5). -/
def Obligations.SchnorrSignResult : Prop :=
  ∀ s : State, s.mem.wf = true → Ready s .ecSignSchnorr → s.srcLen .src0 = 32 →
    s.srcLen .src1 = 32 → s.dstLen = 64 → CanWrite s 64 → 1 ≤ beNat (s.input .src0) →
    beNat (s.input .src0) < curveOrder →
    ∃ t, exec .ecSignSchnorr s = .next t ∧
      EndsOk s t (schnorrSign (s.input .src0) (s.input .src1)) ∧ t.written = 64

/-- R340 to R343: a signature that verifies ends `OK` and writes nothing. -/
def Obligations.VerifyResults : Prop :=
  ∀ s : State, s.mem.wf = true → s.srcLen .src0 = 33 → s.srcLen .src1 = 32 →
    s.srcLen .src2 = 64 →
    (∀ x y, Ready s .ecSigVerifyEcdsa → parseCompressed (s.input .src0) = some (x, y) →
      ecdsaVerify (.affine x y) (s.input .src1) (s.input .src2) = true →
      ∃ t, exec .ecSigVerifyEcdsa s = .next t ∧ EndsOk s t [] ∧ t.mem = s.mem) ∧
    (Ready s .ecSigVerifySchnorr →
      schnorrVerify (s.input .src0) (s.input .src1) (s.input .src2) = true →
      ∃ t, exec .ecSigVerifySchnorr s = .next t ∧ EndsOk s t [] ∧ t.mem = s.mem)

/-- R315, R316, R350: `r` is unchanged, a high `s` becomes `n - s`. -/
def Obligations.NormalizeResult : Prop :=
  ∀ s : State, s.mem.wf = true → Ready s .ecSigNormalize → s.srcLen .src0 = 64 → s.dstLen = 64 →
    CanWrite s 64 →
    ∀ r v, r = beNat (slice (s.input .src0) 0 32) → v = beNat (slice (s.input .src0) 32 64) →
    1 ≤ r → r < curveOrder → 1 ≤ v → v < curveOrder →
    ∃ t, exec .ecSigNormalize s = .next t ∧
      EndsOk s t (beBytes 32 r ++ beBytes 32 (if curveOrder / 2 < v then curveOrder - v else v)) ∧
      t.written = 64

/-- R351, R352: the DER form, 8 to 72 bytes. -/
def Obligations.ToDerResult : Prop :=
  ∀ s : State, s.mem.wf = true → Ready s .ecSigToDer → s.srcLen .src0 = 64 → 72 ≤ s.dstLen →
    ∀ r v, r = beNat (slice (s.input .src0) 0 32) → v = beNat (slice (s.input .src0) 32 64) →
    1 ≤ r → r < curveOrder → 1 ≤ v → v < curveOrder → CanWrite s (sigToDer r v).length →
    ∃ t, exec .ecSigToDer s = .next t ∧ EndsOk s t (sigToDer r v) ∧
      8 ≤ t.written.toNat ∧ t.written.toNat ≤ 72

/-- R353, R354: strict DER whose scalars are in range gives the compact form. -/
def Obligations.FromDerResult : Prop :=
  ∀ (s : State) (r v : Nat), s.mem.wf = true → Ready s .ecSigFromDer → 8 ≤ s.srcLen .src0 →
    s.srcLen .src0 ≤ 72 → s.dstLen = 64 → CanWrite s 64 →
    derToSig (s.input .src0) = some (r, v) →
    1 ≤ r → r < curveOrder → 1 ≤ v → v < curveOrder →
    ∃ t, exec .ecSigFromDer s = .next t ∧ EndsOk s t (beBytes 32 r ++ beBytes 32 v) ∧
      t.written = 64

/-! ### Completion -/

/-- R51, R53, R410, R431: every command, legal or not, ends in one completion step: the block idle,
`DONE` set, the storage wiped, the operands, `CTRL`, `WERR` and `LASTCMD` as they were, and the
interrupt output at `CTRL.IE`. -/
def Obligations.EveryCommandCompletes : Prop :=
  (∀ (i : Instr) (s : State), ∃ t, exec i s = .next t ∧ Completed t ∧ Undisturbed s t) ∧
    ∀ (s : State) (w : Word), CompletionNext s w →
      ∃ t, step s = .next t ∧ Completed t ∧ Undisturbed (s.withInbox s.inbox.tail) t ∧
        t.busy = false ∧ t.irq = s.ie

/-- R91: a command that ends `OK` writes no byte outside the first `WRITTEN` bytes of DST, which lie
within DST; a command without a destination writes none. -/
def Obligations.WritesAreConfined : Prop :=
  ∀ (s t : State) (i : Instr), exec i s = .next t → t.result = .ok →
    (usesDest i = true → t.written.toNat ≤ s.dstLen) ∧ (usesDest i = false → t.mem = s.mem) ∧
      ∀ a, a < s.dest.base ∨ s.dest.base + t.written.toNat ≤ a → t.mem.read a = s.mem.read a

/-- R92: a completion with any class but `OK` and any cause but `BUS_ERROR_WRITE` leaves the data
memory as it was. -/
def Obligations.NoPartialOutput : Prop :=
  ∀ (s t : State) (w : Word), CompletionNext s w → step s = .next t → t.result ≠ .ok →
    t.cause ≠ .busErrorWrite → t.mem = s.mem

/-- R402, with the numbers of R400 and R401: the pairing of `RESULT`, `CAUSE` and `WRITTEN` at every
completion. -/
def Obligations.OutcomesPair : Prop :=
  ∀ (s t : State) (w : Word), CompletionNext s w → step s = .next t →
    (t.cause.code = 0x00 ↔ t.result.code = 0) ∧ (t.cause.code = 0x40 ↔ t.result.code = 2) ∧
      (t.result.code = 1 ↔ t.cause.code ∈ [0x01, 0x02, 0x03, 0x10, 0x11, 0x12, 0x13, 0x14, 0x15,
        0x16, 0x17, 0x18, 0x19, 0x20, 0x21, 0x22, 0x23, 0x24]) ∧
      (t.result.code = 3 ↔ t.cause.code ∈ [0x30, 0x31, 0x32, 0x33]) ∧
      (t.result ≠ .ok → t.written = 0)

/-- R420, R421: a command is refused with the first cause of V4 to V8 that applies, and with
`BUS_ERROR_READ` after them; where none applies it ends with none of those causes. -/
def Obligations.RefusalsComeInOrder : Prop :=
  ∀ (s : State) (i : Instr), s.engine.isRaced = false → ∃ t, exec i s = .next t ∧
    match s.earlyRefusal i with
    | some c => EndsWith s t c
    | none => t.cause ∈ [Cause.none, Cause.busErrorRead, Cause.badPrivkey, Cause.badPubkey,
        Cause.badSigScalar, Cause.badDer, Cause.badPadding, Cause.signFailed, Cause.verify,
        Cause.busErrorWrite]

/-- R93, R422: an unreadable byte of a used source, where no length, parameter or region rule refused
the command, is reported before any content. -/
def Obligations.UnreadableSourceIsReported : Prop :=
  ∀ (s : State) (i : Instr), s.engine.isRaced = false → s.earlyRefusal i = none →
    UnreadableSource s i → ∃ t, exec i s = .next t ∧ EndsWith s t .busErrorRead

/-- R94: where a command would end `OK` with `WRITTEN = n` if every address were writable, and some
byte of the first `n` of DST is not, it ends with `BUS_ERROR_WRITE`, and only writable bytes of that
range may have changed. -/
def Obligations.UnwritableOutputIsReported : Prop :=
  ∀ (s t : State) (i : Instr), s.engine.isRaced = false →
    exec i { s with platform := { s.platform with writeMap := [⟨0, 2 ^ 32⟩] } } = .next t →
    t.result = .ok → ¬CanWrite s t.written.toNat →
    ∃ u, exec i s = .next u ∧ u.result = .internal ∧ u.cause = .busErrorWrite ∧ u.written = 0 ∧
      Completed u ∧ Undisturbed s u ∧
      ∀ a, a < s.dest.base ∨ s.dest.base + t.written.toNat ≤ a ∨ writable s.platform a = false →
        u.mem.read a = s.mem.read a

/-- R313, R314, R320 to R322, R332 to R334: a private key outside `[1, n - 1]` is `BAD_PRIVKEY` for
each command that takes one, a public key that does not parse is `BAD_PUBKEY`. -/
def Obligations.BadKeysAreRefused : Prop :=
  ∀ s : State,
    (s.srcLen .src0 = 32 → beNat (s.input .src0) = 0 ∨ curveOrder ≤ beNat (s.input .src0) →
      (Ready s .ecPrivVerify →
        ∃ t, exec .ecPrivVerify s = .next t ∧ EndsWith s t .badPrivkey) ∧
      (Ready s .ecPubFromPriv → s.dstLen = 33 →
        ∃ t, exec .ecPubFromPriv s = .next t ∧ EndsWith s t .badPrivkey) ∧
      (Ready s .ecSignEcdsa → s.srcLen .src1 = 32 → s.dstLen = 64 →
        ∃ t, exec .ecSignEcdsa s = .next t ∧ EndsWith s t .badPrivkey) ∧
      (Ready s .ecSignSchnorr → s.srcLen .src1 = 32 → s.dstLen = 64 →
        ∃ t, exec .ecSignSchnorr s = .next t ∧ EndsWith s t .badPrivkey)) ∧
    (s.srcLen .src0 = 33 → Ready s .ecPubDecompress → s.dstLen = 65 →
      parseCompressed (s.input .src0) = none →
      ∃ t, exec .ecPubDecompress s = .next t ∧ EndsWith s t .badPubkey)

/-- R272, R331, R333, R350, R352, R354: an `r` or `s` outside `[1, n - 1]`, DER that is not strict,
and invalid padding, each with its cause and nothing written; and `SIGN_FAILED` exactly where the
nonce search reaches its bound, which an unbounded one never does (log 9). -/
def Obligations.BadContentIsRefused : Prop :=
  ∀ s : State,
    (s.srcLen .src0 = 64 → scalarsOk (s.input .src0) = false →
      (Ready s .ecSigNormalize → s.dstLen = 64 →
        ∃ t, exec .ecSigNormalize s = .next t ∧ EndsWith s t .badSigScalar) ∧
      (Ready s .ecSigToDer → 72 ≤ s.dstLen →
        ∃ t, exec .ecSigToDer s = .next t ∧ EndsWith s t .badSigScalar)) ∧
    (Ready s .ecSigFromDer → 8 ≤ s.srcLen .src0 → s.srcLen .src0 ≤ 72 → s.dstLen = 64 →
      (derToSig (s.input .src0) = none →
        ∃ t, exec .ecSigFromDer s = .next t ∧ EndsWith s t .badDer) ∧
      (∀ r v, derToSig (s.input .src0) = some (r, v) →
        ¬(1 ≤ r ∧ r < curveOrder ∧ 1 ≤ v ∧ v < curveOrder) →
        ∃ t, exec .ecSigFromDer s = .next t ∧ EndsWith s t .badSigScalar)) ∧
    (Ready s .aesCbcDecrypt → s.srcLen .src0 ∈ [16, 24, 32] → s.srcLen .src1 = 16 →
      s.srcLen .src2 ≠ 0 → s.srcLen .src2 % 16 = 0 → s.srcLen .src2 - 1 ≤ s.dstLen →
      cbcDecrypt (s.input .src0) (s.input .src1) (s.input .src2) = none →
      ∃ t, exec .aesCbcDecrypt s = .next t ∧ EndsWith s t .badPadding) ∧
    (Ready s .ecSignEcdsa → s.srcLen .src0 = 32 → s.srcLen .src1 = 32 → s.dstLen = 64 →
      1 ≤ beNat (s.input .src0) → beNat (s.input .src0) < curveOrder →
      ∃ t, exec .ecSignEcdsa s = .next t ∧
        (t.cause = .signFailed ↔
          ecdsaSign s.platform.nonceTriesMax (beNat (s.input .src0)) (s.input .src1) = none) ∧
        (t.cause = .signFailed → EndsWith s t .signFailed ∧ s.platform.nonceTriesMax ≠ none))

/-- R340 to R343, R388: a verification ends `OK` or fails. It fails, with `VERIFY_FAIL`, cause `VERIFY`
and nothing written, where the public key does not parse, a scalar is out of range, `s` is high, the
equation of R340 does not hold, or the Schnorr scheme refuses (its verdict is R360's OPEN parameter,
log 5). Two failed verifications, whatever was wrong, leave the same outcome registers. -/
def Obligations.FailedVerificationsAreAlike : Prop :=
  (∀ s : State, s.srcLen .src0 = 33 → s.srcLen .src1 = 32 → s.srcLen .src2 = 64 →
    (∀ i ∈ [Instr.ecSigVerifyEcdsa, Instr.ecSigVerifySchnorr], Ready s i →
      ∃ t, exec i s = .next t ∧ (EndsOk s t [] ∨ EndsWith s t .verify) ∧
        (parseCompressed (s.input .src0) = none → EndsWith s t .verify)) ∧
    (Ready s .ecSigVerifySchnorr → ∃ t, exec .ecSigVerifySchnorr s = .next t ∧
      (EndsWith s t .verify ↔
        schnorrVerify (s.input .src0) (s.input .src1) (s.input .src2) = false)) ∧
    ∀ r v, r = beNat (slice (s.input .src2) 0 32) → v = beNat (slice (s.input .src2) 32 64) →
      Ready s .ecSigVerifyEcdsa →
      ∃ t, exec .ecSigVerifyEcdsa s = .next t ∧
        (r = 0 ∨ curveOrder ≤ r ∨ v = 0 ∨ curveOrder ≤ v ∨ curveOrder / 2 < v →
          EndsWith s t .verify) ∧
        ∀ x y, parseCompressed (s.input .src0) = some (x, y) →
          (ecdsaVerify (.affine x y) (s.input .src1) (s.input .src2) = false →
            EndsWith s t .verify) ∧
          let w := invMod curveOrder v
          let point :=
            addPoints (mulPoint (beNat (s.input .src1) % curveOrder * w % curveOrder) basePoint)
              (mulPoint (r * w % curveOrder) (.affine x y))
          (point = .infinity ∨ point.xCoord % curveOrder ≠ r → EndsWith s t .verify)) ∧
  ∀ s s' : State, ∀ i ∈ [Instr.ecSigVerifyEcdsa, Instr.ecSigVerifySchnorr],
    ∀ t t', exec i s = .next t → exec i s' = .next t' → t.result = .verifyFail →
      t'.result = .verifyFail →
      t.statusWord &&& 0xFFF3 = t'.statusWord &&& 0xFFF3 ∧ t.written = t'.written ∧
        t.mem = s.mem ∧ t'.mem = s'.mem

/-- R58, R59, R117, R425: the outcome of a command, and the bytes it writes, depend on nothing but its
word, its used operands, the bytes of its used sources and the platform. -/
def Obligations.OutcomeDependsOnInputsOnly : Prop :=
  ∀ (s s' t t' : State) (i : Instr), s.mem.wf = true → s'.mem.wf = true → SameInputs s s' i →
    exec i s = .next t → exec i s' = .next t' →
    t.result = t'.result ∧ t.cause = t'.cause ∧ t.written = t'.written ∧
      (t.result = .ok → ∀ k < t.written.toNat,
        t.mem.read (s.dest.base + k) = t'.mem.read (s.dest.base + k))

/-- R97, R402, R460 and U1: a command whose buffers the host touched still completes, with a cause of
its own row of R401 and its pairing, and writes no byte outside DST. That it may be any of those
causes is the model's reading of U1 (log 7). -/
def Obligations.RacedCommandStaysInDestination : Prop :=
  ∀ (s : State) (i : Instr), s.engine.isRaced = true →
    ∃ t, exec i s = .next t ∧ Completed t ∧ Paired t ∧ Undisturbed s t ∧
      t.cause ∈ legalCauses i ∧ (usesDest i = false → t.mem = s.mem) ∧
      ∀ a, a < s.dest.base ∨ s.dest.base + s.dest.size ≤ a → t.mem.read a = s.mem.read a

/-- R80, R96, R97, R460: the host's store puts its bytes into data memory, its load gives the memory's
bytes, and neither changes a register or another byte; but a load gives any values in an owned
destination (and at a device's addresses), and an access that touches the buffers of a completed
command the host has not observed leaves any values in that command's output. A completion adds its
command to those. How the race stands in the state, the mark `raced` and the list `unobserved`, is the
model's own DESIGN CHOICE (log 7): no rule gives either. -/
def Obligations.HostStoreRacesWhereItTouches : Prop :=
  ∀ (s : State) (addr : Word) (rest : List Event),
    (∀ b : Bytes, s.mem.wf = true → s.inbox = .memStore addr b :: rest →
      addr.toNat + b.length ≤ 2 ^ 32 →
      let touches := fun (q : State) (i : Instr) => Touches q i addr.toNat b.length
      ∃ t, step s = .next t ∧ HostAccess s t touches ∧
        (∀ k < b.length, ¬RacedOutput s touches (addr.toNat + k) →
          t.mem.read (addr.toNat + k) = b.getD k 0) ∧
        ∀ a, a < addr.toNat ∨ addr.toNat + b.length ≤ a → ¬RacedOutput s touches a →
          t.mem.read a = s.mem.read a) ∧
    (∀ n, s.inbox = .memLoad addr n :: rest → addr.toNat + n ≤ 2 ^ 32 →
      let touches := fun (q : State) (i : Instr) => TouchesDest q i addr.toNat n
      ∃ t b, step s = .next t ∧ HostAccess s t touches ∧ t.response = .bytes b ∧ b.length = n ∧
        (∀ k < n, ¬InOwnedDest s (addr.toNat + k) →
          isDevice s.platform (addr.toNat + k) = false →
          b.getD k 0 = s.mem.read (addr.toNat + k)) ∧
        ∀ a, ¬RacedOutput s touches a → t.mem.read a = s.mem.read a) ∧
    ∀ w t, CompletionNext s w → step s = .next t →
      t.unobserved = ⟨w, s.operands, t.written⟩ :: s.unobserved

/-! ### Algorithms -/

/-- R260 to R262: `SBOX` is the affine map of the inverse in GF(2^8), with 0 for 0, and `INV_SBOX`
undoes it. -/
def Obligations.SboxFollowsItsDefinition : Prop :=
  ∀ a : Byte, invSubByte (subByte a) = a ∧
    ∃ b : Byte, (a = 0 ∧ b = 0 ∨ gfProduct a b = 1) ∧
      subByte a = b ^^^ b.rotateLeft 1 ^^^ b.rotateLeft 2 ^^^ b.rotateLeft 3 ^^^
        b.rotateLeft 4 ^^^ 0x63

/-- R264: the key schedule's recurrence, word by word. -/
def Obligations.AesKeyScheduleFollowsItsRecurrence : Prop :=
  ∀ key : Bytes, key.length ∈ [16, 24, 32] →
    let nk := key.length / 4
    let w := fun i => (keyWords key).getD i []
    (keyWords key).length = 4 * (nk + 6 + 1) ∧
      (∀ i < nk, w i = slice key (4 * i) (4 * i + 4)) ∧
      ∀ i, nk ≤ i → i < 4 * (nk + 6 + 1) → w i = xorBytes (w (i - nk))
        (if i % nk = 0 then
          xorBytes (((w (i - 1)).drop 1 ++ (w (i - 1)).take 1).map subByte)
            [rcon.getD (i / nk) 0, 0, 0, 0]
        else if nk = 8 ∧ i % nk = 4 then (w (i - 1)).map subByte
        else w (i - 1))

/-- R265: `AES_Dec(K, AES_Enc(K, b)) = b` for every key and block. -/
def Obligations.AesDecryptionInverts : Prop :=
  ∀ key block : Bytes, key.length ∈ [16, 24, 32] → block.length = 16 →
    aesDec key (aesEnc key block) = block ∧ (aesEnc key block).length = 16

/-- R284: both modes give back the data; CBC with PKCS#7 for data of any length. -/
def Obligations.ModesRoundTrip : Prop :=
  ∀ key iv d : Bytes, key.length ∈ [16, 24, 32] → iv.length = 16 →
    (d.length % 16 = 0 → ecbDecrypt key (ecbEncrypt key d) = d) ∧
      cbcDecrypt key iv (cbcEncrypt key iv d) = some d

/-- R351, R353, R355: the DER form of every pair parses back to it and has 8 to 72 bytes, and the
parser accepts no other form of a pair of positive numbers. -/
def Obligations.DerIsStrict : Prop :=
  (∀ r s, 1 ≤ r → r < 2 ^ 256 → 1 ≤ s → s < 2 ^ 256 → derToSig (sigToDer r s) = some (r, s) ∧
    8 ≤ (sigToDer r s).length ∧ (sigToDer r s).length ≤ 72) ∧
  ∀ d r s, derToSig d = some (r, s) → r < 2 ^ 256 ∧ s < 2 ^ 256 ∧
    (1 ≤ r → 1 ≤ s → d = sigToDer r s)

/-- R316, R350, R355: a normalised signature has the same `r` and a low `s`, is in range, and is its
own normal form. -/
def Obligations.NormalizationIsIdempotent : Prop :=
  halfOrder = 0x7FFFFFFFFFFFFFFFFFFFFFFFFFFFFFFF5D576E7357A4501DDFE92F46681B20A0 ∧
  ∀ sig : Bytes, sig.length = 64 → scalarsOk sig = true →
    let norm := compactSig (sigR sig) (lowS (sigS sig))
    scalarsOk norm = true ∧ sigR norm = sigR sig ∧ sigS norm ≤ halfOrder ∧
      compactSig (sigR norm) (lowS (sigS norm)) = norm ∧
      (sigS sig ≤ halfOrder → norm = sig)

/-- R331, R333, R355: an ECDSA signature is in range with a low `s`, so that normalisation leaves it
unchanged. The free signature of an unbounded search that never ends is one too (log 9). -/
def Obligations.EcdsaSignaturesAreLow : Prop :=
  ∀ (triesMax : Option Nat) (d : Nat) (hash sig : Bytes), ecdsaSign triesMax d hash = some sig →
    sig.length = 64 ∧ scalarsOk sig = true ∧ sigS sig ≤ halfOrder ∧
      compactSig (sigR sig) (lowS (sigS sig)) = sig

/-- R360, by the model's choice of the parameter's shape (log 5): signatures are 64 bytes, a public
key that does not parse verifies nothing, and where the key that `EC_PUB_FROM_PRIV` gives parses, the
scheme's own signature verifies under it. -/
def Obligations.SchnorrParameterProperties : Prop :=
  (∀ key hash : Bytes, (schnorrSign key hash).length = 64) ∧
    (∀ pub hash sig : Bytes, parseCompressed pub = none → schnorrVerify pub hash sig = false) ∧
    ∀ key hash : Bytes,
      parseCompressed (compressPoint (mulPoint (beNat key) basePoint)) ≠ none →
      schnorrVerify (compressPoint (mulPoint (beNat key) basePoint)) hash (schnorrSign key hash) =
        true

/-- R311, R313: what parses is a point of the curve, both coordinates below `p` and `y` never 0, whose
`x` and parity of `y` the string names; of the coordinates 0 to 7, exactly 1, 2, 3, 4 and 6 are on the curve. -/
def Obligations.ParsedKeysArePoints : Prop :=
  (∀ (b : Bytes) (x y : Nat), b.length = 33 → parseCompressed b = some (x, y) →
    ((b.getD 0 0).toNat = 0x02 ∨ (b.getD 0 0).toNat = 0x03) ∧ x = beNat (b.drop 1) ∧
      x < fieldPrime ∧ 0 < y ∧ y < fieldPrime ∧
      y * y % fieldPrime = (x * x * x + 7) % fieldPrime ∧
      y % 2 = (b.getD 0 0).toNat % 2) ∧
  ∀ x < 8, (parseCompressed (0x02 :: beBytes 32 x)).isSome = true ↔ x ∈ [1, 2, 3, 4, 6]

/-- R9, R313: `powMod` is the power it stands for, so that the square root candidate is
`c^((p + 1) / 4) mod p`. -/
def Obligations.PowersAreModular : Prop :=
  ∀ m b e : Nat, 0 < m → powMod m b e = b ^ e % m

/-- R311: small multiples of the base point are repeated sums, each on the curve; `n G = O`. -/
def Obligations.MultiplesOfTheBasePoint : Prop :=
  mulPoint 0 basePoint = .infinity ∧
    (∀ k < 8, mulPoint (k + 1) basePoint = addPoints (mulPoint k basePoint) basePoint ∧
      onCurve (mulPoint (k + 1) basePoint).xCoord (mulPoint (k + 1) basePoint).yCoord = true) ∧
    mulPoint curveOrder basePoint = .infinity

/-- R210, R235: an output is a prefix of every longer one for the same inputs. -/
def Obligations.KdfOutputsArePrefixes : Prop :=
  ∀ (pass salt : Bytes) (c r p m n : Nat), m ≤ n →
    (pbkdf2Sha256 pass salt c n).take m = pbkdf2Sha256 pass salt c m ∧
      (pbkdf2Sha512 pass salt c n).take m = pbkdf2Sha512 pass salt c m ∧
      (scrypt pass salt c r p n).take m = scrypt pass salt c r p m

/-- R143, R163: the padding with the least number of zeros, and the number of blocks. -/
def Obligations.ShaPaddingRule : Prop :=
  ∀ m : Bytes,
    (∃ k < 64, (m.length + 1 + k) % 64 = 56 ∧
      sha256Core.pad m =
        m ++ [0x80] ++ List.replicate k 0x00 ++ beBytes 8 (8 * m.length)) ∧
    (sha256Core.pad m).length = 64 * ((m.length + 8) / 64 + 1) ∧
    (∃ k < 128, (m.length + 1 + k) % 128 = 112 ∧
      sha512Core.pad m =
        m ++ [0x80] ++ List.replicate k 0x00 ++ beBytes 16 (8 * m.length)) ∧
    (sha512Core.pad m).length = 128 * ((m.length + 16) / 128 + 1)

/-- R144, R164: the message schedule of a block, word by word. -/
def Obligations.ShaScheduleFollowsItsRecurrence : Prop :=
  (∀ block : Bytes, block.length = 64 →
    let w := fun t => (sha256Core.schedule block).getD t 0
    (sha256Core.schedule block).length = 64 ∧
      (∀ t < 16, w t = BitVec.ofNat 32 (beNat (slice block (4 * t) (4 * t + 4)))) ∧
      ∀ t, 16 ≤ t → t < 64 → w t =
        ((w (t - 2)).rotateRight 17 ^^^ (w (t - 2)).rotateRight 19 ^^^ (w (t - 2) >>> 10)) +
          w (t - 7) +
          ((w (t - 15)).rotateRight 7 ^^^ (w (t - 15)).rotateRight 18 ^^^ (w (t - 15) >>> 3)) +
          w (t - 16)) ∧
  ∀ block : Bytes, block.length = 128 →
    let w := fun t => (sha512Core.schedule block).getD t 0
    (sha512Core.schedule block).length = 80 ∧
      (∀ t < 16, w t = BitVec.ofNat 64 (beNat (slice block (8 * t) (8 * t + 8)))) ∧
      ∀ t, 16 ≤ t → t < 80 → w t =
        ((w (t - 2)).rotateRight 19 ^^^ (w (t - 2)).rotateRight 61 ^^^ (w (t - 2) >>> 6)) +
          w (t - 7) +
          ((w (t - 15)).rotateRight 1 ^^^ (w (t - 15)).rotateRight 8 ^^^ (w (t - 15) >>> 7)) +
          w (t - 16)

/-! ### The host's side -/

/-- R30, R44, R45, R49: an aligned write of four lanes to `BASE + off` performs `HostWrite` of the word
on its little-endian lanes; an aligned read gives the lanes of `HostRead` and changes nothing but the
bus's answer. R96, R97: a read of `STATUS` that gives `DONE = 1` or `BUSY = 0` is the host's
observation of every earlier completion (the list of those not observed is the model's, log 7). R452, U6: while reset is asserted a write changes nothing but that answer, and a read
gives four lanes of which nothing is said. The answer `ack` is the model's (log 13). -/
def Obligations.AlignedAccessReachesTheRegister : Prop :=
  ∀ (s : State) (off : Nat) (v : Word) (rest : List Event), off < 256 → off % 4 = 0 →
    (s.inbox = .busWrite (s.platform.base + BitVec.ofNat 32 off) 1
        [v.extractLsb' 0 8, v.extractLsb' 8 8, v.extractLsb' 16 8, v.extractLsb' 24 8] :: rest →
      (s.resetAsserted = false →
        step s = .next (((s.withInbox rest).hostWrite off v).respond .ack)) ∧
      (s.resetAsserted = true → ∃ answer, step s = .next ((s.withInbox rest).respond answer))) ∧
    (s.inbox = .busRead (s.platform.base + BitVec.ofNat 32 off) 1 4 :: rest →
      (s.resetAsserted = false →
        step s = .next { (s.withInbox rest).respond (.data
          [(s.hostRead off).extractLsb' 0 8, (s.hostRead off).extractLsb' 8 8,
            (s.hostRead off).extractLsb' 16 8, (s.hostRead off).extractLsb' 24 8]) with
          unobserved := if off = 0x08 ∧ (s.done = true ∨ s.busy = false) then []
            else s.unobserved }) ∧
      (s.resetAsserted = true → ∃ lanes draws, lanes.length = 4 ∧
        step s = .next { (s.withInbox rest).respond (.data lanes) with draws := draws }))

/-- R47, R404: any other access to the block's addresses gets a bus error response and changes no
state of the block. That it gets that response while reset is asserted too is the model's DESIGN CHOICE
(log 13): R452 says only that such an access has no effect. -/
def Obligations.MalformedAccessIsABusError : Prop :=
  ∀ (s : State) (addr : Word) (off beats width : Nat) (lanes : Bytes) (rest : List Event),
    s.selected addr = some off →
    (¬(beats = 1 ∧ lanes.length = 4 ∧ off % 4 = 0) → s.inbox = .busWrite addr beats lanes :: rest →
      step s = .next ((s.withInbox rest).respond .busError)) ∧
    (¬(beats = 1 ∧ width = 4 ∧ off % 4 = 0) → s.inbox = .busRead addr beats width :: rest →
      step s = .next ((s.withInbox rest).respond .busError))

/-- R46: reserved offsets read as zero, ignore writes and never set `WERR`. -/
def Obligations.ReservedOffsetsReadZero : Prop :=
  ∀ (s : State) (off : Nat) (v : Word), 0x44 ≤ off → off ≤ 0xFC → off % 4 = 0 →
    s.hostRead off = 0 ∧ s.hostWrite off v = s ∧ (s.hostWrite off v).werr = s.werr

/-- R39, R40, R41: each operand register reads back as written, at the offsets of the map, and a write
changes no other of them. -/
def Obligations.OperandRegistersReadBack : Prop :=
  ∀ (s : State) (off other : Nat) (v : Word), s.busy = false →
    off ∈ [0x10, 0x14, 0x18, 0x1C, 0x20, 0x24, 0x28, 0x2C, 0x30, 0x34, 0x38] →
    (s.hostWrite off v).hostRead off = v ∧
      (other ≠ off → (s.hostWrite off v).hostRead other = s.hostRead other) ∧
      (s.hostWrite off v).mem = s.mem ∧ (s.hostWrite off v).engine = s.engine

/-- R50: `Issue(w)` in `IDLE`, by a write of `CMD`, for every word. -/
def Obligations.IssueLatchesTheWord : Prop :=
  ∀ (s : State) (w : Word), s.busy = false →
    let t := s.hostWrite 0x04 w
    t.lastcmd = w ∧ t.written = 0 ∧ t.busy = true ∧ t.done = false ∧ t.result = .ok ∧
      t.cause = .none ∧ t.werr = s.werr ∧ t.engine = .busy w false ∧ t.operands = s.operands ∧
      t.ie = s.ie ∧ t.mem = s.mem

/-- R34: what sets `DONE`, what clears it, that clearing it changes no other field, and that the
outcome registers keep their values until the next issue, its completion or a reset. -/
def Obligations.DoneIsSetOnlyByCompletion : Prop :=
  ∀ s t : State, step s = .next t →
    (s.done = false → t.done = true → ∃ w, CompletionNext s w ∧ t.engine = .idle) ∧
    (s.done = true → t.done = false →
      (∃ v, WriteNext s 0x08 v ∧ v.getLsbD 1 = true) ∨
        (∃ w, WriteNext s 0x04 w ∧ t.engine = .busy w false) ∨ ResetNext s) ∧
    (∀ v, WriteNext s 0x08 v → v.getLsbD 1 = true →
      t.done = false ∧ t.result = s.result ∧ t.cause = s.cause ∧ t.written = s.written ∧
        t.engine = s.engine ∧ t.ie = s.ie ∧ t.operands = s.operands ∧ t.lastcmd = s.lastcmd ∧
        t.mem = s.mem ∧ (v.getLsbD 2 = false → t.werr = s.werr)) ∧
    (∀ w, WriteNext s 0x04 w → s.busy = false → t.done = false) ∧
    (ResetNext s → t.done = false) ∧
    (t.result ≠ s.result ∨ t.cause ≠ s.cause ∨ t.written ≠ s.written →
      (∃ w, CompletionNext s w) ∨ (s.busy = false ∧ ∃ w, WriteNext s 0x04 w) ∨ ResetNext s)

/-- R35, R44: what sets `WERR`, what clears it, and that it never changes the outcome of a command. -/
def Obligations.WriteErrorIsSticky : Prop :=
  (∀ (s t : State) (i : Instr) (e : Bool), exec i s = .next t →
    exec i { s with werr := e } = .next { t with werr := e }) ∧
  ∀ s t : State, step s = .next t →
    (s.werr = false → t.werr = true → s.busy = true ∧
      ∃ off v, WriteNext s off v ∧ (off = 0x04 ∨ 0x10 ≤ off ∧ off ≤ 0x38)) ∧
    (∀ off v, WriteNext s off v → s.busy = true → (off = 0x04 ∨ 0x10 ≤ off ∧ off ≤ 0x38) →
      t.werr = true ∧ t.engine = s.engine ∧ t.operands = s.operands ∧ t.lastcmd = s.lastcmd) ∧
    (s.werr = true → t.werr = false → (∃ v, WriteNext s 0x08 v ∧ v.getLsbD 2 = true) ∨
      ResetNext s) ∧
    (∀ v, WriteNext s 0x08 v → v.getLsbD 2 = true → t.werr = false)

/-- R38, R43, R44, R53, R54, R58: what changes the operand registers, `LASTCMD`, `CTRL.IE` and the
outcome registers, in any step. -/
def Obligations.RegistersChangeOnlyByRule : Prop :=
  ∀ s t : State, step s = .next t → ¬ResetNext s →
    (s.busy = true → t.operands = s.operands) ∧
    (t.operands ≠ s.operands → ∃ off v, WriteNext s off v ∧ 0x10 ≤ off ∧ off ≤ 0x38) ∧
    (t.lastcmd ≠ s.lastcmd → s.busy = false ∧ WriteNext s 0x04 t.lastcmd) ∧
    (t.ie ≠ s.ie → ∃ v, WriteNext s 0x0C v ∧ t.ie = v.getLsbD 0) ∧
    (t.result ≠ s.result ∨ t.cause ≠ s.cause ∨ t.written ≠ s.written →
      (∃ w, CompletionNext s w) ∨ s.busy = false ∧ ∃ w, WriteNext s 0x04 w)

/-- R31, R32, R38, R42 to R45: in every state, what `ID`, `CMD`, `CTRL`, `WRITTEN` and `LASTCMD` read,
that a write of `CTRL` sets `IE` to its bit 0 and changes nothing else, idle or busy, and that a write
of a read-only register changes nothing. R33, R48, R430: the fields of `STATUS` as the host reads them,
and the interrupt output, in a state of the block's invariant. -/
def Obligations.StatusFieldsAndInterrupt : Prop :=
  (∀ (s : State) (v : Word),
    s.hostRead 0x00 = 0x4C570107 ∧ s.hostRead 0x04 = 0 ∧
      s.hostRead 0x0C = (if s.ie then 1 else 0) ∧ s.hostRead 0x3C = s.written ∧
      s.hostRead 0x40 = s.lastcmd ∧
      s.hostWrite 0x0C v = { s with ie := v.getLsbD 0 } ∧
      ∀ off ∈ [0x00, 0x3C, 0x40], s.hostWrite off v = s) ∧
  ∀ s : State, s.Inv →
    let v := (s.hostRead 0x08).toNat
    v % 2 = s.busy.toNat ∧ v / 2 % 2 = s.done.toNat ∧ v / 4 % 2 = s.werr.toNat ∧
      v / 8 % 2 = 0 ∧ v / 16 % 16 = s.result.code ∧ v / 256 % 256 = s.cause.code ∧
      v / 65536 = 0 ∧ ¬(v % 2 = 1 ∧ v / 2 % 2 = 1) ∧
      (s.irq = true ↔ (s.hostRead 0x0C).toNat % 2 = 1 ∧ v / 2 % 2 = 1)

/-- R62: what every register reads, the interrupt output, the engine and the storage after reset; the
data memory is not changed by resetting an idle block. -/
def Obligations.ResetValues : Prop :=
  ∀ (s : State) (powerOn : Bool),
    let t := s.assertReset powerOn
    t.hostRead 0x00 = 0x4C570107 ∧ (∀ off, off ≠ 0x00 → t.hostRead off = 0) ∧ t.irq = false ∧
      t.engine = .idle ∧ t.workStore = .wiped ∧ (powerOn = true → t.scryptStore = .unspecified) ∧
      (powerOn = false → s.scryptStore ≠ .unspecified → t.scryptStore = .wiped) ∧
      (s.busy = false → t.mem = s.mem) ∧
      State.reset.hostRead 0x00 = 0x4C570107 ∧ ∀ off, off ≠ 0x00 → State.reset.hostRead off = 0

/-- R451: a command running when reset comes is abandoned without a completion; no byte outside its
output range within DST, and no byte of a used source, is written. -/
def Obligations.ResetAbandonsTheCommand : Prop :=
  ∀ (s : State) (powerOn : Bool) (w : Word) (raced : Bool) (rest : List Event),
    s.engine = .busy w raced → s.inbox = .resetAssert powerOn :: rest →
    ∃ t, step s = .next t ∧ t.engine = .idle ∧ t.done = false ∧ t.irq = false ∧
      t.result = .ok ∧ t.cause = .none ∧ t.written = 0 ∧ t.lastcmd = 0 ∧
      (∀ e, decode w = .error e → t.mem = s.mem) ∧
      ∀ i, decode w = .ok i →
        (usesDest i = false → t.mem = s.mem) ∧
        (∀ a, a < s.dest.base ∨ s.dest.base + s.dest.size ≤ a ∨
          s.dest.base + (s.outputRange i).2 ≤ a → t.mem.read a = s.mem.read a) ∧
        ∀ k ∈ usedSources i, ∀ a, (s.source k).base ≤ a →
          a < (s.source k).base + (s.source k).size → t.mem.read a = s.mem.read a

/-! ### The invariant -/

/-- R62: the block's invariant holds after reset. The reset values the spec leaves to the platform
(logs 3 and 4) play no part but that the memory lists nothing. -/
def Obligations.ResetMeetsTheInvariant : Prop := State.reset.Inv

/-- R33, R36, R37, R42, R43, R60, R402, R450: every step of the machine keeps the block's
invariant. -/
def Obligations.EveryStepKeepsTheInvariant : Prop :=
  ∀ s t : State, s.Inv → step s = .next t → t.Inv
end

