-- ==== Sys2Proof/Laws/Lengths.lean ====
section
/-! SUPPORT. Byte strings: how long each operation's result is, and how a string is cut into blocks
(00_scope.md R5, R10). -/

namespace Sys2Proof.Machine

/-! ### Integers as byte strings -/

@[simp] theorem leBytes_length (n x : Nat) : (leBytes n x).length = n := by
  induction n generalizing x with
  | zero => rfl
  | succ n ih => simp [leBytes, ih]

@[simp] theorem beBytes_length (n x : Nat) : (beBytes n x).length = n := by
  simp [beBytes]

@[simp] theorem xorBytes_length (a b : Bytes) :
    (xorBytes a b).length = min a.length b.length := by
  simp [xorBytes]

@[simp] theorem compactSig_length (r s : Nat) : (compactSig r s).length = 64 := by
  simp [compactSig]

@[simp] theorem compressPoint_length (q : Point) : (compressPoint q).length = 33 := by
  simp [compressPoint]

@[simp] theorem uncompressed_length (x y : Nat) : (uncompressed x y).length = 65 := by
  simp [uncompressed]

@[simp] theorem schnorrSign_length (k h : Bytes) : (schnorrSign k h).length = 64 := by
  simp [schnorrSign]

/-- The little-endian integer of the low bytes of a number. -/
theorem leNat_leBytes (n x : Nat) : leNat (leBytes n x) = x % 256 ^ n := by
  induction n generalizing x with
  | zero => simp [leBytes, leNat, Nat.mod_one]
  | succ n ih =>
    simp only [leBytes, leNat, ih, BitVec.toNat_ofNat]
    rw [show 256 ^ (n + 1) = 256 * 256 ^ n by rw [Nat.pow_succ, Nat.mul_comm], Nat.mod_mul]

/-- The bytes of the integer of a byte string. -/
theorem leBytes_leNat (b : Bytes) : leBytes b.length (leNat b) = b := by
  induction b with
  | nil => rfl
  | cons x t ih =>
    have hx := x.isLt
    simp only [List.length_cons, leBytes, leNat]
    rw [show (x.toNat + 256 * leNat t) / 256 = leNat t by omega, ih]
    congr 1
    apply BitVec.eq_of_toNat_eq
    simp only [BitVec.toNat_ofNat]
    omega

theorem leNat_lt (b : Bytes) : leNat b < 256 ^ b.length := by
  induction b with
  | nil => simp [leNat]
  | cons x t ih =>
    have hx := x.isLt
    simp only [List.length_cons, leNat, Nat.pow_succ]
    omega

theorem beNat_beBytes (n x : Nat) : beNat (beBytes n x) = x % 256 ^ n := by
  simp [beNat, beBytes, leNat_leBytes]

theorem beBytes_beNat (b : Bytes) : beBytes b.length (beNat b) = b := by
  have := leBytes_leNat b.reverse
  rw [List.length_reverse] at this
  simp [beBytes, beNat, this]

theorem beNat_lt (b : Bytes) : beNat b < 256 ^ b.length := by
  simpa [beNat] using leNat_lt b.reverse

/-! ### Blocks -/

@[simp] theorem chunks_nil {α : Type} (n : Nat) : chunks n ([] : List α) = [] := rfl

/-- More fuel than items changes nothing. -/
theorem chunks_cut_fuel {α : Type} {n : Nat} (hn : 0 < n) (l : List α) (f : Nat)
    (hf : l.length ≤ f) : chunks.cut n f l = chunks.cut n l.length l := by
  induction f using Nat.strongRecOn generalizing l with
  | ind f ih =>
    cases l with
    | nil => cases f <;> rfl
    | cons a t =>
      cases f with
      | zero => simp at hf
      | succ f =>
        simp only [List.length_cons] at hf
        simp only [List.length_cons, chunks.cut]
        congr 1
        have hd : ((a :: t).drop n).length ≤ t.length := by
          simp only [List.length_drop, List.length_cons]
          omega
        by_cases he : t.length = f
        · rw [he]
        · rw [ih f (by omega) _ (by omega), ih t.length (by omega) _ hd]

/-- The first block, and the blocks of the rest. -/
theorem chunks_cons {α : Type} {n : Nat} (hn : 0 < n) {l : List α} (hl : l ≠ []) :
    chunks n l = l.take n :: chunks n (l.drop n) := by
  cases l with
  | nil => exact absurd rfl hl
  | cons a t =>
    simp only [chunks, List.length_cons, chunks.cut]
    congr 1
    apply chunks_cut_fuel hn
    simp only [List.length_drop, List.length_cons]
    omega

/-- The blocks of a whole first block and a rest. -/
theorem chunks_append {α : Type} {n : Nat} (hn : 0 < n) {a b : List α} (ha : a.length = n) :
    chunks n (a ++ b) = a :: chunks n b := by
  have : a ++ b ≠ [] := by
    intro h
    simp at h
    simp [h.1] at ha
    omega
  rw [chunks_cons hn this]
  simp [← ha]

/-- A string of whole blocks is cut into blocks of that length. -/
theorem chunks_length_of_mem {α : Type} {n : Nat} (hn : 0 < n) (k : Nat) {l : List α}
    (hl : l.length = n * k) : (chunks n l).length = k ∧ ∀ c ∈ chunks n l, c.length = n := by
  induction k generalizing l with
  | zero =>
    have : l = [] := List.length_eq_zero_iff.1 (by simpa using hl)
    simp [this]
  | succ k ih =>
    have hne : l ≠ [] := by
      rintro rfl
      simp [Nat.mul_succ] at hl
      omega
    have hle : n ≤ l.length := by rw [hl, Nat.mul_succ]; omega
    obtain ⟨h1, h2⟩ := ih (l := l.drop n) (by
      rw [List.length_drop, hl, Nat.mul_succ]
      omega)
    rw [chunks_cons hn hne]
    refine ⟨by simp [h1], ?_⟩
    intro c hc
    rcases List.mem_cons.1 hc with rfl | hc
    · simp [hle]
    · exact h2 c hc

/-- The blocks put together are the string. -/
theorem chunks_flatten {α : Type} {n : Nat} (hn : 0 < n) (l : List α) :
    (chunks n l).flatten = l := by
  induction hk : l.length using Nat.strongRecOn generalizing l with
  | ind k ih =>
    by_cases hl : l = []
    · simp [hl]
    · rw [chunks_cons hn hl, List.flatten_cons, ih (l.drop n).length _ _ rfl, List.take_append_drop]
      have := List.length_pos_iff.2 hl
      rw [List.length_drop]
      omega

/-- Blocks of one length put together have their total length. -/
theorem length_flatten_of_mem {α : Type} {n : Nat} {l : List (List α)}
    (h : ∀ c ∈ l, c.length = n) : l.flatten.length = n * l.length := by
  induction l with
  | nil => simp
  | cons c t ih =>
    rw [List.flatten_cons, List.length_append, ih fun d hd => h d (by simp [hd]),
      h c (by simp), List.length_cons, Nat.mul_succ, Nat.add_comm]

/-- A string made block by block, each block giving `n` bytes. -/
theorem length_flatMap_of_mem {α : Type} {n : Nat} {l : List α} {f : α → Bytes}
    (h : ∀ c ∈ l, (f c).length = n) : (l.flatMap f).length = n * l.length := by
  rw [List.flatMap_def, length_flatten_of_mem (n := n)]
  · simp
  · intro c hc
    obtain ⟨x, hx, rfl⟩ := List.mem_map.1 hc
    exact h x hx

/-! ### Digests and what is built on them (R146, R166, R193, R194, R210, R225) -/

theorem ShaCore.compress_length {w : Nat} (c : ShaCore w) (h : List (BitVec w)) (b : Bytes)
    (hh : h.length = 8) : (c.compress h b).length = 8 := by
  simp [ShaCore.compress, hh]

theorem ShaCore.hash_length {w : Nat} (c : ShaCore w) (hc : c.initial.length = 8) (m : Bytes) :
    (c.hash m).length = 8 * c.wordBytes := by
  have : ∀ (l : List Bytes) (h : List (BitVec w)), h.length = 8 →
      (l.foldl c.compress h).length = 8 := by
    intro l
    induction l with
    | nil => intro h hh; exact hh
    | cons b t ih => intro h hh; exact ih _ (c.compress_length h b hh)
  rw [ShaCore.hash, length_flatMap_of_mem (n := c.wordBytes) (by simp), this _ _ hc, Nat.mul_comm]

@[simp] theorem sha256_length (m : Bytes) : (sha256 m).length = 32 :=
  sha256Core.hash_length rfl m

@[simp] theorem sha256d_length (m : Bytes) : (sha256d m).length = 32 := by
  simp [sha256d]

@[simp] theorem sha512_length (m : Bytes) : (sha512 m).length = 64 :=
  sha512Core.hash_length rfl m

@[simp] theorem hmacSha256_length (k m : Bytes) : (hmacSha256 k m).length = 32 :=
  sha256Core.hash_length rfl _

@[simp] theorem hmacSha512_length (k m : Bytes) : (hmacSha512 k m).length = 64 :=
  sha512Core.hash_length rfl _

theorem pbkdf2Iterate_length {mac : Bytes → Bytes} {h : Nat} (hm : ∀ m, (mac m).length = h) (n : Nat)
    (u t : Bytes) (ht : t.length = h) : (pbkdf2Iterate mac n u t).length = h := by
  induction n generalizing u t with
  | zero => exact ht
  | succ n ih => exact ih _ _ (by simp [ht, hm])

theorem pbkdf2Block_length {mac : Bytes → Bytes → Bytes} {h : Nat}
    (hm : ∀ k m, (mac k m).length = h) (p s : Bytes) (c i : Nat) :
    (pbkdf2Block mac p s c i).length = h :=
  pbkdf2Iterate_length (hm p) _ _ _ (hm _ _)

theorem pbkdf2_length {mac : Bytes → Bytes → Bytes} {h : Nat} (hh : 0 < h)
    (hm : ∀ k m, (mac k m).length = h) (p s : Bytes) (c n : Nat) :
    (pbkdf2 mac h p s c n).length = n := by
  simp only [pbkdf2]
  rw [List.length_take,
    length_flatMap_of_mem (n := h) fun i _ => pbkdf2Block_length hm p s c (i + 1),
    List.length_range]
  apply Nat.min_eq_left
  have := Nat.lt_mul_div_succ (n + h - 1) hh
  rw [Nat.mul_add, Nat.mul_one] at this
  omega

@[simp] theorem pbkdf2Sha256_length (p s : Bytes) (c n : Nat) :
    (pbkdf2Sha256 p s c n).length = n :=
  pbkdf2_length (by decide) hmacSha256_length p s c n

@[simp] theorem pbkdf2Sha512_length (p s : Bytes) (c n : Nat) :
    (pbkdf2Sha512 p s c n).length = n :=
  pbkdf2_length (by decide) hmacSha512_length p s c n

@[simp] theorem scrypt_length (pass salt : Bytes) (cost r p n : Nat) :
    (scrypt pass salt cost r p n).length = n := by
  simp [scrypt]

/-! ### AES (R260 to R272) -/

@[simp] theorem subBytes_length (s : Bytes) : (subBytes s).length = s.length := by
  simp [subBytes]

@[simp] theorem invSubBytes_length (s : Bytes) : (invSubBytes s).length = s.length := by
  simp [invSubBytes]

@[simp] theorem shiftRows_length (s : Bytes) : (shiftRows s).length = 16 := by
  simp [shiftRows]

@[simp] theorem invShiftRows_length (s : Bytes) : (invShiftRows s).length = 16 := by
  simp [invShiftRows]

/-- A string of sixteen bytes, byte by byte. -/
theorem eq_sixteen {s : Bytes} (h : s.length = 16) :
    ∃ a0 a1 a2 a3 a4 a5 a6 a7 a8 a9 aa ab ac ad ae af,
      s = [a0, a1, a2, a3, a4, a5, a6, a7, a8, a9, aa, ab, ac, ad, ae, af] := by
  repeat (cases s with | nil => simp at h | cons _ s => ?_)
  cases s with
  | nil => exact ⟨_, _, _, _, _, _, _, _, _, _, _, _, _, _, _, _, rfl⟩
  | cons _ _ => simp at h

theorem mixColumns_length {s : Bytes} (h : s.length = 16) : (mixColumns s).length = 16 := by
  obtain ⟨_, _, _, _, _, _, _, _, _, _, _, _, _, _, _, _, rfl⟩ := eq_sixteen h
  rfl

theorem invMixColumns_length {s : Bytes} (h : s.length = 16) : (invMixColumns s).length = 16 := by
  obtain ⟨_, _, _, _, _, _, _, _, _, _, _, _, _, _, _, _, rfl⟩ := eq_sixteen h
  rfl

/-- The words of the key schedule stay four bytes each, and there are as many as asked. -/
theorem extendKey_words (nk n i : Nat) (latest : List Bytes) (h4 : ∀ t ∈ latest, t.length = 4)
    (hn : 0 < nk) (hk : nk ≤ latest.length) :
    (∀ t ∈ extendKey nk n i latest, t.length = 4) ∧
      (extendKey nk n i latest).length = n + latest.length := by
  induction n generalizing i latest with
  | zero => exact ⟨h4, by simp [extendKey]⟩
  | succ n ih =>
    have hget : ∀ j < latest.length, (latest.getD j []).length = 4 := by
      intro j hj
      rw [List.getD_eq_getElem _ _ hj]
      exact h4 _ (List.getElem_mem hj)
    have h1 := hget (nk - 1) (by omega)
    have h0 := hget 0 (by omega)
    have hm : (keyMask nk i (latest.getD 0 [])).length = 4 := by
      unfold keyMask
      split
      · simp only [xorBytes_length, subBytes_length, rotWord, List.length_append, List.length_drop,
          List.length_take, h0, List.length_cons, List.length_nil]
        omega
      · split
        · rw [subBytes_length, h0]
        · exact h0
    have hnew : ∀ t ∈ xorBytes (latest.getD (nk - 1) []) (keyMask nk i (latest.getD 0 [])) :: latest,
        t.length = 4 := by
      intro t ht
      rcases List.mem_cons.1 ht with rfl | ht
      · rw [xorBytes_length, h1, hm]
        rfl
      · exact h4 t ht
    obtain ⟨h2, h3⟩ := ih (i + 1) _ hnew (by simp only [List.length_cons]; omega)
    refine ⟨h2, ?_⟩
    simp only [extendKey, h3, List.length_cons]
    omega

/-- The key schedule of a legal key: `4 (Nr + 1)` words (R264). -/
theorem keyWords_words {key : Bytes} (hk : key.length = 16 ∨ key.length = 24 ∨ key.length = 32) :
    (∀ t ∈ keyWords key, t.length = 4) ∧ (keyWords key).length = 4 * (key.length / 4 + 7) := by
  obtain ⟨h1, h2⟩ := chunks_length_of_mem (n := 4) (by decide) (key.length / 4) (l := key) (by omega)
  obtain ⟨h3, h4⟩ := extendKey_words (key.length / 4) (4 * (key.length / 4 + 7) - key.length / 4)
    (key.length / 4) (chunks 4 key).reverse
    (fun t ht => h2 t (List.mem_reverse.1 ht)) (by omega) (by rw [List.length_reverse, h1])
  constructor
  · intro t ht
    exact h3 t (List.mem_reverse.1 ht)
  · rw [keyWords, List.length_reverse, h4, List.length_reverse, h1]
    omega

/-- The round keys of a legal key: `Nr + 1` of sixteen bytes (R264). -/
theorem roundKeys_keys {key : Bytes} (hk : key.length = 16 ∨ key.length = 24 ∨ key.length = 32) :
    (∀ k ∈ roundKeys key, k.length = 16) ∧ (roundKeys key).length = key.length / 4 + 7 := by
  obtain ⟨h1, h2⟩ := keyWords_words hk
  obtain ⟨h3, h4⟩ := chunks_length_of_mem (n := 4) (by decide) _ h2
  constructor
  · intro k hk
    obtain ⟨c, hc, rfl⟩ := List.mem_map.1 hk
    rw [length_flatten_of_mem (n := 4), h4 c hc]
    intro t ht
    refine h1 t ?_
    rw [← chunks_flatten (n := 4) (by decide) (keyWords key)]
    exact List.mem_flatten.2 ⟨c, hc, ht⟩
  · rw [roundKeys, List.length_map, h3]

theorem encRounds_length {keys : List Bytes} (hk : ∀ k ∈ keys, k.length = 16) {s : Bytes}
    (hs : s.length = 16) : (encRounds s keys).length = 16 := by
  induction keys generalizing s with
  | nil => simpa [encRounds] using hs
  | cons k ks ih =>
    have h1 := hk k (by simp)
    cases ks with
    | nil => simp [encRounds, addRoundKey, h1]
    | cons q qs =>
      simp only [encRounds]
      apply ih fun x hx => hk x (by simp [List.mem_cons.1 hx])
      rw [addRoundKey, xorBytes_length, mixColumns_length (by simp), h1]
      rfl

theorem decRounds_length {keys : List Bytes} (hk : ∀ k ∈ keys, k.length = 16) {s : Bytes}
    (hs : s.length = 16) : (decRounds s keys).length = 16 := by
  induction keys generalizing s with
  | nil => simpa [decRounds] using hs
  | cons k ks ih =>
    have h1 := hk k (by simp)
    cases ks with
    | nil => simp [decRounds, addRoundKey, h1]
    | cons q qs =>
      simp only [decRounds]
      apply ih fun x hx => hk x (by simp [List.mem_cons.1 hx])
      rw [invMixColumns_length]
      simp [addRoundKey, h1]

theorem aesEncBlock_length {keys : List Bytes} (hk : ∀ k ∈ keys, k.length = 16) (hn : keys ≠ [])
    {b : Bytes} (hb : b.length = 16) : (aesEncBlock keys b).length = 16 := by
  cases keys with
  | nil => exact absurd rfl hn
  | cons k ks =>
    apply encRounds_length fun x hx => hk x (by simp at hx; simp [hx])
    simp [addRoundKey, hb, hk k (by simp)]

theorem aesDecBlock_length {keys : List Bytes} (hk : ∀ k ∈ keys, k.length = 16) (hn : keys ≠ [])
    {b : Bytes} (hb : b.length = 16) : (aesDecBlock keys b).length = 16 := by
  have hr : ∀ k ∈ keys.reverse, k.length = 16 := fun k h => hk k (List.mem_reverse.1 h)
  have hn' : keys.reverse ≠ [] := by simpa using hn
  revert hr hn'
  unfold aesDecBlock
  generalize keys.reverse = q
  intro hr hn'
  cases q with
  | nil => exact absurd rfl hn'
  | cons k ks =>
    apply decRounds_length fun x hx => hr x (by simp at hx; simp [hx])
    simp [addRoundKey, hb, hr k (by simp)]

theorem roundKeys_ne_nil {key : Bytes} (hk : key.length = 16 ∨ key.length = 24 ∨ key.length = 32) :
    roundKeys key ≠ [] := by
  intro h
  have := (roundKeys_keys hk).2
  rw [h] at this
  simp only [List.length_nil] at this
  omega

theorem ecbEncrypt_length {key d : Bytes} (hk : key.length = 16 ∨ key.length = 24 ∨ key.length = 32)
    (hd : d.length % 16 = 0) : (ecbEncrypt key d).length = d.length := by
  obtain ⟨h1, h2⟩ := chunks_length_of_mem (n := 16) (by decide) (d.length / 16) (l := d) (by omega)
  rw [ecbEncrypt, length_flatMap_of_mem (n := 16), h1]
  · omega
  · intro c hc
    exact aesEncBlock_length (roundKeys_keys hk).1 (roundKeys_ne_nil hk) (h2 c hc)

theorem ecbDecrypt_length {key d : Bytes} (hk : key.length = 16 ∨ key.length = 24 ∨ key.length = 32)
    (hd : d.length % 16 = 0) : (ecbDecrypt key d).length = d.length := by
  obtain ⟨h1, h2⟩ := chunks_length_of_mem (n := 16) (by decide) (d.length / 16) (l := d) (by omega)
  rw [ecbDecrypt, length_flatMap_of_mem (n := 16), h1]
  · omega
  · intro c hc
    exact aesDecBlock_length (roundKeys_keys hk).1 (roundKeys_ne_nil hk) (h2 c hc)

/-- The padded length (R271). -/
theorem pkcs7Pad_length (d : Bytes) : (pkcs7Pad d).length = 16 * (d.length / 16 + 1) := by
  simp only [pkcs7Pad, List.length_append, List.length_replicate]
  omega

theorem cbcEncBlocks_blocks {keys : List Bytes} (hk : ∀ k ∈ keys, k.length = 16) (hn : keys ≠ [])
    {blocks : List Bytes} (hb : ∀ d ∈ blocks, d.length = 16) {prev : Bytes}
    (hp : prev.length = 16) :
    (∀ c ∈ cbcEncBlocks keys prev blocks, c.length = 16) ∧
      (cbcEncBlocks keys prev blocks).length = blocks.length := by
  induction blocks generalizing prev with
  | nil => simp [cbcEncBlocks]
  | cons d t ih =>
    have h1 : (aesEncBlock keys (xorBytes d prev)).length = 16 :=
      aesEncBlock_length hk hn (by rw [xorBytes_length, hb d (by simp), hp]; rfl)
    obtain ⟨h2, h3⟩ := ih (fun x hx => hb x (by simp [hx])) h1
    simp only [cbcEncBlocks]
    refine ⟨?_, by simp [h3]⟩
    intro c hc
    rcases List.mem_cons.1 hc with rfl | hc
    · exact h1
    · exact h2 c hc

theorem cbcDecBlocks_blocks {keys : List Bytes} (hk : ∀ k ∈ keys, k.length = 16) (hn : keys ≠ [])
    {blocks : List Bytes} (hb : ∀ d ∈ blocks, d.length = 16) {prev : Bytes}
    (hp : prev.length = 16) :
    (∀ c ∈ cbcDecBlocks keys prev blocks, c.length = 16) ∧
      (cbcDecBlocks keys prev blocks).length = blocks.length := by
  induction blocks generalizing prev with
  | nil => simp [cbcDecBlocks]
  | cons d t ih =>
    obtain ⟨h2, h3⟩ := ih (fun x hx => hb x (by simp [hx])) (hb d (by simp))
    simp only [cbcDecBlocks]
    refine ⟨?_, by simp [h3]⟩
    intro c hc
    rcases List.mem_cons.1 hc with rfl | hc
    · rw [xorBytes_length, aesDecBlock_length hk hn (hb d (by simp)), hp]
      rfl
    · exact h2 c hc

/-- The ciphertext's length (R271). -/
theorem cbcEncrypt_length {key iv d : Bytes}
    (hk : key.length = 16 ∨ key.length = 24 ∨ key.length = 32) (hi : iv.length = 16) :
    (cbcEncrypt key iv d).length = 16 * (d.length / 16) + 16 := by
  obtain ⟨h1, h2⟩ := chunks_length_of_mem (n := 16) (by decide) _ (pkcs7Pad_length d)
  obtain ⟨h3, h4⟩ := cbcEncBlocks_blocks (roundKeys_keys hk).1 (roundKeys_ne_nil hk) h2 hi
  rw [cbcEncrypt, length_flatten_of_mem h3, h4, h1]
  omega

/-- Stripping takes one to sixteen bytes off (R272). -/
theorem pkcs7Strip_length {q m : Bytes} (h : pkcs7Strip q = some m) :
    m.length = q.length - (q.getLastD 0).toNat ∧ 1 ≤ (q.getLastD 0).toNat ∧
      (q.getLastD 0).toNat ≤ 16 := by
  simp only [pkcs7Strip] at h
  split at h
  · simp at h
  · split at h
    · simp only [Option.some.injEq] at h
      refine ⟨?_, by omega, by omega⟩
      rw [← h, List.length_take]
      omega
    · simp at h

/-- The length of the decrypted blocks (R272). -/
theorem cbcDecBlocks_length {key iv c : Bytes}
    (hk : key.length = 16 ∨ key.length = 24 ∨ key.length = 32) (hi : iv.length = 16)
    (hc : c.length % 16 = 0) :
    (cbcDecBlocks (roundKeys key) iv (chunks 16 c)).flatten.length = c.length := by
  obtain ⟨h1, h2⟩ := chunks_length_of_mem (n := 16) (by decide) (c.length / 16) (l := c) (by omega)
  obtain ⟨h3, h4⟩ := cbcDecBlocks_blocks (roundKeys_keys hk).1 (roundKeys_ne_nil hk) h2 hi
  rw [length_flatten_of_mem h3, h4, h1]
  omega

/-! ### Signatures (R331, R351) -/

/-- The content of a DER INTEGER is one to 33 bytes (R351). -/
theorem derInt_length {v : Nat} (h1 : 1 ≤ v) (h2 : v < 2 ^ 256) :
    3 ≤ (derInt v).length ∧ (derInt v).length ≤ 35 := by
  have hne : (beBytes 32 v).dropWhile (· == 0x00) ≠ [] := by
    intro h
    rw [List.dropWhile_eq_nil_iff] at h
    have h0 : beBytes 32 v = List.replicate 32 0 := by
      rw [List.eq_replicate_iff]
      exact ⟨by simp, fun b hb => by simpa using h b hb⟩
    have := beNat_beBytes 32 v
    rw [h0, Nat.mod_eq_of_lt (by exact h2)] at this
    have h0' : beNat (List.replicate 32 (0 : Byte)) = 0 := by decide
    omega
  have hl : ((beBytes 32 v).dropWhile (· == 0x00)).length ≤ 32 := by
    have := (List.dropWhile_suffix (l := beBytes 32 v) (· == 0x00)).length_le
    simpa using this
  have hp := List.length_pos_iff.2 hne
  simp only [derInt]
  split <;> simp only [List.length_cons] <;> omega

/-- A DER signature is eight to 72 bytes (R351). -/
theorem sigToDer_length {r s : Nat} (hr : 1 ≤ r) (hr' : r < 2 ^ 256) (hs : 1 ≤ s)
    (hs' : s < 2 ^ 256) : 8 ≤ (sigToDer r s).length ∧ (sigToDer r s).length ≤ 72 := by
  have h1 := derInt_length hr hr'
  have h2 := derInt_length hs hs'
  simp only [sigToDer, List.length_cons, List.length_append]
  omega

theorem ecdsaSearch_length {d : Nat} {h : Bytes} {n : Nat} {g : NonceGen} {sig : Bytes}
    (hs : ecdsaSearch d h n g = some sig) : sig.length = 64 := by
  induction n generalizing g with
  | zero => simp [ecdsaSearch] at hs
  | succ n ih =>
    simp only [ecdsaSearch] at hs
    split at hs
    · rename_i sig' hk
      simp only [Option.some.injEq] at hs
      subst hs
      simp only [ecdsaWithNonce] at hk
      split at hk
      · simp at hk
      · split at hk
        · simp at hk
        · split at hk
          · simp at hk
          · simp only [Option.some.injEq] at hk
            rw [← hk]
            simp
    · exact ih hs

/-- Every ECDSA signature is 64 bytes (R331). -/
theorem ecdsaSign_length {n : Option Nat} {d : Nat} {h sig : Bytes}
    (hs : ecdsaSign n d h = some sig) : sig.length = 64 := by
  cases n with
  | some b => exact ecdsaSearch_length hs
  | none =>
    simp only [ecdsaSign, Option.some.injEq] at hs
    cases he : ecdsaSearch d h nonceSpace (nonceInit d h) with
    | some q =>
      simp only [he, Option.getD_some] at hs
      rw [← hs]
      exact ecdsaSearch_length he
    | none =>
      simp only [he, Option.getD_none] at hs
      rw [← hs]
      simp [endlessSignature]

end Sys2Proof.Machine
end

