-- ==== Sys2Proof/Laws/Memory.lean ====
section
/-! SUPPORT. The laws of the data memory: what a read gives after each operation, and that every
operation keeps the canonical form `Memory.wf` (20_memory.md R80, R91, R94). -/

namespace Sys2Proof.Machine

/-! ### The canonical form -/

/-- The canonical form, taken apart at its first entry. -/
theorem Memory.wf_cons {a : Nat} {b : Byte} {t : Memory} :
    Memory.wf ((a, b) :: t) = true ↔
      a < 2 ^ 32 ∧ b ≠ unlistedByte ∧ (∀ c ∈ t, a < c.1) ∧ Memory.wf t = true := by
  simp only [Memory.wf, Bool.and_eq_true, decide_eq_true_eq, bne_iff_ne, List.all_eq_true, and_assoc]
  exact Iff.rfl

/-- An address below every listed one reads as unlisted. -/
theorem Memory.read_below {m : Memory} {a : Nat} (h : ∀ c ∈ m, a < c.1) :
    m.read a = unlistedByte := by
  induction m with
  | nil => rfl
  | cons c t ih =>
    have h1 := h c (by simp)
    simp only [Memory.read]
    rw [if_neg (by omega)]
    exact ih fun d hd => h d (by simp [hd])

/-- A write lists no address that was not listed, but its own. -/
theorem Memory.mem_write {m : Memory} {a : Nat} {v : Byte} {c : Host.Cell} (h : c ∈ m.write a v) :
    c ∈ m ∨ c.1 = a := by
  induction m with
  | nil =>
    simp only [Memory.write] at h
    split at h <;> simp_all
  | cons d t ih =>
    simp only [Memory.write] at h
    split at h
    · split at h
      · exact .inl h
      · simp at h
        rcases h with h | h | h <;> simp [h]
    · split at h
      · split at h
        · simp [h]
        · simp at h
          rcases h with h | h <;> simp [h]
      · simp at h
        rcases h with h | h
        · simp [h]
        · rcases ih h with h | h <;> simp [h]

/-- A write keeps the canonical form. -/
theorem Memory.wf_write {m : Memory} {a : Nat} {v : Byte} (hm : m.wf = true) (ha : a < 2 ^ 32) :
    (m.write a v).wf = true := by
  induction m with
  | nil =>
    simp only [Memory.write]
    split
    · rfl
    · exact Memory.wf_cons.2 ⟨ha, ‹_›, by simp, rfl⟩
  | cons d t ih =>
    obtain ⟨h1, h2, h3, h4⟩ := Memory.wf_cons.1 hm
    simp only [Memory.write]
    split
    · split
      · exact hm
      · refine Memory.wf_cons.2 ⟨ha, ‹_›, ?_, hm⟩
        intro c hc
        rcases List.mem_cons.1 hc with rfl | hc
        · assumption
        · exact Nat.lt_trans ‹_› (h3 c hc)
    · split
      · split
        · exact h4
        · refine Memory.wf_cons.2 ⟨ha, ‹_›, ?_, h4⟩
          intro c hc
          have := h3 c hc
          omega
      · refine Memory.wf_cons.2 ⟨h1, h2, ?_, ih h4⟩
        intro c hc
        rcases Memory.mem_write hc with hc | hc
        · exact h3 c hc
        · omega

/-- A run of writes below the end of the data space keeps the canonical form. -/
theorem Memory.wf_writeBytes {b : Bytes} {m : Memory} {a : Nat} (hm : m.wf = true)
    (ha : a + b.length ≤ 2 ^ 32) : (m.writeBytes a b).wf = true := by
  induction b generalizing m a with
  | nil => exact hm
  | cons x t ih =>
    simp only [List.length_cons] at ha
    exact ih (Memory.wf_write hm (by omega)) (by omega)

/-- Free values over admitted addresses of the data space keep the canonical form. -/
theorem Memory.wf_scramble {m : Memory} {draw : Nat} {may : Nat → Bool} {a n : Nat}
    (hm : m.wf = true) (hmay : ∀ x, may x = true → x < 2 ^ 32) :
    (m.scramble draw may a n).wf = true := by
  induction n with
  | zero => exact hm
  | succ n ih =>
    simp only [Memory.scramble]
    split
    · exact Memory.wf_write ih (hmay _ ‹_›)
    · exact ih

/-! ### Reading after writing -/

/-- Reading the address just written gives the byte written. -/
theorem Memory.read_write_same {m : Memory} {a : Nat} {v : Byte} (hm : m.wf = true) :
    (m.write a v).read a = v := by
  induction m with
  | nil =>
    simp only [Memory.write]
    split
    · simp [Memory.read, *]
    · simp [Memory.read]
  | cons d t ih =>
    obtain ⟨_, _, h3, h4⟩ := Memory.wf_cons.1 hm
    simp only [Memory.write]
    split
    · split
      · rw [Memory.read_below]
        · exact (Eq.symm ‹_›)
        · intro c hc
          rcases List.mem_cons.1 hc with rfl | hc
          · assumption
          · exact Nat.lt_trans ‹_› (h3 c hc)
      · simp [Memory.read]
    · split
      · split
        · rw [Memory.read_below]
          · exact (Eq.symm ‹_›)
          · intro c hc
            have := h3 c hc
            omega
        · simp [Memory.read]
      · simp only [Memory.read]
        rw [if_neg ‹_›]
        exact ih h4

/-- Every other address reads as before. -/
theorem Memory.read_write_other {m : Memory} {a x : Nat} {v : Byte} (hx : x ≠ a) :
    (m.write a v).read x = m.read x := by
  induction m with
  | nil =>
    simp only [Memory.write]
    split <;> simp [Memory.read, hx]
  | cons d t ih =>
    simp only [Memory.write]
    split
    · split
      · rfl
      · simp [Memory.read, hx]
    · split
      · rename_i h1 h2
        subst h2
        split <;> simp [Memory.read, hx]
      · simp only [Memory.read, ih]

/-- Outside the bytes written nothing changes. -/
theorem Memory.read_writeBytes_outside {b : Bytes} {m : Memory} {a x : Nat}
    (hx : x < a ∨ a + b.length ≤ x) : (m.writeBytes a b).read x = m.read x := by
  induction b generalizing m a with
  | nil => rfl
  | cons y t ih =>
    simp only [List.length_cons] at hx
    simp only [Memory.writeBytes]
    rw [ih (by omega), Memory.read_write_other (by omega)]

/-- Each byte written reads back. -/
theorem Memory.read_writeBytes_inside {b : Bytes} {m : Memory} {a k : Nat} (hm : m.wf = true)
    (ha : a + b.length ≤ 2 ^ 32) (hk : k < b.length) :
    (m.writeBytes a b).read (a + k) = b.getD k 0 := by
  induction b generalizing m a k with
  | nil => simp at hk
  | cons y t ih =>
    simp only [List.length_cons] at ha hk
    simp only [Memory.writeBytes]
    cases k with
    | zero =>
      rw [Memory.read_writeBytes_outside (by omega)]
      exact Memory.read_write_same hm
    | succ k =>
      rw [show a + (k + 1) = a + 1 + k by omega,
        ih (Memory.wf_write hm (by omega)) (by omega) (by omega)]
      simp

/-- A byte that no free value may reach is unchanged. -/
theorem Memory.read_scramble_outside {m : Memory} {draw : Nat} {may : Nat → Bool} {a n x : Nat}
    (hx : x < a ∨ a + n ≤ x ∨ may x = false) : (m.scramble draw may a n).read x = m.read x := by
  induction n with
  | zero => rfl
  | succ n ih =>
    have hn : x < a ∨ a + n ≤ x ∨ may x = false := by
      rcases hx with hx | hx | hx
      · exact .inl hx
      · exact .inr (.inl (by omega))
      · exact .inr (.inr hx)
    simp only [Memory.scramble]
    split
    · rw [Memory.read_write_other]
      · exact ih hn
      · rintro rfl
        rcases hx with hx | hx | hx
        · omega
        · omega
        · simp_all
    · exact ih hn

/-- A byte that a free value reaches holds that value. -/
theorem Memory.read_scramble_inside {m : Memory} {draw : Nat} {may : Nat → Bool} {a n x : Nat}
    (hm : m.wf = true) (hmay : ∀ x, may x = true → x < 2 ^ 32) (h1 : a ≤ x) (h2 : x < a + n)
    (h3 : may x = true) : (m.scramble draw may a n).read x = Config.freeByte draw x := by
  induction n with
  | zero => omega
  | succ n ih =>
    simp only [Memory.scramble]
    by_cases hn : x = a + n
    · subst hn
      rw [if_pos h3]
      exact Memory.read_write_same (Memory.wf_scramble hm hmay)
    · split
      · rw [Memory.read_write_other hn]
        exact ih (by omega)
      · exact ih (by omega)

/-! ### The memory after reset, and extensionality -/

/-- The memory after reset is canonical. -/
theorem Memory.wf_reset : State.reset.mem.wf = true := rfl

/-! ### The free values of several regions -/

theorem Memory.wf_scrambleAll {draw : Nat} {may : Nat → Bool}
    (hmay : ∀ x, may x = true → x < 2 ^ 32) :
    ∀ {m : Memory} (l : List Region), m.wf = true → (m.scrambleAll draw may l).wf = true
  | _, [], h => h
  | _, _ :: t, h => wf_scrambleAll hmay t (wf_scramble h hmay)

/-- A byte outside all the regions is as it was. -/
theorem Memory.read_scrambleAll_outside {draw : Nat} {may : Nat → Bool} {x : Nat} :
    ∀ {m : Memory} (l : List Region), (∀ r ∈ l, x < r.base ∨ r.base + r.size ≤ x) →
      (m.scrambleAll draw may l).read x = m.read x
  | _, [], _ => rfl
  | _, r :: t, h => by
    simp only [Memory.scrambleAll]
    rw [read_scrambleAll_outside t fun q hq => h q (List.mem_cons_of_mem _ hq)]
    rcases h r (List.mem_cons_self ..) with h | h
    · exact read_scramble_outside (.inl h)
    · exact read_scramble_outside (.inr (.inl h))

end Sys2Proof.Machine
end

