-- ==== Sys2Proof/Laws/State.lean ====
section
/-! SUPPORT. For each update of the state, one lemma per field: what the field is afterwards. No
later proof unfolds an update. -/

namespace Sys2Proof.Machine

/-! ### Issue (R50) -/

@[simp] theorem State.issue_engine (s : State) (w : Word) :
    (s.issue w).engine = .busy w false := rfl
@[simp] theorem State.issue_done (s : State) (w : Word) : (s.issue w).done = false := rfl
@[simp] theorem State.issue_werr (s : State) (w : Word) : (s.issue w).werr = s.werr := rfl
@[simp] theorem State.issue_result (s : State) (w : Word) : (s.issue w).result = .ok := rfl
@[simp] theorem State.issue_cause (s : State) (w : Word) : (s.issue w).cause = .none := rfl
@[simp] theorem State.issue_ie (s : State) (w : Word) : (s.issue w).ie = s.ie := rfl
@[simp] theorem State.issue_operands (s : State) (w : Word) :
    (s.issue w).operands = s.operands := rfl
@[simp] theorem State.issue_written (s : State) (w : Word) : (s.issue w).written = 0 := rfl
@[simp] theorem State.issue_lastcmd (s : State) (w : Word) : (s.issue w).lastcmd = w := rfl
@[simp] theorem State.issue_workStore (s : State) (w : Word) : (s.issue w).workStore = .inUse := rfl
@[simp] theorem State.issue_scryptStore (s : State) (w : Word) :
    (s.issue w).scryptStore = .inUse := rfl
@[simp] theorem State.issue_resetAsserted (s : State) (w : Word) :
    (s.issue w).resetAsserted = s.resetAsserted := rfl
@[simp] theorem State.issue_mem (s : State) (w : Word) : (s.issue w).mem = s.mem := rfl
@[simp] theorem State.issue_platform (s : State) (w : Word) :
    (s.issue w).platform = s.platform := rfl
@[simp] theorem State.issue_inbox (s : State) (w : Word) : (s.issue w).inbox = s.inbox := rfl
@[simp] theorem State.issue_response (s : State) (w : Word) :
    (s.issue w).response = s.response := rfl
@[simp] theorem State.issue_draws (s : State) (w : Word) : (s.issue w).draws = s.draws := rfl
@[simp] theorem State.issue_unobserved (s : State) (w : Word) :
    (s.issue w).unobserved = s.unobserved := rfl

/-! ### The completion step (R51) -/

@[simp] theorem writtenWord_ok (n : Nat) : writtenWord .none n = BitVec.ofNat 32 n := rfl
@[simp] theorem writtenWord_zero (c : Cause) : writtenWord c 0 = 0 := by cases c <;> rfl
theorem writtenWord_failed {c : Cause} (h : c ≠ .none) (n : Nat) : writtenWord c n = 0 := if_neg h

theorem State.withFinished_busy {s : State} {w : Word} {r : Bool} (h : s.engine = .busy w r)
    (n : Word) : s.withFinished n = ⟨w, s.operands, n⟩ :: s.unobserved := by
  simp [State.withFinished, h]
theorem State.withFinished_idle {s : State} (h : s.engine = .idle) (n : Word) :
    s.withFinished n = s.unobserved := by
  simp [State.withFinished, h]


@[simp] theorem State.conclude_engine (s : State) (c : Cause) (n : Nat) (m : Memory) :
    (s.conclude c n m).engine = .idle := rfl
@[simp] theorem State.conclude_done (s : State) (c : Cause) (n : Nat) (m : Memory) :
    (s.conclude c n m).done = true := rfl
@[simp] theorem State.conclude_werr (s : State) (c : Cause) (n : Nat) (m : Memory) :
    (s.conclude c n m).werr = s.werr := rfl
@[simp] theorem State.conclude_result (s : State) (c : Cause) (n : Nat) (m : Memory) :
    (s.conclude c n m).result = c.resultClass := rfl
@[simp] theorem State.conclude_cause (s : State) (c : Cause) (n : Nat) (m : Memory) :
    (s.conclude c n m).cause = c := rfl
@[simp] theorem State.conclude_ie (s : State) (c : Cause) (n : Nat) (m : Memory) :
    (s.conclude c n m).ie = s.ie := rfl
@[simp] theorem State.conclude_operands (s : State) (c : Cause) (n : Nat) (m : Memory) :
    (s.conclude c n m).operands = s.operands := rfl
@[simp] theorem State.conclude_written (s : State) (c : Cause) (n : Nat) (m : Memory) :
    (s.conclude c n m).written = writtenWord c n := rfl
@[simp] theorem State.conclude_lastcmd (s : State) (c : Cause) (n : Nat) (m : Memory) :
    (s.conclude c n m).lastcmd = s.lastcmd := rfl
@[simp] theorem State.conclude_workStore (s : State) (c : Cause) (n : Nat) (m : Memory) :
    (s.conclude c n m).workStore = .wiped := rfl
@[simp] theorem State.conclude_scryptStore (s : State) (c : Cause) (n : Nat) (m : Memory) :
    (s.conclude c n m).scryptStore = .wiped := rfl
@[simp] theorem State.conclude_resetAsserted (s : State) (c : Cause) (n : Nat) (m : Memory) :
    (s.conclude c n m).resetAsserted = s.resetAsserted := rfl
@[simp] theorem State.conclude_mem (s : State) (c : Cause) (n : Nat) (m : Memory) :
    (s.conclude c n m).mem = m := rfl
@[simp] theorem State.conclude_platform (s : State) (c : Cause) (n : Nat) (m : Memory) :
    (s.conclude c n m).platform = s.platform := rfl
@[simp] theorem State.conclude_inbox (s : State) (c : Cause) (n : Nat) (m : Memory) :
    (s.conclude c n m).inbox = s.inbox := rfl
@[simp] theorem State.conclude_response (s : State) (c : Cause) (n : Nat) (m : Memory) :
    (s.conclude c n m).response = s.response := rfl
@[simp] theorem State.conclude_draws (s : State) (c : Cause) (n : Nat) (m : Memory) :
    (s.conclude c n m).draws = s.draws + 1 := rfl
@[simp] theorem State.conclude_unobserved (s : State) (c : Cause) (n : Nat) (m : Memory) :
    (s.conclude c n m).unobserved = s.withFinished (writtenWord c n) := rfl

/-! ### A write of `STATUS` (R44) -/

@[simp] theorem State.acknowledge_engine (s : State) (v : Word) :
    (s.acknowledge v).engine = s.engine := rfl
@[simp] theorem State.acknowledge_done (s : State) (v : Word) :
    (s.acknowledge v).done = (s.done && !v.getLsbD 1) := rfl
@[simp] theorem State.acknowledge_werr (s : State) (v : Word) :
    (s.acknowledge v).werr = (s.werr && !v.getLsbD 2) := rfl
@[simp] theorem State.acknowledge_result (s : State) (v : Word) :
    (s.acknowledge v).result = s.result := rfl
@[simp] theorem State.acknowledge_cause (s : State) (v : Word) :
    (s.acknowledge v).cause = s.cause := rfl
@[simp] theorem State.acknowledge_ie (s : State) (v : Word) : (s.acknowledge v).ie = s.ie := rfl
@[simp] theorem State.acknowledge_operands (s : State) (v : Word) :
    (s.acknowledge v).operands = s.operands := rfl
@[simp] theorem State.acknowledge_written (s : State) (v : Word) :
    (s.acknowledge v).written = s.written := rfl
@[simp] theorem State.acknowledge_lastcmd (s : State) (v : Word) :
    (s.acknowledge v).lastcmd = s.lastcmd := rfl
@[simp] theorem State.acknowledge_workStore (s : State) (v : Word) :
    (s.acknowledge v).workStore = s.workStore := rfl
@[simp] theorem State.acknowledge_scryptStore (s : State) (v : Word) :
    (s.acknowledge v).scryptStore = s.scryptStore := rfl
@[simp] theorem State.acknowledge_resetAsserted (s : State) (v : Word) :
    (s.acknowledge v).resetAsserted = s.resetAsserted := rfl
@[simp] theorem State.acknowledge_mem (s : State) (v : Word) : (s.acknowledge v).mem = s.mem := rfl
@[simp] theorem State.acknowledge_platform (s : State) (v : Word) :
    (s.acknowledge v).platform = s.platform := rfl
@[simp] theorem State.acknowledge_inbox (s : State) (v : Word) :
    (s.acknowledge v).inbox = s.inbox := rfl
@[simp] theorem State.acknowledge_response (s : State) (v : Word) :
    (s.acknowledge v).response = s.response := rfl
@[simp] theorem State.acknowledge_draws (s : State) (v : Word) :
    (s.acknowledge v).draws = s.draws := rfl
@[simp] theorem State.acknowledge_unobserved (s : State) (v : Word) :
    (s.acknowledge v).unobserved = s.unobserved := rfl

/-! ### A refused write (R35) -/

@[simp] theorem State.refuseWrite_engine (s : State) : (s.refuseWrite).engine = s.engine := rfl
@[simp] theorem State.refuseWrite_done (s : State) : (s.refuseWrite).done = s.done := rfl
@[simp] theorem State.refuseWrite_werr (s : State) : (s.refuseWrite).werr = true := rfl
@[simp] theorem State.refuseWrite_result (s : State) : (s.refuseWrite).result = s.result := rfl
@[simp] theorem State.refuseWrite_cause (s : State) : (s.refuseWrite).cause = s.cause := rfl
@[simp] theorem State.refuseWrite_ie (s : State) : (s.refuseWrite).ie = s.ie := rfl
@[simp] theorem State.refuseWrite_operands (s : State) :
    (s.refuseWrite).operands = s.operands := rfl
@[simp] theorem State.refuseWrite_written (s : State) : (s.refuseWrite).written = s.written := rfl
@[simp] theorem State.refuseWrite_lastcmd (s : State) : (s.refuseWrite).lastcmd = s.lastcmd := rfl
@[simp] theorem State.refuseWrite_workStore (s : State) :
    (s.refuseWrite).workStore = s.workStore := rfl
@[simp] theorem State.refuseWrite_scryptStore (s : State) :
    (s.refuseWrite).scryptStore = s.scryptStore := rfl
@[simp] theorem State.refuseWrite_resetAsserted (s : State) :
    (s.refuseWrite).resetAsserted = s.resetAsserted := rfl
@[simp] theorem State.refuseWrite_mem (s : State) : (s.refuseWrite).mem = s.mem := rfl
@[simp] theorem State.refuseWrite_platform (s : State) :
    (s.refuseWrite).platform = s.platform := rfl
@[simp] theorem State.refuseWrite_inbox (s : State) : (s.refuseWrite).inbox = s.inbox := rfl
@[simp] theorem State.refuseWrite_response (s : State) :
    (s.refuseWrite).response = s.response := rfl
@[simp] theorem State.refuseWrite_draws (s : State) : (s.refuseWrite).draws = s.draws := rfl
@[simp] theorem State.refuseWrite_unobserved (s : State) :
    (s.refuseWrite).unobserved = s.unobserved := rfl

/-! ### Reset (R450) -/

@[simp] theorem State.enterReset_engine (s : State) (p : Bool) (m : Memory) :
    (s.enterReset p m).engine = .idle := rfl
@[simp] theorem State.enterReset_done (s : State) (p : Bool) (m : Memory) :
    (s.enterReset p m).done = false := rfl
@[simp] theorem State.enterReset_werr (s : State) (p : Bool) (m : Memory) :
    (s.enterReset p m).werr = false := rfl
@[simp] theorem State.enterReset_result (s : State) (p : Bool) (m : Memory) :
    (s.enterReset p m).result = .ok := rfl
@[simp] theorem State.enterReset_cause (s : State) (p : Bool) (m : Memory) :
    (s.enterReset p m).cause = .none := rfl
@[simp] theorem State.enterReset_ie (s : State) (p : Bool) (m : Memory) :
    (s.enterReset p m).ie = false := rfl
@[simp] theorem State.enterReset_operands (s : State) (p : Bool) (m : Memory) :
    (s.enterReset p m).operands = OperandRegs.reset := rfl
@[simp] theorem State.enterReset_written (s : State) (p : Bool) (m : Memory) :
    (s.enterReset p m).written = 0 := rfl
@[simp] theorem State.enterReset_lastcmd (s : State) (p : Bool) (m : Memory) :
    (s.enterReset p m).lastcmd = 0 := rfl
@[simp] theorem State.enterReset_workStore (s : State) (p : Bool) (m : Memory) :
    (s.enterReset p m).workStore = .wiped := rfl
@[simp] theorem State.enterReset_scryptStore (s : State) (p : Bool) (m : Memory) :
    (s.enterReset p m).scryptStore = if p || s.scryptStore == .unspecified then .unspecified else .wiped := rfl
@[simp] theorem State.enterReset_resetAsserted (s : State) (p : Bool) (m : Memory) :
    (s.enterReset p m).resetAsserted = true := rfl
@[simp] theorem State.enterReset_mem (s : State) (p : Bool) (m : Memory) :
    (s.enterReset p m).mem = m := rfl
@[simp] theorem State.enterReset_platform (s : State) (p : Bool) (m : Memory) :
    (s.enterReset p m).platform = s.platform := rfl
@[simp] theorem State.enterReset_inbox (s : State) (p : Bool) (m : Memory) :
    (s.enterReset p m).inbox = s.inbox := rfl
@[simp] theorem State.enterReset_response (s : State) (p : Bool) (m : Memory) :
    (s.enterReset p m).response = .none := rfl
@[simp] theorem State.enterReset_draws (s : State) (p : Bool) (m : Memory) :
    (s.enterReset p m).draws = s.draws + 1 := rfl
@[simp] theorem State.enterReset_unobserved (s : State) (p : Bool) (m : Memory) :
    (s.enterReset p m).unobserved = s.unobserved := rfl

/-! ### A write of an operand register (R44) -/

@[simp] theorem State.setOperand_engine (s : State) (r : OperandReg) (v : Word) :
    (s.setOperand r v).engine = s.engine := rfl
@[simp] theorem State.setOperand_done (s : State) (r : OperandReg) (v : Word) :
    (s.setOperand r v).done = s.done := rfl
@[simp] theorem State.setOperand_werr (s : State) (r : OperandReg) (v : Word) :
    (s.setOperand r v).werr = s.werr := rfl
@[simp] theorem State.setOperand_result (s : State) (r : OperandReg) (v : Word) :
    (s.setOperand r v).result = s.result := rfl
@[simp] theorem State.setOperand_cause (s : State) (r : OperandReg) (v : Word) :
    (s.setOperand r v).cause = s.cause := rfl
@[simp] theorem State.setOperand_ie (s : State) (r : OperandReg) (v : Word) :
    (s.setOperand r v).ie = s.ie := rfl
@[simp] theorem State.setOperand_operands (s : State) (r : OperandReg) (v : Word) :
    (s.setOperand r v).operands = s.operands.set v r := rfl
@[simp] theorem State.setOperand_written (s : State) (r : OperandReg) (v : Word) :
    (s.setOperand r v).written = s.written := rfl
@[simp] theorem State.setOperand_lastcmd (s : State) (r : OperandReg) (v : Word) :
    (s.setOperand r v).lastcmd = s.lastcmd := rfl
@[simp] theorem State.setOperand_workStore (s : State) (r : OperandReg) (v : Word) :
    (s.setOperand r v).workStore = s.workStore := rfl
@[simp] theorem State.setOperand_scryptStore (s : State) (r : OperandReg) (v : Word) :
    (s.setOperand r v).scryptStore = s.scryptStore := rfl
@[simp] theorem State.setOperand_resetAsserted (s : State) (r : OperandReg) (v : Word) :
    (s.setOperand r v).resetAsserted = s.resetAsserted := rfl
@[simp] theorem State.setOperand_mem (s : State) (r : OperandReg) (v : Word) :
    (s.setOperand r v).mem = s.mem := rfl
@[simp] theorem State.setOperand_platform (s : State) (r : OperandReg) (v : Word) :
    (s.setOperand r v).platform = s.platform := rfl
@[simp] theorem State.setOperand_inbox (s : State) (r : OperandReg) (v : Word) :
    (s.setOperand r v).inbox = s.inbox := rfl
@[simp] theorem State.setOperand_response (s : State) (r : OperandReg) (v : Word) :
    (s.setOperand r v).response = s.response := rfl
@[simp] theorem State.setOperand_draws (s : State) (r : OperandReg) (v : Word) :
    (s.setOperand r v).draws = s.draws := rfl
@[simp] theorem State.setOperand_unobserved (s : State) (r : OperandReg) (v : Word) :
    (s.setOperand r v).unobserved = s.unobserved := rfl

/-! ### A write of `CTRL` (R38) -/

@[simp] theorem State.setCtrl_engine (s : State) (v : Word) : (s.setCtrl v).engine = s.engine := rfl
@[simp] theorem State.setCtrl_done (s : State) (v : Word) : (s.setCtrl v).done = s.done := rfl
@[simp] theorem State.setCtrl_werr (s : State) (v : Word) : (s.setCtrl v).werr = s.werr := rfl
@[simp] theorem State.setCtrl_result (s : State) (v : Word) : (s.setCtrl v).result = s.result := rfl
@[simp] theorem State.setCtrl_cause (s : State) (v : Word) : (s.setCtrl v).cause = s.cause := rfl
@[simp] theorem State.setCtrl_ie (s : State) (v : Word) : (s.setCtrl v).ie = v.getLsbD 0 := rfl
@[simp] theorem State.setCtrl_operands (s : State) (v : Word) :
    (s.setCtrl v).operands = s.operands := rfl
@[simp] theorem State.setCtrl_written (s : State) (v : Word) :
    (s.setCtrl v).written = s.written := rfl
@[simp] theorem State.setCtrl_lastcmd (s : State) (v : Word) :
    (s.setCtrl v).lastcmd = s.lastcmd := rfl
@[simp] theorem State.setCtrl_workStore (s : State) (v : Word) :
    (s.setCtrl v).workStore = s.workStore := rfl
@[simp] theorem State.setCtrl_scryptStore (s : State) (v : Word) :
    (s.setCtrl v).scryptStore = s.scryptStore := rfl
@[simp] theorem State.setCtrl_resetAsserted (s : State) (v : Word) :
    (s.setCtrl v).resetAsserted = s.resetAsserted := rfl
@[simp] theorem State.setCtrl_mem (s : State) (v : Word) : (s.setCtrl v).mem = s.mem := rfl
@[simp] theorem State.setCtrl_platform (s : State) (v : Word) :
    (s.setCtrl v).platform = s.platform := rfl
@[simp] theorem State.setCtrl_inbox (s : State) (v : Word) : (s.setCtrl v).inbox = s.inbox := rfl
@[simp] theorem State.setCtrl_response (s : State) (v : Word) :
    (s.setCtrl v).response = s.response := rfl
@[simp] theorem State.setCtrl_draws (s : State) (v : Word) : (s.setCtrl v).draws = s.draws := rfl
@[simp] theorem State.setCtrl_unobserved (s : State) (v : Word) :
    (s.setCtrl v).unobserved = s.unobserved := rfl

/-! ### The bus's answer -/

@[simp] theorem State.respond_engine (s : State) (r : Response) :
    (s.respond r).engine = s.engine := rfl
@[simp] theorem State.respond_done (s : State) (r : Response) : (s.respond r).done = s.done := rfl
@[simp] theorem State.respond_werr (s : State) (r : Response) : (s.respond r).werr = s.werr := rfl
@[simp] theorem State.respond_result (s : State) (r : Response) :
    (s.respond r).result = s.result := rfl
@[simp] theorem State.respond_cause (s : State) (r : Response) :
    (s.respond r).cause = s.cause := rfl
@[simp] theorem State.respond_ie (s : State) (r : Response) : (s.respond r).ie = s.ie := rfl
@[simp] theorem State.respond_operands (s : State) (r : Response) :
    (s.respond r).operands = s.operands := rfl
@[simp] theorem State.respond_written (s : State) (r : Response) :
    (s.respond r).written = s.written := rfl
@[simp] theorem State.respond_lastcmd (s : State) (r : Response) :
    (s.respond r).lastcmd = s.lastcmd := rfl
@[simp] theorem State.respond_workStore (s : State) (r : Response) :
    (s.respond r).workStore = s.workStore := rfl
@[simp] theorem State.respond_scryptStore (s : State) (r : Response) :
    (s.respond r).scryptStore = s.scryptStore := rfl
@[simp] theorem State.respond_resetAsserted (s : State) (r : Response) :
    (s.respond r).resetAsserted = s.resetAsserted := rfl
@[simp] theorem State.respond_mem (s : State) (r : Response) : (s.respond r).mem = s.mem := rfl
@[simp] theorem State.respond_platform (s : State) (r : Response) :
    (s.respond r).platform = s.platform := rfl
@[simp] theorem State.respond_inbox (s : State) (r : Response) :
    (s.respond r).inbox = s.inbox := rfl
@[simp] theorem State.respond_response (s : State) (r : Response) :
    (s.respond r).response = r := rfl
@[simp] theorem State.respond_draws (s : State) (r : Response) :
    (s.respond r).draws = s.draws := rfl
@[simp] theorem State.respond_unobserved (s : State) (r : Response) :
    (s.respond r).unobserved = s.unobserved := rfl

/-! ### A value drawn -/

@[simp] theorem State.drawn_engine (s : State) : (s.drawn).engine = s.engine := rfl
@[simp] theorem State.drawn_done (s : State) : (s.drawn).done = s.done := rfl
@[simp] theorem State.drawn_werr (s : State) : (s.drawn).werr = s.werr := rfl
@[simp] theorem State.drawn_result (s : State) : (s.drawn).result = s.result := rfl
@[simp] theorem State.drawn_cause (s : State) : (s.drawn).cause = s.cause := rfl
@[simp] theorem State.drawn_ie (s : State) : (s.drawn).ie = s.ie := rfl
@[simp] theorem State.drawn_operands (s : State) : (s.drawn).operands = s.operands := rfl
@[simp] theorem State.drawn_written (s : State) : (s.drawn).written = s.written := rfl
@[simp] theorem State.drawn_lastcmd (s : State) : (s.drawn).lastcmd = s.lastcmd := rfl
@[simp] theorem State.drawn_workStore (s : State) : (s.drawn).workStore = s.workStore := rfl
@[simp] theorem State.drawn_scryptStore (s : State) : (s.drawn).scryptStore = s.scryptStore := rfl
@[simp] theorem State.drawn_resetAsserted (s : State) :
    (s.drawn).resetAsserted = s.resetAsserted := rfl
@[simp] theorem State.drawn_mem (s : State) : (s.drawn).mem = s.mem := rfl
@[simp] theorem State.drawn_platform (s : State) : (s.drawn).platform = s.platform := rfl
@[simp] theorem State.drawn_inbox (s : State) : (s.drawn).inbox = s.inbox := rfl
@[simp] theorem State.drawn_response (s : State) : (s.drawn).response = s.response := rfl
@[simp] theorem State.drawn_draws (s : State) : (s.drawn).draws = s.draws + 1 := rfl
@[simp] theorem State.drawn_unobserved (s : State) :
    (s.drawn).unobserved = s.unobserved := rfl

/-! ### The release of reset (R450) -/

@[simp] theorem State.releaseReset_engine (s : State) : (s.releaseReset).engine = s.engine := rfl
@[simp] theorem State.releaseReset_done (s : State) : (s.releaseReset).done = s.done := rfl
@[simp] theorem State.releaseReset_werr (s : State) : (s.releaseReset).werr = s.werr := rfl
@[simp] theorem State.releaseReset_result (s : State) : (s.releaseReset).result = s.result := rfl
@[simp] theorem State.releaseReset_cause (s : State) : (s.releaseReset).cause = s.cause := rfl
@[simp] theorem State.releaseReset_ie (s : State) : (s.releaseReset).ie = s.ie := rfl
@[simp] theorem State.releaseReset_operands (s : State) :
    (s.releaseReset).operands = s.operands := rfl
@[simp] theorem State.releaseReset_written (s : State) : (s.releaseReset).written = s.written := rfl
@[simp] theorem State.releaseReset_lastcmd (s : State) : (s.releaseReset).lastcmd = s.lastcmd := rfl
@[simp] theorem State.releaseReset_workStore (s : State) :
    (s.releaseReset).workStore = s.workStore := rfl
@[simp] theorem State.releaseReset_scryptStore (s : State) :
    (s.releaseReset).scryptStore = s.scryptStore := rfl
@[simp] theorem State.releaseReset_resetAsserted (s : State) :
    (s.releaseReset).resetAsserted = false := rfl
@[simp] theorem State.releaseReset_mem (s : State) : (s.releaseReset).mem = s.mem := rfl
@[simp] theorem State.releaseReset_platform (s : State) :
    (s.releaseReset).platform = s.platform := rfl
@[simp] theorem State.releaseReset_inbox (s : State) : (s.releaseReset).inbox = s.inbox := rfl
@[simp] theorem State.releaseReset_response (s : State) :
    (s.releaseReset).response = s.response := rfl
@[simp] theorem State.releaseReset_draws (s : State) : (s.releaseReset).draws = s.draws := rfl
@[simp] theorem State.releaseReset_unobserved (s : State) :
    (s.releaseReset).unobserved = s.unobserved := rfl

/-! ### The inbox replaced -/

@[simp] theorem State.withInbox_engine (s : State) (l : List Event) :
    (s.withInbox l).engine = s.engine := rfl
@[simp] theorem State.withInbox_done (s : State) (l : List Event) :
    (s.withInbox l).done = s.done := rfl
@[simp] theorem State.withInbox_werr (s : State) (l : List Event) :
    (s.withInbox l).werr = s.werr := rfl
@[simp] theorem State.withInbox_result (s : State) (l : List Event) :
    (s.withInbox l).result = s.result := rfl
@[simp] theorem State.withInbox_cause (s : State) (l : List Event) :
    (s.withInbox l).cause = s.cause := rfl
@[simp] theorem State.withInbox_ie (s : State) (l : List Event) : (s.withInbox l).ie = s.ie := rfl
@[simp] theorem State.withInbox_operands (s : State) (l : List Event) :
    (s.withInbox l).operands = s.operands := rfl
@[simp] theorem State.withInbox_written (s : State) (l : List Event) :
    (s.withInbox l).written = s.written := rfl
@[simp] theorem State.withInbox_lastcmd (s : State) (l : List Event) :
    (s.withInbox l).lastcmd = s.lastcmd := rfl
@[simp] theorem State.withInbox_workStore (s : State) (l : List Event) :
    (s.withInbox l).workStore = s.workStore := rfl
@[simp] theorem State.withInbox_scryptStore (s : State) (l : List Event) :
    (s.withInbox l).scryptStore = s.scryptStore := rfl
@[simp] theorem State.withInbox_resetAsserted (s : State) (l : List Event) :
    (s.withInbox l).resetAsserted = s.resetAsserted := rfl
@[simp] theorem State.withInbox_mem (s : State) (l : List Event) :
    (s.withInbox l).mem = s.mem := rfl
@[simp] theorem State.withInbox_platform (s : State) (l : List Event) :
    (s.withInbox l).platform = s.platform := rfl
@[simp] theorem State.withInbox_inbox (s : State) (l : List Event) :
    (s.withInbox l).inbox = l := rfl
@[simp] theorem State.withInbox_response (s : State) (l : List Event) :
    (s.withInbox l).response = s.response := rfl
@[simp] theorem State.withInbox_draws (s : State) (l : List Event) :
    (s.withInbox l).draws = s.draws := rfl
@[simp] theorem State.withInbox_unobserved (s : State) (l : List Event) :
    (s.withInbox l).unobserved = s.unobserved := rfl

/-! ### The observation of a completion (R96, R97) -/

@[simp] theorem State.observe_engine (s : State) (off : Nat) :
    (s.observe off).engine = s.engine := rfl
@[simp] theorem State.observe_done (s : State) (off : Nat) :
    (s.observe off).done = s.done := rfl
@[simp] theorem State.observe_werr (s : State) (off : Nat) :
    (s.observe off).werr = s.werr := rfl
@[simp] theorem State.observe_result (s : State) (off : Nat) :
    (s.observe off).result = s.result := rfl
@[simp] theorem State.observe_cause (s : State) (off : Nat) :
    (s.observe off).cause = s.cause := rfl
@[simp] theorem State.observe_ie (s : State) (off : Nat) :
    (s.observe off).ie = s.ie := rfl
@[simp] theorem State.observe_operands (s : State) (off : Nat) :
    (s.observe off).operands = s.operands := rfl
@[simp] theorem State.observe_written (s : State) (off : Nat) :
    (s.observe off).written = s.written := rfl
@[simp] theorem State.observe_lastcmd (s : State) (off : Nat) :
    (s.observe off).lastcmd = s.lastcmd := rfl
@[simp] theorem State.observe_workStore (s : State) (off : Nat) :
    (s.observe off).workStore = s.workStore := rfl
@[simp] theorem State.observe_scryptStore (s : State) (off : Nat) :
    (s.observe off).scryptStore = s.scryptStore := rfl
@[simp] theorem State.observe_resetAsserted (s : State) (off : Nat) :
    (s.observe off).resetAsserted = s.resetAsserted := rfl
@[simp] theorem State.observe_mem (s : State) (off : Nat) :
    (s.observe off).mem = s.mem := rfl
@[simp] theorem State.observe_platform (s : State) (off : Nat) :
    (s.observe off).platform = s.platform := rfl
@[simp] theorem State.observe_inbox (s : State) (off : Nat) :
    (s.observe off).inbox = s.inbox := rfl
@[simp] theorem State.observe_response (s : State) (off : Nat) :
    (s.observe off).response = s.response := rfl
@[simp] theorem State.observe_draws (s : State) (off : Nat) :
    (s.observe off).draws = s.draws := rfl
theorem State.observe_unobserved (s : State) (off : Nat) :
    (s.observe off).unobserved =
      if regAt off = some .status ∧ (s.done = true ∨ s.busy = false) then [] else s.unobserved := rfl

/-! ### The block as it stood while a completed command ran (R97) -/

@[simp] theorem State.whileRunning_engine (s : State) (f : Finished) :
    (s.whileRunning f).engine = .busy f.word false := rfl
@[simp] theorem State.whileRunning_done (s : State) (f : Finished) :
    (s.whileRunning f).done = s.done := rfl
@[simp] theorem State.whileRunning_werr (s : State) (f : Finished) :
    (s.whileRunning f).werr = s.werr := rfl
@[simp] theorem State.whileRunning_result (s : State) (f : Finished) :
    (s.whileRunning f).result = s.result := rfl
@[simp] theorem State.whileRunning_cause (s : State) (f : Finished) :
    (s.whileRunning f).cause = s.cause := rfl
@[simp] theorem State.whileRunning_ie (s : State) (f : Finished) :
    (s.whileRunning f).ie = s.ie := rfl
@[simp] theorem State.whileRunning_operands (s : State) (f : Finished) :
    (s.whileRunning f).operands = f.operands := rfl
@[simp] theorem State.whileRunning_written (s : State) (f : Finished) :
    (s.whileRunning f).written = s.written := rfl
@[simp] theorem State.whileRunning_lastcmd (s : State) (f : Finished) :
    (s.whileRunning f).lastcmd = s.lastcmd := rfl
@[simp] theorem State.whileRunning_workStore (s : State) (f : Finished) :
    (s.whileRunning f).workStore = s.workStore := rfl
@[simp] theorem State.whileRunning_scryptStore (s : State) (f : Finished) :
    (s.whileRunning f).scryptStore = s.scryptStore := rfl
@[simp] theorem State.whileRunning_resetAsserted (s : State) (f : Finished) :
    (s.whileRunning f).resetAsserted = s.resetAsserted := rfl
@[simp] theorem State.whileRunning_mem (s : State) (f : Finished) :
    (s.whileRunning f).mem = s.mem := rfl
@[simp] theorem State.whileRunning_platform (s : State) (f : Finished) :
    (s.whileRunning f).platform = s.platform := rfl
@[simp] theorem State.whileRunning_inbox (s : State) (f : Finished) :
    (s.whileRunning f).inbox = s.inbox := rfl
@[simp] theorem State.whileRunning_response (s : State) (f : Finished) :
    (s.whileRunning f).response = s.response := rfl
@[simp] theorem State.whileRunning_draws (s : State) (f : Finished) :
    (s.whileRunning f).draws = s.draws := rfl
@[simp] theorem State.whileRunning_unobserved (s : State) (f : Finished) :
    (s.whileRunning f).unobserved = s.unobserved := rfl

/-! ### The race mark (R97) -/

@[simp] theorem State.markRaced_done (s : State) : s.markRaced.done = s.done := by
  cases s with | mk e => cases e <;> rfl
@[simp] theorem State.markRaced_werr (s : State) : s.markRaced.werr = s.werr := by
  cases s with | mk e => cases e <;> rfl
@[simp] theorem State.markRaced_result (s : State) : s.markRaced.result = s.result := by
  cases s with | mk e => cases e <;> rfl
@[simp] theorem State.markRaced_cause (s : State) : s.markRaced.cause = s.cause := by
  cases s with | mk e => cases e <;> rfl
@[simp] theorem State.markRaced_ie (s : State) : s.markRaced.ie = s.ie := by
  cases s with | mk e => cases e <;> rfl
@[simp] theorem State.markRaced_operands (s : State) : s.markRaced.operands = s.operands := by
  cases s with | mk e => cases e <;> rfl
@[simp] theorem State.markRaced_written (s : State) : s.markRaced.written = s.written := by
  cases s with | mk e => cases e <;> rfl
@[simp] theorem State.markRaced_lastcmd (s : State) : s.markRaced.lastcmd = s.lastcmd := by
  cases s with | mk e => cases e <;> rfl
@[simp] theorem State.markRaced_workStore (s : State) : s.markRaced.workStore = s.workStore := by
  cases s with | mk e => cases e <;> rfl
@[simp] theorem State.markRaced_scryptStore (s : State) :
    s.markRaced.scryptStore = s.scryptStore := by
  cases s with | mk e => cases e <;> rfl
@[simp] theorem State.markRaced_resetAsserted (s : State) :
    s.markRaced.resetAsserted = s.resetAsserted := by
  cases s with | mk e => cases e <;> rfl
@[simp] theorem State.markRaced_mem (s : State) : s.markRaced.mem = s.mem := by
  cases s with | mk e => cases e <;> rfl
@[simp] theorem State.markRaced_platform (s : State) : s.markRaced.platform = s.platform := by
  cases s with | mk e => cases e <;> rfl
@[simp] theorem State.markRaced_inbox (s : State) : s.markRaced.inbox = s.inbox := by
  cases s with | mk e => cases e <;> rfl
@[simp] theorem State.markRaced_response (s : State) : s.markRaced.response = s.response := by
  cases s with | mk e => cases e <;> rfl
@[simp] theorem State.markRaced_draws (s : State) : s.markRaced.draws = s.draws := by
  cases s with | mk e => cases e <;> rfl
@[simp] theorem State.markRaced_unobserved (s : State) :
    s.markRaced.unobserved = s.unobserved := by
  cases s with | mk e => cases e <;> rfl

theorem State.markRaced_idle (s : State) (h : s.engine = .idle) : s.markRaced.engine = .idle := by
  simp [State.markRaced, h]

theorem State.markRaced_busy (s : State) (w : Word) (r : Bool) (h : s.engine = .busy w r) :
    s.markRaced.engine = .busy w true := by
  simp [State.markRaced, h]

/-! ### A race of the host (R97) -/

@[simp] theorem State.race_done (s : State) (races : State → Bool) :
    (s.race races).done = s.done := by
  simp only [State.race]; split <;> simp
@[simp] theorem State.race_werr (s : State) (races : State → Bool) :
    (s.race races).werr = s.werr := by
  simp only [State.race]; split <;> simp
@[simp] theorem State.race_result (s : State) (races : State → Bool) :
    (s.race races).result = s.result := by
  simp only [State.race]; split <;> simp
@[simp] theorem State.race_cause (s : State) (races : State → Bool) :
    (s.race races).cause = s.cause := by
  simp only [State.race]; split <;> simp
@[simp] theorem State.race_ie (s : State) (races : State → Bool) :
    (s.race races).ie = s.ie := by
  simp only [State.race]; split <;> simp
@[simp] theorem State.race_operands (s : State) (races : State → Bool) :
    (s.race races).operands = s.operands := by
  simp only [State.race]; split <;> simp
@[simp] theorem State.race_written (s : State) (races : State → Bool) :
    (s.race races).written = s.written := by
  simp only [State.race]; split <;> simp
@[simp] theorem State.race_lastcmd (s : State) (races : State → Bool) :
    (s.race races).lastcmd = s.lastcmd := by
  simp only [State.race]; split <;> simp
@[simp] theorem State.race_workStore (s : State) (races : State → Bool) :
    (s.race races).workStore = s.workStore := by
  simp only [State.race]; split <;> simp
@[simp] theorem State.race_scryptStore (s : State) (races : State → Bool) :
    (s.race races).scryptStore = s.scryptStore := by
  simp only [State.race]; split <;> simp
@[simp] theorem State.race_resetAsserted (s : State) (races : State → Bool) :
    (s.race races).resetAsserted = s.resetAsserted := by
  simp only [State.race]; split <;> simp
@[simp] theorem State.race_platform (s : State) (races : State → Bool) :
    (s.race races).platform = s.platform := by
  simp only [State.race]; split <;> simp
@[simp] theorem State.race_inbox (s : State) (races : State → Bool) :
    (s.race races).inbox = s.inbox := by
  simp only [State.race]; split <;> simp
@[simp] theorem State.race_response (s : State) (races : State → Bool) :
    (s.race races).response = s.response := by
  simp only [State.race]; split <;> simp
@[simp] theorem State.race_draws (s : State) (races : State → Bool) :
    (s.race races).draws = s.draws + 1 := by
  simp only [State.race]; split <;> simp
@[simp] theorem State.race_unobserved (s : State) (races : State → Bool) :
    (s.race races).unobserved = s.unobserved := by
  simp only [State.race]; split <;> simp
@[simp] theorem State.race_mem (s : State) (races : State → Bool) :
    (s.race races).mem =
      s.mem.scrambleAll s.draws (writable s.platform) (s.racedOutputs races) := by
  simp only [State.race]; split <;> simp

theorem State.race_engine (s : State) (races : State → Bool) :
    (s.race races).engine =
      if races s || (s.racedOutputs races).any s.storeRaces then s.markRaced.engine
      else s.engine := by
  cases s with | mk e => cases e <;> simp only [State.race] <;> split <;> rfl

/-! ### Operand registers (R39, R40, R41) -/

@[simp] theorem OperandRegs.get_set (o : OperandRegs) (v : Word) (r : OperandReg) :
    (o.set v r).get r = v := by cases r <;> rfl

theorem OperandRegs.get_set_other (o : OperandRegs) (v : Word) (r q : OperandReg) (h : q ≠ r) :
    (o.set v r).get q = o.get q := by
  revert h
  cases r <;> cases q <;> simp [OperandRegs.set, OperandRegs.get]

end Sys2Proof.Machine
end

