-- ==== Sys2Proof/Laws/Run.lean ====
section
/-! SUPPORT. What the shared operations of a command can do: the checks (60_exceptions.md R420), the
delivery of an output (R94), the completion (10_state.md R51), and `State.run` from its conditions
to its outcome. -/

namespace Sys2Proof.Machine

/-! ### Checks -/

theorem firstFailed_eq_none {l : List Check} :
    firstFailed l = none ↔ ∀ c ∈ l, c.passes = true := by
  induction l with
  | nil => simp [firstFailed]
  | cons c t ih =>
    simp only [firstFailed]
    by_cases h : c.passes = true <;> simp [h, ih]

/-- The first failure is that of one of the checks. -/
theorem firstFailed_mem {l : List Check} {c : Cause} (h : firstFailed l = some c) :
    ∃ k ∈ l, k.passes = false ∧ k.cause = c := by
  induction l with
  | nil => simp [firstFailed] at h
  | cons k t ih =>
    simp only [firstFailed] at h
    split at h
    · obtain ⟨q, hq, h1⟩ := ih h
      exact ⟨q, by simp [hq], h1⟩
    · exact ⟨k, by simp, by simp_all, by simpa using h⟩

theorem firstFailed_append {l q : List Check} :
    firstFailed (l ++ q) = (firstFailed l).or (firstFailed q) := by
  induction l with
  | nil => simp [firstFailed]
  | cons c t ih =>
    simp only [List.cons_append, firstFailed]
    split <;> simp [ih]

/-! ### Regions -/

theorem fits_iff {r : Region} : fits r = true ↔ r.base + r.size ≤ 2 ^ 32 := by
  simp only [fits, decide_eq_true_eq]
  exact Iff.rfl

theorem overlaps_eq_false {r q : Region} :
    overlaps r q = false ↔
      r.size = 0 ∨ q.size = 0 ∨ r.base + r.size ≤ q.base ∨ q.base + q.size ≤ r.base := by
  rw [← Bool.not_eq_true]
  simp only [overlaps, Bool.and_eq_true, decide_eq_true_eq]
  omega

theorem regionReadable_iff {p : Platform} {r : Region} :
    regionReadable p r = true ↔ ∀ j < r.size, readable p (r.base + j) = true := by
  simp [regionReadable]

theorem regionWritable_iff {p : Platform} {r : Region} :
    regionWritable p r = true ↔ ∀ j < r.size, writable p (r.base + j) = true := by
  simp [regionWritable]

theorem lt_of_readable {p : Platform} {a : Nat} (h : readable p a = true) : a < 2 ^ 32 := by
  simp only [readable, Bool.and_eq_true, decide_eq_true_eq] at h
  exact h.1

theorem lt_of_writable {p : Platform} {a : Nat} (h : writable p a = true) : a < 2 ^ 32 := by
  simp only [writable, Bool.and_eq_true, decide_eq_true_eq] at h
  exact h.1

@[simp] theorem State.fetch_length (s : State) (r : Region) : (s.fetch r).length = r.size := by
  simp [State.fetch]

@[simp] theorem State.input_length (s : State) (k : Source) :
    (s.input k).length = s.srcLen k := by
  simp [State.input, State.srcLen]

/-- Every register value is below 2^32 (R111). -/
theorem State.srcLen_lt (s : State) (k : Source) : s.srcLen k < 2 ^ 32 := by
  cases k <;> exact BitVec.isLt _

theorem State.dstLen_lt (s : State) : s.dstLen < 2 ^ 32 := BitVec.isLt _

/-- The region checks of a ready command pass (V6, V7). -/
theorem Ready.regionChecks {s : State} {i : Instr} (h : Ready s i) :
    ∀ c ∈ s.regionChecks i, c.passes = true := by
  intro c hc
  simp only [State.regionChecks, State.sources, List.mem_append, List.mem_map] at hc
  rcases hc with ⟨r, ⟨k, hk, rfl⟩, rfl⟩ | hc
  · exact fits_iff.2 (h.sourcesFit k hk)
  · split at hc
    · rename_i hd
      simp only [List.mem_cons, List.mem_map] at hc
      rcases hc with rfl | ⟨r, ⟨k, hk, rfl⟩, rfl⟩
      · exact fits_iff.2 (h.destFits hd)
      · have := overlaps_eq_false.2 (h.apart hd k hk)
        simp [this]
    · simp at hc

/-- The sources of a ready command are readable (V9). -/
theorem Ready.sourcesReadable_eq {s : State} {i : Instr} (h : Ready s i) :
    s.sourcesReadable i = true := by
  simp only [State.sourcesReadable, State.sources, List.all_eq_true, List.mem_map]
  rintro r ⟨k, hk, rfl⟩
  exact regionReadable_iff.2 (h.sourcesReadable k hk)

/-- A command is ready where its region checks pass and its sources are readable. -/
theorem Ready.of_checks {s : State} {i : Instr} (hc : s.engine.isRaced = false)
    (hf : firstFailed (s.regionChecks i) = none) (hr : s.sourcesReadable i = true) :
    Ready s i := by
  have hp := firstFailed_eq_none.1 hf
  simp only [State.regionChecks, State.sources, List.mem_append, List.mem_map] at hp
  refine ⟨hc, fun k hk => fits_iff.1 (hp _ (.inl ⟨_, ⟨k, hk, rfl⟩, rfl⟩)), fun hd => ?_,
    fun hd k hk => ?_, fun k hk => ?_⟩
  · exact fits_iff.1 (hp ⟨fits s.dest, .regionWrap⟩ (.inr (by simp [hd])))
  · have := hp ⟨!overlaps s.dest (s.source k), .regionOverlap⟩ (.inr (by
      simp only [hd, if_true, List.mem_cons, List.mem_map]
      exact .inr ⟨_, ⟨k, hk, rfl⟩, rfl⟩))
    exact overlaps_eq_false.1 (by simpa using this)
  · simp only [State.sourcesReadable, State.sources, List.all_eq_true, List.mem_map] at hr
    exact regionReadable_iff.1 (hr _ ⟨k, hk, rfl⟩)

/-! ### The verdict -/

/-- A ready command whose own checks pass ends with its content's outcome, delivered. -/
theorem State.verdict_of_ready {s : State} {i : Instr} {early memory : List Check}
    {content : Unit → Verdict} (h : Ready s i) (he : ∀ c ∈ early, c.passes = true)
    (hm : ∀ c ∈ memory, c.passes = true) :
    s.verdict i early memory content = s.deliver (content ()) := by
  have hf : firstFailed (early ++ s.regionChecks i ++ memory) = none := by
    rw [firstFailed_eq_none]
    intro c hc
    simp only [List.mem_append] at hc
    rcases hc with (hc | hc) | hc
    · exact he c hc
    · exact h.regionChecks c hc
    · exact hm c hc
  simp only [State.verdict, hf, h.sourcesReadable_eq, if_true]

/-- Everything a verdict can be: a cause of one of the checks, an unreadable source, or the content
delivered. -/
theorem State.verdict_cases (s : State) (i : Instr) (early memory : List Check)
    (content : Unit → Verdict) :
    (∃ c, firstFailed (early ++ s.regionChecks i ++ memory) = some c ∧
        s.verdict i early memory content = .raise c) ∨
      (firstFailed (early ++ s.regionChecks i ++ memory) = none ∧ s.sourcesReadable i = false ∧
        s.verdict i early memory content = .raise .busErrorRead) ∨
      (firstFailed (early ++ s.regionChecks i ++ memory) = none ∧ s.sourcesReadable i = true ∧
        s.verdict i early memory content = s.deliver (content ())) := by
  unfold State.verdict
  cases h : firstFailed (early ++ s.regionChecks i ++ memory) with
  | some c => simp
  | none => cases h2 : s.sourcesReadable i <;> simp

theorem State.deliver_finish {s : State} {out : Bytes} (h : CanWrite s out.length) :
    s.deliver (.finish out) = .finish out := by
  have : regionWritable s.platform ⟨s.operands.dstAddr.toNat, out.length⟩ = true :=
    regionWritable_iff.2 h
  simp [State.deliver, this]

theorem State.deliver_unwritable {s : State} {out : Bytes} (h : ¬CanWrite s out.length) :
    s.deliver (.finish out) = .writeFailed out.length := by
  have : ¬regionWritable s.platform ⟨s.operands.dstAddr.toNat, out.length⟩ = true := by
    rw [regionWritable_iff]
    exact h
  simp [State.deliver, this]

@[simp] theorem State.deliver_raise (s : State) (c : Cause) :
    s.deliver (.raise c) = .raise c := rfl

theorem canWrite_zero (s : State) : CanWrite s 0 := by
  intro j hj
  omega

/-! ### Completion -/

theorem Cause.resultClass_ok {c : Cause} : c.resultClass = .ok ↔ c = .none := by
  cases c <;> decide

theorem Cause.resultClass_verifyFail {c : Cause} : c.resultClass = .verifyFail ↔ c = .verify := by
  cases c <;> decide

theorem State.conclude_completed (s : State) (c : Cause) (n : Nat) (m : Memory) :
    Completed (s.conclude c n m) := ⟨rfl, rfl, rfl, rfl⟩

theorem State.conclude_undisturbed (s : State) (c : Cause) (n : Nat) (m : Memory) :
    Undisturbed s (s.conclude c n m) := ⟨rfl, rfl, rfl, rfl, rfl, rfl, rfl, rfl⟩

theorem State.conclude_paired (s : State) (c : Cause) (n : Nat) (m : Memory) :
    Paired (s.conclude c n m) where
  okIff := by simp [Cause.resultClass_ok]
  verifyIff := by simp [Cause.resultClass_verifyFail]
  classOf := rfl
  nothingWritten h := by
    simp only [State.conclude_result, ne_eq, Cause.resultClass_ok] at h
    simp [writtenWord_failed h]

/-- Every completion is a completion step with one cause. -/
theorem State.complete_conclude (s : State) (v : Verdict) :
    ∃ c n m, s.complete v = s.conclude c n m := by
  cases v <;> exact ⟨_, _, _, rfl⟩

/-- So is that of a raced command. -/
theorem State.completeRaced_conclude (s : State) (i : Instr) :
    ∃ c n m, s.completeRaced i = s.conclude c n m := by
  unfold State.completeRaced
  dsimp only
  split
  · exact ⟨_, _, _, rfl⟩
  · exact State.complete_conclude s _
  · exact State.complete_conclude s _

/-- A command that finishes with an output ends `OK` with it. -/
theorem State.complete_finish {s : State} {out : Bytes} (hm : s.mem.wf = true)
    (hd : s.dest.base + out.length ≤ 2 ^ 32) (hn : out.length < 2 ^ 32) :
    EndsOk s (s.complete (.finish out)) out where
  completed := State.conclude_completed ..
  result := rfl
  cause := rfl
  written := by
    simp only [State.complete, State.conclude_written, writtenWord_ok, BitVec.toNat_ofNat]
    exact Nat.mod_eq_of_lt hn
  bytes _ hk := Memory.read_writeBytes_inside hm hd hk
  elsewhere _ ha := Memory.read_writeBytes_outside ha
  undisturbed := State.conclude_undisturbed ..

/-- A command that raises a cause ends with it and writes nothing. -/
theorem State.complete_raise (s : State) (c : Cause) :
    EndsWith s (s.complete (.raise c)) c where
  completed := State.conclude_completed ..
  result := rfl
  cause := rfl
  written := by simp [State.complete]
  memory := rfl
  undisturbed := State.conclude_undisturbed ..

/-! ### A command -/

/-- What a command that is not raced does. -/
theorem State.run_calm {s : State} {i : Instr} {early memory : List Check}
    {content : Unit → Verdict} (h : s.engine.isRaced = false) :
    s.run i early memory content = .next (s.complete (s.verdict i early memory content)) := by
  simp [State.run, h]

/-- What a raced command does (U1). -/
theorem State.run_raced {s : State} {i : Instr} {early memory : List Check}
    {content : Unit → Verdict} (h : s.engine.isRaced = true) :
    s.run i early memory content = .next (s.completeRaced i) := by
  simp [State.run, h]

/-- A ready command whose checks pass and whose content is an output ends `OK` with it. -/
theorem State.run_endsOk {s : State} {i : Instr} {early memory : List Check}
    {content : Unit → Verdict} {out : Bytes} (hm : s.mem.wf = true) (h : Ready s i)
    (he : ∀ c ∈ early, c.passes = true) (hk : ∀ c ∈ memory, c.passes = true)
    (hc : content () = .finish out) (hw : CanWrite s out.length)
    (hd : s.dest.base + out.length ≤ 2 ^ 32) (hn : out.length < 2 ^ 32) :
    ∃ t, s.run i early memory content = .next t ∧ EndsOk s t out := by
  refine ⟨_, State.run_calm h.calm, ?_⟩
  rw [State.verdict_of_ready h he hk, hc, State.deliver_finish hw]
  exact State.complete_finish hm hd hn

/-- A ready command whose checks pass and whose content raises a cause ends with it. -/
theorem State.run_endsWith {s : State} {i : Instr} {early memory : List Check}
    {content : Unit → Verdict} {c : Cause} (h : Ready s i)
    (he : ∀ c ∈ early, c.passes = true) (hk : ∀ c ∈ memory, c.passes = true)
    (hc : content () = .raise c) :
    ∃ t, s.run i early memory content = .next t ∧ EndsWith s t c := by
  refine ⟨_, State.run_calm h.calm, ?_⟩
  rw [State.verdict_of_ready h he hk, hc, State.deliver_raise]
  exact State.complete_raise s c

/-- A command one of whose checks fails ends with the cause of the first. -/
theorem State.run_refused {s : State} {i : Instr} {early memory : List Check}
    {content : Unit → Verdict} {c : Cause} (h : s.engine.isRaced = false)
    (hf : firstFailed (early ++ s.regionChecks i ++ memory) = some c) :
    ∃ t, s.run i early memory content = .next t ∧ EndsWith s t c := by
  refine ⟨_, State.run_calm h, ?_⟩
  simp only [State.verdict, hf]
  exact State.complete_raise s c

/-- Every run of a command is a completion step with one cause. -/
theorem State.run_conclude (s : State) (i : Instr) (early memory : List Check)
    (content : Unit → Verdict) :
    ∃ c n m, s.run i early memory content = .next (s.conclude c n m) := by
  cases h : s.engine.isRaced with
  | true =>
    obtain ⟨c, n, m, e⟩ := State.completeRaced_conclude s i
    exact ⟨c, n, m, by rw [State.run_raced h, e]⟩
  | false =>
    obtain ⟨c, n, m, e⟩ := State.complete_conclude s (s.verdict i early memory content)
    exact ⟨c, n, m, by rw [State.run_calm h, e]⟩

/-- The same of every command: its meaning is one completion step. -/
theorem exec_conclude (i : Instr) (s : State) :
    ∃ c n m, exec i s = .next (s.conclude c n m) := by
  cases i <;> exact State.run_conclude ..

end Sys2Proof.Machine
end

