-- ==== Sys2Proof/Laws/Outputs.lean ====
section
/-! SUPPORT. Every command is one run of its checks and its content; what its content can be, and that
its output fits the destination (30_encoding.md R117; 60_exceptions.md R420, R421). -/

namespace Sys2Proof.Machine

/-- The causes that contents raise: V10 and V11 of R420. -/
def contentOnlyCauses : List Cause :=
  [.badPrivkey, .badPubkey, .badSigScalar, .badDer, .badPadding, .signFailed, .verify]

/-- A content that raises one of those causes, or gives an output that fits the destination where the
checks passed; a command without a destination has no output. -/
structure Content (s : State) (i : Instr) (early : List Check) (v : Verdict) : Prop where
  noWriteFailed : ∀ n, v ≠ .writeFailed n
  causes : ∀ c, v = .raise c → c ∈ contentOnlyCauses
  fits : ∀ out, (∀ c ∈ early, c.passes = true) → v = .finish out →
    out.length ≤ s.dstLen ∧ (usesDest i = false → out = [])

theorem Content.finish {s : State} {i : Instr} {early : List Check} {out : Bytes}
    (h : (∀ c ∈ early, c.passes = true) →
      out.length ≤ s.dstLen ∧ (usesDest i = false → out = [])) :
    Content s i early (.finish out) where
  noWriteFailed := by simp
  causes := by simp
  fits o ho e := by
    simp only [Verdict.finish.injEq] at e
    subst e
    exact h ho

theorem Content.raise {s : State} {i : Instr} {early : List Check} {c : Cause}
    (h : c ∈ contentOnlyCauses) : Content s i early (.raise c) where
  noWriteFailed := by simp
  causes := by
    intro c' e
    simp only [Verdict.raise.injEq] at e
    exact e ▸ h
  fits := by simp

theorem keyLenOk_cases {s : State} (h : s.keyLenOk.passes = true) :
    (s.input .src0).length = 16 ∨ (s.input .src0).length = 24 ∨ (s.input .src0).length = 32 := by
  simpa [State.keyLenOk] using h

theorem dstLenIs_fits {s : State} {i : Instr} {n : Nat} {out : Bytes} (hi : usesDest i = true)
    (ho : out.length = n) (h : ∀ c ∈ [s.dstLenIs n], c.passes = true) :
    out.length ≤ s.dstLen ∧ (usesDest i = false → out = []) := by
  simp [State.dstLenIs] at h
  simp [ho, h, hi]

/-- Every check has a cause. -/
def Caused (l : List Check) : Prop := ∀ c ∈ l, c.cause ≠ .none

/-- Every command is a run of checks that have causes, with a content that is a `Content`. -/
theorem exec_run (i : Instr) (s : State) : ∃ early memory content,
    exec i s = s.run i early memory content ∧ Caused (early ++ memory) ∧
      Content s i early (content ()) := by
  cases i
  case sha256 =>
    exact ⟨_, _, _, rfl, by simp [Caused, State.dstLenIs], .finish (dstLenIs_fits rfl (sha256_length _))⟩
  case sha256d =>
    exact ⟨_, _, _, rfl, by simp [Caused, State.dstLenIs], .finish (dstLenIs_fits rfl (sha256d_length _))⟩
  case sha512 =>
    exact ⟨_, _, _, rfl, by simp [Caused, State.dstLenIs], .finish (dstLenIs_fits rfl (sha512_length _))⟩
  case hmacSha256 =>
    exact ⟨_, _, _, rfl, by simp [Caused, State.dstLenIs], .finish (dstLenIs_fits rfl (hmacSha256_length _ _))⟩
  case hmacSha512 =>
    exact ⟨_, _, _, rfl, by simp [Caused, State.dstLenIs], .finish (dstLenIs_fits rfl (hmacSha512_length _ _))⟩
  case pbkdf2Sha256 => exact ⟨_, _, _, rfl, by simp [Caused, State.dstLenMultiple, State.costNonzero], .finish fun _ => by simp [usesDest]⟩
  case pbkdf2Sha512 => exact ⟨_, _, _, rfl, by simp [Caused, State.dstLenMultiple, State.costNonzero], .finish fun _ => by simp [usesDest]⟩
  case scrypt => exact ⟨_, _, _, rfl, by simp [Caused, scryptChecks], .finish fun _ => by simp [usesDest]⟩
  case aesEcbEncrypt =>
    refine ⟨_, _, _, rfl, by simp [Caused, State.ecbChecks, State.keyLenOk], .finish fun h => ?_⟩
    simp only [State.ecbChecks, List.mem_cons, List.not_mem_nil, or_false, forall_eq_or_imp,
      forall_eq] at h
    obtain ⟨h0, h1, h2⟩ := h
    simp [wholeBlocks] at h1 h2
    rw [ecbEncrypt_length (keyLenOk_cases h0) (by simpa using h1.2)]
    simp [h2, usesDest]
  case aesEcbDecrypt =>
    refine ⟨_, _, _, rfl, by simp [Caused, State.ecbChecks, State.keyLenOk], .finish fun h => ?_⟩
    simp only [State.ecbChecks, List.mem_cons, List.not_mem_nil, or_false, forall_eq_or_imp,
      forall_eq] at h
    obtain ⟨h0, h1, h2⟩ := h
    simp [wholeBlocks] at h1 h2
    rw [ecbDecrypt_length (keyLenOk_cases h0) (by simpa using h1.2)]
    simp [h2, usesDest]
  case aesCbcEncrypt =>
    refine ⟨_, _, _, rfl, by simp [Caused, State.cbcChecks, State.keyLenOk], .finish fun h => ?_⟩
    simp only [State.cbcChecks, List.cons_append, List.nil_append, List.mem_cons,
      List.not_mem_nil, or_false, forall_eq_or_imp, forall_eq] at h
    obtain ⟨h0, h1, _, h3⟩ := h
    simp at h1 h3
    rw [cbcEncrypt_length (keyLenOk_cases h0) (by simpa using h1)]
    simp [h3, usesDest]
  case aesCbcDecrypt =>
    refine ⟨_, _, _, rfl, by simp [Caused, State.cbcChecks, State.keyLenOk], ?_⟩
    split
    · rename_i m hm
      refine .finish fun h => ?_
      simp only [State.cbcChecks, List.cons_append, List.nil_append, List.mem_cons,
        List.not_mem_nil, or_false, forall_eq_or_imp, forall_eq] at h
      obtain ⟨h0, h1, h2, h3⟩ := h
      simp [wholeBlocks] at h1 h2 h3
      obtain ⟨e1, e2, _⟩ := pkcs7Strip_length hm
      rw [cbcDecBlocks_length (keyLenOk_cases h0) (by simpa using h1) (by simpa using h2.2),
        State.input_length] at e1
      exact ⟨by omega, by simp [usesDest]⟩
    · exact .raise (by decide)
  case ecPrivVerify =>
    refine ⟨_, _, _, rfl, by simp [Caused, State.srcLenIs], ?_⟩
    split
    · exact .finish fun _ => by simp
    · exact .raise (by decide)
  case ecPubFromPriv =>
    refine ⟨_, _, _, rfl, by simp [Caused, State.srcLenIs], ?_⟩
    split
    · refine .finish fun h => ?_
      simp at h
      simp [h, usesDest]
    · exact .raise (by decide)
  case ecPubDecompress =>
    refine ⟨_, _, _, rfl, by simp [Caused, State.srcLenIs], ?_⟩
    split
    · refine .finish fun h => ?_
      simp at h
      simp [h, usesDest]
    · exact .raise (by decide)
  case ecSignEcdsa =>
    refine ⟨_, _, _, rfl, by simp [Caused, State.signChecks, State.srcLenIs], ?_⟩
    split
    · split
      · rename_i sig hs
        refine .finish fun h => ?_
        simp [State.signChecks] at h
        rw [ecdsaSign_length hs]
        simp [h, usesDest]
      · exact .raise (by decide)
    · exact .raise (by decide)
  case ecSignSchnorr =>
    refine ⟨_, _, _, rfl, by simp [Caused, State.signChecks, State.srcLenIs], ?_⟩
    split
    · refine .finish fun h => ?_
      simp [State.signChecks] at h
      simp [h, usesDest]
    · exact .raise (by decide)
  case ecSigVerifyEcdsa =>
    refine ⟨_, _, _, rfl, by simp [Caused, State.verifyChecks, State.srcLenIs], ?_⟩
    split
    · exact .finish fun _ => by simp
    · exact .raise (by decide)
  case ecSigVerifySchnorr =>
    refine ⟨_, _, _, rfl, by simp [Caused, State.verifyChecks, State.srcLenIs], ?_⟩
    split
    · exact .finish fun _ => by simp
    · exact .raise (by decide)
  case ecSigNormalize =>
    refine ⟨_, _, _, rfl, by simp [Caused, State.srcLenIs], ?_⟩
    dsimp only
    split
    · refine .finish fun h => ?_
      simp at h
      simp [h, usesDest]
    · exact .raise (by decide)
  case ecSigToDer =>
    refine ⟨_, _, _, rfl, by simp [Caused, State.srcLenIs], ?_⟩
    dsimp only
    split
    · rename_i hs
      refine .finish fun h => ?_
      simp at h
      simp [scalarsOk, scalarInRange] at hs
      have hn : curveOrder < 2 ^ 256 := by decide
      have := sigToDer_length (r := sigR (s.input .src0)) (s := sigS (s.input .src0)) (by omega)
        (by omega) (by omega) (by omega)
      exact ⟨by omega, by simp [usesDest]⟩
    · exact .raise (by decide)
  case ecSigFromDer =>
    refine ⟨_, _, _, rfl, by simp [Caused], ?_⟩
    split
    · exact .raise (by decide)
    · split
      · refine .finish fun h => ?_
        simp at h
        simp [h, usesDest]
      · exact .raise (by decide)

end Sys2Proof.Machine
end

