-- ==== Sys2Proof/Laws/PerInstr.lean ====
section
/-! SUPPORT. A statement made of every command, with one lemma per command: the fields of its word
are those of a command (30_encoding.md R110 to R115). -/

namespace Sys2Proof.Laws

/-- The word of the command splits into fields that pass the checks V1 to V3. -/
def EncodingFields.Statement (i : Instr) : Prop :=
  (fieldsOf (encode i)).wellFormed = true ∧ fieldsOf (encode i) = i.fields

theorem EncodingFields.sha256 : EncodingFields.Statement .sha256 := by
  constructor <;> decide

theorem EncodingFields.sha256d : EncodingFields.Statement .sha256d := by
  constructor <;> decide

theorem EncodingFields.sha512 : EncodingFields.Statement .sha512 := by
  constructor <;> decide

theorem EncodingFields.hmacSha256 : EncodingFields.Statement .hmacSha256 := by
  constructor <;> decide

theorem EncodingFields.hmacSha512 : EncodingFields.Statement .hmacSha512 := by
  constructor <;> decide

theorem EncodingFields.pbkdf2Sha256 : EncodingFields.Statement .pbkdf2Sha256 := by
  constructor <;> decide

theorem EncodingFields.pbkdf2Sha512 : EncodingFields.Statement .pbkdf2Sha512 := by
  constructor <;> decide

theorem EncodingFields.scrypt : EncodingFields.Statement .scrypt := by
  constructor <;> decide

theorem EncodingFields.aesEcbEncrypt : EncodingFields.Statement .aesEcbEncrypt := by
  constructor <;> decide

theorem EncodingFields.aesEcbDecrypt : EncodingFields.Statement .aesEcbDecrypt := by
  constructor <;> decide

theorem EncodingFields.aesCbcEncrypt : EncodingFields.Statement .aesCbcEncrypt := by
  constructor <;> decide

theorem EncodingFields.aesCbcDecrypt : EncodingFields.Statement .aesCbcDecrypt := by
  constructor <;> decide

theorem EncodingFields.ecPrivVerify : EncodingFields.Statement .ecPrivVerify := by
  constructor <;> decide

theorem EncodingFields.ecPubFromPriv : EncodingFields.Statement .ecPubFromPriv := by
  constructor <;> decide

theorem EncodingFields.ecPubDecompress : EncodingFields.Statement .ecPubDecompress := by
  constructor <;> decide

theorem EncodingFields.ecSignEcdsa : EncodingFields.Statement .ecSignEcdsa := by
  constructor <;> decide

theorem EncodingFields.ecSignSchnorr : EncodingFields.Statement .ecSignSchnorr := by
  constructor <;> decide

theorem EncodingFields.ecSigVerifyEcdsa : EncodingFields.Statement .ecSigVerifyEcdsa := by
  constructor <;> decide

theorem EncodingFields.ecSigVerifySchnorr : EncodingFields.Statement .ecSigVerifySchnorr := by
  constructor <;> decide

theorem EncodingFields.ecSigNormalize : EncodingFields.Statement .ecSigNormalize := by
  constructor <;> decide

theorem EncodingFields.ecSigToDer : EncodingFields.Statement .ecSigToDer := by
  constructor <;> decide

theorem EncodingFields.ecSigFromDer : EncodingFields.Statement .ecSigFromDer := by
  constructor <;> decide

end Sys2Proof.Laws
end

