-- ==== Sys2Proof/Laws/Prime.lean ====
section
/-! SUPPORT. The field prime of 44_ec.md R310 is prime, by Lucas's test down to primes that trial
division decides, and so -7 is no cube modulo it (R313: `y = 0` never occurs). -/

namespace Sys2Proof.Machine

/-- Lucas's test over a list of the prime factors of `p - 1`. -/
theorem prime_of_powers {p : ℕ} (a : ZMod p) (l : List ℕ) (hl : l.prod = p - 1)
    (hp : ∀ q ∈ l, q.Prime) (h1 : a ^ (p - 1) = 1) (h : ∀ q ∈ l, a ^ ((p - 1) / q) ≠ 1) :
    p.Prime := by
  refine lucas_primality p a h1 fun q hq hd => ?_
  rw [← hl, hq.prime.dvd_prod_iff] at hd
  obtain ⟨r, hr, hqr⟩ := hd
  rw [(Nat.prime_dvd_prime_iff_eq hq (hp r hr)).1 hqr]
  exact h r hr

theorem prime_58_bits :
    Nat.Prime 173378833005251801 := by
  refine prime_of_powers 6
    [2, 2, 2, 5, 5, 2621, 24809, 13331831]
    (by norm_num) ?_ (by norm_num; reduce_mod_char) ?_
  · simp only [List.mem_cons, List.not_mem_nil, or_false, forall_eq_or_imp, forall_eq]
    norm_num
  · simp only [List.mem_cons, List.not_mem_nil, or_false, forall_eq_or_imp, forall_eq]
    norm_num
    reduce_mod_char!
    decide +kernel

theorem prime_75_bits :
    Nat.Prime 22149492674086928081353 := by
  refine prime_of_powers 5
    [2, 2, 2, 3, 5323, 173378833005251801]
    (by norm_num) ?_ (by norm_num; reduce_mod_char) ?_
  · simp only [List.mem_cons, List.not_mem_nil, or_false, forall_eq_or_imp, forall_eq]
    exact ⟨by norm_num, by norm_num, by norm_num, by norm_num, by norm_num, prime_58_bits⟩
  · simp only [List.mem_cons, List.not_mem_nil, or_false, forall_eq_or_imp, forall_eq]
    norm_num
    reduce_mod_char!
    decide +kernel

theorem prime_77_bits :
    Nat.Prime 132896956044521568488119 := by
  refine prime_of_powers 6
    [2, 3, 22149492674086928081353]
    (by norm_num) ?_ (by norm_num; reduce_mod_char) ?_
  · simp only [List.mem_cons, List.not_mem_nil, or_false, forall_eq_or_imp, forall_eq]
    exact ⟨by norm_num, by norm_num, prime_75_bits⟩
  · simp only [List.mem_cons, List.not_mem_nil, or_false, forall_eq_or_imp, forall_eq]
    norm_num
    reduce_mod_char!
    decide +kernel

theorem prime_128_bits :
    Nat.Prime 255515944373312847190720520512484175977 := by
  refine prime_of_powers 3
    [2, 2, 2, 7, 7, 11, 1627, 2657, 4423, 41201, 96557, 7240687, 107590001]
    (by norm_num) ?_ (by norm_num; reduce_mod_char) ?_
  · simp only [List.mem_cons, List.not_mem_nil, or_false, forall_eq_or_imp, forall_eq]
    norm_num
  · simp only [List.mem_cons, List.not_mem_nil, or_false, forall_eq_or_imp, forall_eq]
    norm_num
    reduce_mod_char!
    decide +kernel

theorem prime_237_bits :
    Nat.Prime 205115282021455665897114700593932402728804164701536103180137503955397371 := by
  refine prime_of_powers 10
    [2, 3, 5, 29, 29, 31, 7723, 132896956044521568488119, 255515944373312847190720520512484175977]
    (by norm_num) ?_ (by norm_num; reduce_mod_char) ?_
  · simp only [List.mem_cons, List.not_mem_nil, or_false, forall_eq_or_imp, forall_eq]
    exact ⟨by norm_num, by norm_num, by norm_num, by norm_num, by norm_num, by norm_num, by norm_num, prime_77_bits, prime_128_bits⟩
  · simp only [List.mem_cons, List.not_mem_nil, or_false, forall_eq_or_imp, forall_eq]
    norm_num
    reduce_mod_char!
    decide +kernel

theorem fieldPrime_literal_prime :
    Nat.Prime 115792089237316195423570985008687907853269984665640564039457584007908834671663 := by
  refine prime_of_powers 3
    [2, 3, 7, 13441, 205115282021455665897114700593932402728804164701536103180137503955397371]
    (by norm_num) ?_ (by norm_num; reduce_mod_char) ?_
  · simp only [List.mem_cons, List.not_mem_nil, or_false, forall_eq_or_imp, forall_eq]
    exact ⟨by norm_num, by norm_num, by norm_num, by norm_num, prime_237_bits⟩
  · simp only [List.mem_cons, List.not_mem_nil, or_false, forall_eq_or_imp, forall_eq]
    norm_num
    reduce_mod_char!
    decide +kernel

/-- R310: `p` is prime. -/
theorem fieldPrime_prime : fieldPrime.Prime := fieldPrime_literal_prime

theorem minus_seven_power : (-7 : ZMod fieldPrime) ^ ((fieldPrime - 1) / 3) ≠ 1 := by
  rw [fieldPrime]
  norm_num
  reduce_mod_char!
  decide +kernel

theorem zero_ne_minus_seven : (0 : ZMod fieldPrime) ^ 3 ≠ -7 := by decide +kernel

/-- R313: `x^3 + 7` is 0 modulo `p` for no `x`. -/
theorem cubic_ne_zero (x : ℕ) : (x * x * x + 7) % fieldPrime ≠ 0 := by
  intro h
  have : Fact fieldPrime.Prime := ⟨fieldPrime_prime⟩
  have hz : ((x * x * x + 7 : ℕ) : ZMod fieldPrime) = 0 :=
    (ZMod.natCast_eq_zero_iff _ _).2 (Nat.dvd_of_mod_eq_zero h)
  push_cast at hz
  have hc : (x : ZMod fieldPrime) ^ 3 = -7 := by linear_combination hz
  have hx : (x : ZMod fieldPrime) ≠ 0 := by
    intro h0
    rw [h0] at hc
    exact zero_ne_minus_seven hc
  refine minus_seven_power ?_
  rw [← hc, ← pow_mul]
  exact ZMod.pow_card_sub_one_eq_one hx

end Sys2Proof.Machine
end

