-- ==== Sys2Proof/Laws/Step.lean ====
section
/-! SUPPORT. Everything a step can do (60_exceptions.md R423): a completion, a register write, a reset,
or an event that leaves the block's registers alone. -/

namespace Sys2Proof.Machine

/-! ### Where the block sits (00_scope.md R7, 10_state.md R30) -/

theorem Platform.base_toNat (p : Platform) : p.base.toNat = 256 * p.basePage.toNat := by
  show (p.basePage ++ (0x00 : Byte)).toNat = _
  rw [BitVec.toNat_append, show (0x00 : Byte).toNat = 0 from rfl, Nat.or_zero, Nat.shiftLeft_eq,
    Nat.mul_comm]

/-- `BASE` is a multiple of 256. -/
theorem Platform.base_aligned (p : Platform) : p.base.toNat % 256 = 0 := by
  rw [Platform.base_toNat]
  omega

/-- The block is selected by the 256 addresses from `BASE` on, and by no others. -/
theorem State.selected_eq_some {s : State} {addr : Word} {off : Nat} :
    s.selected addr = some off ↔ off < 256 ∧ addr.toNat = s.platform.base.toNat + off := by
  have hb := Platform.base_toNat s.platform
  have hp := s.platform.basePage.isLt
  have ha := addr.isLt
  simp only [State.selected, Config.regSpan, BitVec.toNat_sub]
  by_cases h : (2 ^ 32 - s.platform.base.toNat + addr.toNat) % 2 ^ 32 < 256 <;>
    simp only [h, if_true, if_false, Option.some.injEq, reduceCtorEq, false_iff] <;> omega

/-- A bound on the nonce candidates is at least 1 (44_ec.md R333). -/
theorem Platform.nonceTriesMax_pos {p : Platform} {bound : Nat}
    (h : p.nonceTriesMax = some bound) : 1 ≤ bound := by
  simp only [Platform.nonceTriesMax, Option.map_eq_some_iff] at h
  omega

/-! ### Steps -/

/-- The registers and outputs of the block are as they were; the running command is the same, and at
most its race mark is set; the memory has at most the host's bytes, and free values in the outputs of
commands that raced. -/
structure SameRegisters (s t : State) : Prop where
  operands : t.operands = s.operands
  done : t.done = s.done
  werr : t.werr = s.werr
  ie : t.ie = s.ie
  result : t.result = s.result
  cause : t.cause = s.cause
  written : t.written = s.written
  lastcmd : t.lastcmd = s.lastcmd
  engine : t.engine = s.engine ∨ ∃ w raced, s.engine = .busy w raced ∧ t.engine = .busy w true
  workStore : t.workStore = s.workStore
  scryptStore : t.scryptStore = s.scryptStore
  resetAsserted : t.resetAsserted = s.resetAsserted ∨ t.resetAsserted = false
  memory : ∃ m draw outputs, t.mem = m.scrambleAll draw (writable s.platform) outputs ∧
    (m = s.mem ∨ ∃ a b, a + b.length ≤ 2 ^ 32 ∧ m = s.mem.writeBytes a b)

/-- What a step from `s` to `t` was. -/
inductive Stepped (s t : State) : Prop
  /-- The completion step of the word `w`. -/
  | completion (w : Word) (next : CompletionNext s w) (c : Cause) (n : Nat) (m : Memory)
      (result : t = (s.withInbox s.inbox.tail).conclude c n m)
  /-- `HostWrite(off, v)`. -/
  | write (off : Nat) (v : Word) (next : WriteNext s off v)
      (result : t = ((s.withInbox s.inbox.tail).hostWrite off v).respond .ack)
  /-- The assertion of reset. -/
  | reset (powerOn : Bool) (next : ResetNext s)
      (result : t = (s.withInbox s.inbox.tail).assertReset powerOn)
  /-- Anything else. -/
  | quiet (noCompletion : ∀ w, ¬CompletionNext s w) (noWrite : ∀ off v, ¬WriteNext s off v) (noReset : ¬ResetNext s)
      (result : SameRegisters s t)

theorem SameRegisters.of_same {s t : State} (he : t.engine = s.engine) (hm : t.mem = s.mem)
    (hr : t.resetAsserted = s.resetAsserted ∨ t.resetAsserted = false)
    (h : t.operands = s.operands ∧ t.done = s.done ∧ t.werr = s.werr ∧ t.ie = s.ie ∧
      t.result = s.result ∧ t.cause = s.cause ∧ t.written = s.written ∧ t.lastcmd = s.lastcmd ∧
      t.workStore = s.workStore ∧ t.scryptStore = s.scryptStore) : SameRegisters s t := by
  obtain ⟨h1, h2, h3, h4, h5, h6, h7, h8, h9, h10⟩ := h
  exact ⟨h1, h2, h3, h4, h5, h6, h7, h8, .inl he, h9, h10, hr, s.mem, 0, [], hm, .inl rfl⟩

/-- Taking the next event changes no register. -/
theorem SameRegisters.withInbox (s : State) (rest : List Event) :
    SameRegisters s (s.withInbox rest) :=
  .of_same rfl rfl (.inl rfl) ⟨rfl, rfl, rfl, rfl, rfl, rfl, rfl, rfl, rfl, rfl⟩

theorem WriteNext.inbox {s : State} {off : Nat} {v : Word} (h : WriteNext s off v) :
    ∃ addr lanes rest, s.inbox = .busWrite addr 1 lanes :: rest := by
  obtain ⟨-, addr, lanes, rest, hi, -⟩ := h
  exact ⟨addr, lanes, rest, hi⟩

/-- The next write is one write. -/
theorem WriteNext.unique {s : State} {off off' : Nat} {v v' : Word} (h : WriteNext s off v)
    (h' : WriteNext s off' v') : off = off' ∧ v = v' := by
  obtain ⟨-, a, l, r, hi, -, hv, hs, -⟩ := h
  obtain ⟨-, a', l', r', hi', -, hv', hs', -⟩ := h'
  rw [hi] at hi'
  cases hi'
  rw [hs] at hs'
  exact ⟨Option.some.inj hs', hv.symm.trans hv'⟩

theorem WriteNext.not_reset {s : State} {off : Nat} {v : Word} (h : WriteNext s off v) :
    ¬ResetNext s := by
  rintro ⟨p, r, hi⟩
  obtain ⟨a, l, r', hi'⟩ := h.inbox
  rw [hi] at hi'
  cases hi'

theorem EngineNext.not_event {s : State} {e : Event} {rest : List Event} (h : EngineNext s)
    (he : e ≠ .engine) (hi : s.inbox = e :: rest) : False := by
  rcases h with h | ⟨r, h⟩ <;> rw [hi] at h <;> cases h
  exact he rfl

theorem EngineNext.not_write {s : State} {off : Nat} {v : Word} (h : EngineNext s) :
    ¬WriteNext s off v := by
  intro hw
  obtain ⟨a, l, r, hi⟩ := hw.inbox
  rcases h with h | ⟨r', h⟩ <;> rw [hi] at h <;> cases h

theorem EngineNext.not_reset {s : State} (h : EngineNext s) : ¬ResetNext s := by
  rintro ⟨p, r, hi⟩
  rcases h with h | ⟨r', h⟩ <;> rw [hi] at h <;> cases h

/-- The engine's turn is a completion or nothing. -/
theorem engineTurn_stepped {s t : State} (hn : EngineNext s)
    (h : engineTurn (s.withInbox s.inbox.tail) = .next t) : Stepped s t := by
  have idle : (∀ w, ¬CompletionNext s w) → t = s.withInbox s.inbox.tail → Stepped s t := by
    rintro hc rfl
    exact .quiet hc (fun _ _ => hn.not_write) hn.not_reset (.withInbox ..)
  unfold engineTurn at h
  split at h
  · rename_i hr
    have hr : s.resetAsserted = true := hr
    exact idle (fun w hc => by simp [hc.1] at hr) (Host.Outcome.next.inj h).symm
  · rename_i hr
    split at h
    · rename_i he
      have he : s.engine = .idle := he
      refine idle (fun w hc => ?_) (Host.Outcome.next.inj h).symm
      obtain ⟨-, ⟨raced, hb⟩, -⟩ := hc
      rw [he] at hb
      cases hb
    · rename_i w raced he
      have hr : s.resetAsserted = false := by simpa using hr
      have hc : CompletionNext s w := ⟨hr, ⟨raced, he⟩, hn⟩
      split at h
      · rename_i i _
        obtain ⟨c, n, m, e⟩ := exec_conclude i (s.withInbox s.inbox.tail)
        rw [e] at h
        exact .completion w hc c n m (Host.Outcome.next.inj h).symm
      · exact .completion w hc _ _ _ (Host.Outcome.next.inj h).symm

theorem State.markRaced_engine_cases (s : State) : s.markRaced.engine = s.engine ∨
    ∃ w raced, s.engine = .busy w raced ∧ s.markRaced.engine = .busy w true := by
  unfold State.markRaced
  split
  · exact .inl rfl
  · rename_i w raced he
    exact .inr ⟨w, raced, he, rfl⟩

/-- What a race changes. -/
theorem SameRegisters.race {s₀ s : State} {races : State → Bool}
    (hm : s.mem = s₀.mem ∨ ∃ a b, a + b.length ≤ 2 ^ 32 ∧ s.mem = s₀.mem.writeBytes a b)
    (h : s.operands = s₀.operands ∧ s.done = s₀.done ∧ s.werr = s₀.werr ∧ s.ie = s₀.ie ∧
      s.result = s₀.result ∧ s.cause = s₀.cause ∧ s.written = s₀.written ∧
      s.lastcmd = s₀.lastcmd ∧ s.engine = s₀.engine ∧ s.workStore = s₀.workStore ∧
      s.scryptStore = s₀.scryptStore ∧ s.resetAsserted = s₀.resetAsserted ∧
      s.platform = s₀.platform) : SameRegisters s₀ (s.race races) := by
  obtain ⟨h1, h2, h3, h4, h5, h6, h7, h8, h9, h10, h11, h12, h13⟩ := h
  refine ⟨by simp [h1], by simp [h2], by simp [h3], by simp [h4], by simp [h5], by simp [h6],
    by simp [h7], by simp [h8], ?_, by simp [h10], by simp [h11], .inl (by simp [h12]),
    s.mem, s.draws, s.racedOutputs races, by simp [h13], hm⟩
  rw [State.race_engine, ← h9]
  split
  · exact s.markRaced_engine_cases
  · exact .inl rfl

/-- A bus write that is no `HostWrite` only answers. -/
theorem busWrite_stepped {s : State} {addr : Word} {beats : Nat} {lanes : Bytes}
    {rest : List Event} (hi : s.inbox = .busWrite addr beats lanes :: rest) :
    Stepped s ((s.withInbox rest).busWrite addr beats lanes) := by
  have hrest : rest = s.inbox.tail := by rw [hi]; rfl
  have quiet : (¬∃ off, s.resetAsserted = false ∧ s.selected addr = some off ∧
      alignedWord off beats lanes.length = true) → ∀ r,
      Stepped s ((s.withInbox rest).respond r) := by
    intro hno r
    refine .quiet (fun w hc => ?_) ?_ ?_ (.of_same rfl rfl (.inl rfl)
      ⟨rfl, rfl, rfl, rfl, rfl, rfl, rfl, rfl, rfl, rfl⟩)
    · exact hc.2.2.not_event (by simp) hi
    · rintro off v ⟨hr, a, l, q, hi', hl, -, hs, hm⟩
      rw [hi] at hi'
      cases hi'
      exact hno ⟨off, hr, hs, by simp [alignedWord, hl, hm]⟩
    · rintro ⟨p, q, hi'⟩
      rw [hi] at hi'
      cases hi'
  unfold State.busWrite
  split
  · rename_i hs
    have hs : s.selected addr = none := hs
    exact quiet (by simp [hs]) _
  · rename_i off hs
    have hs : s.selected addr = some off := hs
    split
    · rename_i hal
      split
      · rename_i hr
        have hr : s.resetAsserted = true := hr
        exact quiet (by simp [hr]) _
      · rename_i hr
        have released : s.resetAsserted = false := Bool.eq_false_iff.2 hr
        simp only [alignedWord, Bool.and_eq_true, beq_iff_eq] at hal
        obtain ⟨⟨rfl, hl⟩, hm⟩ := hal
        subst hrest
        exact .write off (wordOfLanes lanes) ⟨released, addr, lanes, s.inbox.tail, hi, hl, rfl, hs,
          hm⟩
          rfl
    · rename_i hal
      exact quiet (by simp [hs, hal]) _

/-- Everything a step can do. -/
theorem step_stepped {s t : State} (h : step s = .next t) : Stepped s t := by
  unfold step at h
  split at h
  · rename_i hi
    have hs : s.withInbox s.inbox.tail = s := by
      cases s
      simp only [State.withInbox, State.mk.injEq] at *
      simp [hi]
    rw [← hs] at h
    exact engineTurn_stepped (.inl hi) h
  · rename_i e rest hi
    have hrest : rest = s.inbox.tail := by rw [hi]; rfl
    have other : (∀ a b l, e ≠ .busWrite a b l) → (∀ p, e ≠ .resetAssert p) → e ≠ .engine →
        SameRegisters s t → Stepped s t := by
      intro hw hr he same
      refine .quiet (fun w hc => hc.2.2.not_event he hi) ?_ ?_ same
      · rintro off v hn
        obtain ⟨a, l, r, hi'⟩ := hn.inbox
        rw [hi] at hi'
        exact hw _ _ _ (List.cons.inj hi').1
      · rintro ⟨p, r, hi'⟩
        rw [hi] at hi'
        exact hr _ (List.cons.inj hi').1
    cases e with
    | busWrite addr beats lanes =>
      obtain rfl := Host.Outcome.next.inj h
      exact busWrite_stepped hi
    | busRead addr beats width =>
      obtain rfl := Host.Outcome.next.inj h
      refine other (by simp) (by simp) (by simp) ?_
      unfold State.busRead
      split
      · exact .of_same rfl rfl (.inl rfl) ⟨rfl, rfl, rfl, rfl, rfl, rfl, rfl, rfl, rfl, rfl⟩
      · split
        · split
          · exact .of_same rfl rfl (.inl rfl) ⟨rfl, rfl, rfl, rfl, rfl, rfl, rfl, rfl, rfl, rfl⟩
          · exact .of_same (by simp) (by simp) (.inl (by simp)) (by simp)
        · exact .of_same rfl rfl (.inl rfl) ⟨rfl, rfl, rfl, rfl, rfl, rfl, rfl, rfl, rfl, rfl⟩
    | memStore addr b =>
      refine other (by simp) (by simp) (by simp) ?_
      simp only [takeEvent] at h
      split at h
      · rename_i hb
        obtain rfl := Host.Outcome.next.inj h
        exact .race (s₀ := s) (s := { s.withInbox rest with mem := s.mem.writeBytes addr.toNat b }.respond .ack)
          (.inr ⟨addr.toNat, b, hb, rfl⟩) ⟨rfl, rfl, rfl, rfl, rfl, rfl, rfl, rfl, rfl, rfl, rfl, rfl, rfl⟩
      · cases h
    | memLoad addr n =>
      refine other (by simp) (by simp) (by simp) ?_
      simp only [takeEvent] at h
      split at h
      · obtain rfl := Host.Outcome.next.inj h
        exact .race (s₀ := s) (.inl rfl) ⟨rfl, rfl, rfl, rfl, rfl, rfl, rfl, rfl, rfl, rfl, rfl, rfl, rfl⟩
      · cases h
    | resetAssert p =>
      obtain rfl := Host.Outcome.next.inj h
      subst hrest
      exact .reset p ⟨p, _, hi⟩ rfl
    | resetRelease =>
      obtain rfl := Host.Outcome.next.inj h
      exact other (by simp) (by simp) (by simp) (.of_same rfl rfl (.inr rfl)
        ⟨rfl, rfl, rfl, rfl, rfl, rfl, rfl, rfl, rfl, rfl⟩)
    | engine =>
      subst hrest
      exact engineTurn_stepped (.inr ⟨_, hi⟩) h

end Sys2Proof.Machine
end

