-- ==== Sys2Proof/Tests/Slice0.lean ====
section
/-! SUPPORT. Tests: the smoke test of `WellFormed`, the decoder on words written out from
30_encoding.md, known answers (the numbers T<n> of 95_test_vectors.md), and for every statement with
hypotheses a theorem `meets_<Name>` that a small state meets them. -/

namespace Sys2Proof.Tests

set_option Elab.async false

open Sys2Proof Sys2Proof.Machine

/-! ### Small states -/

/-- `State.reset` with bytes at 0x1000 (SRC0), 0x2000 (SRC1) and 0x3000 (SRC2), DST at 0x4000. -/
def given (a b c : Bytes) (dst : Nat) (p0 p1 p2 : Nat := 0) : State :=
  { State.reset with
    mem := Memory.writeBytes (Memory.writeBytes (Memory.writeBytes [] 0x1000 a) 0x2000 b) 0x3000 c
    operands :=
      { src0Addr := 0x1000, src0Len := BitVec.ofNat 32 a.length,
        src1Addr := 0x2000, src1Len := BitVec.ofNat 32 b.length,
        src2Addr := 0x3000, src2Len := BitVec.ofNat 32 c.length,
        dstAddr := 0x4000, dstLen := BitVec.ofNat 32 dst,
        param0 := BitVec.ofNat 32 p0, param1 := BitVec.ofNat 32 p1, param2 := BitVec.ofNat 32 p2 } }

/-- An outcome is a next state of which `p` holds. -/
def nexts (o : Host.Outcome State Fault Refusal) (p : State → Bool) : Bool :=
  match o with
  | .next t => p t
  | .fault _ => false
  | .refused _ => false

theorem nexts_spec {o : Host.Outcome State Fault Refusal} {p : State → Bool}
    (h : nexts o p = true) : ∃ t, o = .next t ∧ p t = true := by
  cases o with
  | next t => exact ⟨t, rfl, h⟩
  | fault _ => simp [nexts] at h
  | refused _ => simp [nexts] at h

/-- The word, placed where the next step runs it, ends in a state of which `p` holds. -/
def runs (w : Nat) (s : State) (p : State → Bool) : Bool := nexts (step (s.withFetchWord 32 w)) p

/-- `STATUS` and `WRITTEN` as given, and the output bytes at DST. -/
def shows (status : Nat) (out : Bytes) (t : State) : Bool :=
  t.statusWord.toNat == status && t.written.toNat == out.length &&
    (List.range out.length).map (fun k => t.mem.read (0x4000 + k)) == out

/-- The host's next event is a register write. -/
def hostWrites (s : State) (off : Nat) (v : Word) : State :=
  { s with inbox := [.busWrite (0x40000000 + BitVec.ofNat 32 off) 1 (lanesOf v)] }

/-- A signer's operands: the private key, the hash 5; DST of 64 bytes. -/
def signer (d : Nat) : State := given (beBytes 32 d) (beBytes 32 5) [] 64

/-- The base point's compressed form. -/
def pubG : Bytes :=
  beBytes 33 0x0279be667ef9dcbbac55a06295ce870b07029bfcdb2dce28d959f2815b16f81798

/-- A busy block: SHA256 of three bytes issued. -/
def busySha : State := (given [0x61, 0x62, 0x63] [] [] 32).issue 0x00000001

/-! ### Well-formed fields -/

theorem test_opcode_unassigned_refused :
    CommandWord.opcodeAssigned ⟨0x04, 0x00, 0⟩ = false ∧
      CommandWord.wellFormed ⟨0x04, 0x00, 0⟩ = false := by decide
theorem test_reserved_bits_refused :
    CommandWord.reservedClear ⟨0x01, 0x00, 0x8000⟩ = false ∧
      CommandWord.wellFormed ⟨0x01, 0x00, 0x8000⟩ = false := by decide
theorem test_flags_refused :
    CommandWord.flagsLegal ⟨0x44, 0x03, 0⟩ = false ∧
      CommandWord.wellFormed ⟨0x44, 0x00, 0⟩ = false ∧
      CommandWord.wellFormed ⟨0x01, 0x01, 0⟩ = false := by decide
theorem test_fields_accepted : CommandWord.wellFormed ⟨0x32, 0x02, 0⟩ = true := by decide

/-! ### Decoding: `RSV`, `FLG`, `OPC` written out in bits from R110 to R113 -/

theorem test_decode_sha256 :
    decode 0b0000000000000000_00000000_00000001 = .ok .sha256 := by decide
theorem test_decode_sha256d :
    decode 0b0000000000000000_00000000_00000010 = .ok .sha256d := by decide
theorem test_decode_sha512 :
    decode 0b0000000000000000_00000000_00000011 = .ok .sha512 := by decide
theorem test_decode_hmac_sha256 :
    decode 0b0000000000000000_00000000_00010001 = .ok .hmacSha256 := by decide
theorem test_decode_hmac_sha512 :
    decode 0b0000000000000000_00000000_00010010 = .ok .hmacSha512 := by decide
theorem test_decode_pbkdf2_sha256 :
    decode 0b0000000000000000_00000000_00100001 = .ok .pbkdf2Sha256 := by decide
theorem test_decode_pbkdf2_sha512 :
    decode 0b0000000000000000_00000000_00100010 = .ok .pbkdf2Sha512 := by decide
theorem test_decode_scrypt :
    decode 0b0000000000000000_00000000_00101000 = .ok .scrypt := by decide
theorem test_decode_aes_ecb_encrypt :
    decode 0b0000000000000000_00000001_00110001 = .ok .aesEcbEncrypt := by decide
theorem test_decode_aes_ecb_decrypt :
    decode 0b0000000000000000_00000010_00110001 = .ok .aesEcbDecrypt := by decide
theorem test_decode_aes_cbc_encrypt :
    decode 0b0000000000000000_00000001_00110010 = .ok .aesCbcEncrypt := by decide
theorem test_decode_aes_cbc_decrypt :
    decode 0b0000000000000000_00000010_00110010 = .ok .aesCbcDecrypt := by decide
theorem test_decode_ec_priv_verify :
    decode 0b0000000000000000_00000000_01000001 = .ok .ecPrivVerify := by decide
theorem test_decode_ec_pub_from_priv :
    decode 0b0000000000000000_00000000_01000010 = .ok .ecPubFromPriv := by decide
theorem test_decode_ec_pub_decompress :
    decode 0b0000000000000000_00000000_01000011 = .ok .ecPubDecompress := by decide
theorem test_decode_ec_sign_ecdsa :
    decode 0b0000000000000000_00000001_01000100 = .ok .ecSignEcdsa := by decide
theorem test_decode_ec_sign_schnorr :
    decode 0b0000000000000000_00000010_01000100 = .ok .ecSignSchnorr := by decide
theorem test_decode_ec_sig_verify_ecdsa :
    decode 0b0000000000000000_00000001_01000101 = .ok .ecSigVerifyEcdsa := by decide
theorem test_decode_ec_sig_verify_schnorr :
    decode 0b0000000000000000_00000010_01000101 = .ok .ecSigVerifySchnorr := by decide
theorem test_decode_ec_sig_normalize :
    decode 0b0000000000000000_00000000_01000110 = .ok .ecSigNormalize := by decide
theorem test_decode_ec_sig_to_der :
    decode 0b0000000000000000_00000000_01000111 = .ok .ecSigToDer := by decide
theorem test_decode_ec_sig_from_der :
    decode 0b0000000000000000_00000000_01001000 = .ok .ecSigFromDer := by decide

/-- T81 to T84: the word, and the class and cause it ends with. -/
theorem test_words_that_are_no_command :
    [0x00000000, 0x00000004, 0x00000051, 0x000000FF, 0x00000029, 0xFFFF0000].map decode =
        List.replicate 6 (.error .illegalOpcode) ∧
      [0x00010001, 0x80000101].map decode = List.replicate 2 (.error .reservedBits) ∧
      [0x00000101, 0x00008001, 0x00000431, 0x00000031].map decode =
        List.replicate 4 (.error .badFlags) := by decide

theorem test_table_words : decodeTableWord 32 0x00000132 = some .aesCbcEncrypt ∧
    decodeTableWord 8 0x01 = some .sha256 ∧ decodeTableWord 32 0x00000004 = none ∧
    decodeLanes [0x44, 0x02, 0x00, 0x00] = some (.ok .ecSignSchnorr) := by decide

/-! ### Known answers -/

/-- T1. -/
theorem test_sha256_abc : runs 0x00000001 (given (beBytes 3 0x616263) [] [] 32)
    (shows 0x0002 (beBytes 32 0xba7816bf8f01cfea414140de5dae2223b00361a396177a9cb410ff61f20015ad))
      = true := by decide +kernel

/-- T4. -/
theorem test_sha256d_abc : runs 0x00000002 (given (beBytes 3 0x616263) [] [] 32)
    (shows 0x0002 (beBytes 32 0x4f8b42c22dd3729b519ba6f68d2da7cc5b2d606d05daed5ad5128cc03e6c6358))
      = true := by decide +kernel

/-- T6. -/
theorem test_sha512_abc : runs 0x00000003 (given (beBytes 3 0x616263) [] [] 64)
    (shows 0x0002 (beBytes 64
      0xddaf35a193617abacc417349ae20413112e6fa4e89a97ea20a9eeee64b55d39a2192992a274fc1a836ba3c23a3feebbd454d4423643ce80e2a9ac94fa54ca49f)) = true := by decide +kernel

/-- T12. -/
theorem test_hmac_sha256_jefe : runs 0x00000011 (given (beBytes 4 0x4a656665) (beBytes 28
      0x7768617420646f2079612077616e7420666f72206e6f7468696e673f) [] 32)
    (shows 0x0002 (beBytes 32 0x5bdcc146bf60754e6a042426089575c75a003f089d2739839dec58b964ec3843))
      = true := by decide +kernel

/-- T13. -/
theorem test_hmac_sha512_jefe : runs 0x00000012 (given (beBytes 4 0x4a656665) (beBytes 28
      0x7768617420646f2079612077616e7420666f72206e6f7468696e673f) [] 64)
    (shows 0x0002 (beBytes 64
      0x164b7a7bfcf819e2e395fbe73b56e0a387bd64222e831fd610270cd7ea2505549758bf75c05a994a6d034f65f8f0e6fdcaeab1a34d4a6b4b636e070a38bce737)) = true := by decide +kernel

/-- T20. -/
theorem test_pbkdf2_sha256_one_iteration : runs 0x00000021 (given (beBytes 8 0x70617373776f7264)
      (beBytes 4 0x73616c74) [] 32 1 0 0)
    (shows 0x0002 (beBytes 32 0x120fb6cffcf8b32c43e7225256c4f837a86548c92ccc35480805987cb70be17b))
      = true := by decide +kernel

/-- T25. -/
theorem test_pbkdf2_sha512_one_iteration : runs 0x00000022 (given (beBytes 8 0x70617373776f7264)
      (beBytes 4 0x73616c74) [] 64 1 0 0)
    (shows 0x0002 (beBytes 64
      0x867f70cf1ade02cff3752599a3a53dc4af34c7a669815ae5d513554e1c8cf252c02d470a285a0501bad999bfe943c08f050235d7d68b1da55e63f73b60a57fce)) = true := by decide +kernel

/-- T36. -/
theorem test_scrypt_one_byte_output : runs 0x00000028 (given [] [] [] 1 2 1 1)
    (shows 0x0002 (beBytes 1 0xfa)) = true := by decide +kernel

/-- T40. -/
theorem test_aes_ecb_encrypt_128 : runs 0x00000131 (given (beBytes 16
      0x102030405060708090a0b0c0d0e0f) (beBytes 16 0x112233445566778899aabbccddeeff) [] 16)
    (shows 0x0002 (beBytes 16 0x69c4e0d86a7b0430d8cdb78070b4c55a)) = true := by decide +kernel

/-- T40d. -/
theorem test_aes_ecb_decrypt_128 : runs 0x00000231 (given (beBytes 16
      0x102030405060708090a0b0c0d0e0f) (beBytes 16 0x69c4e0d86a7b0430d8cdb78070b4c55a) [] 16)
    (shows 0x0002 (beBytes 16 0x112233445566778899aabbccddeeff)) = true := by decide +kernel

/-- T41. -/
theorem test_aes_ecb_encrypt_192 : runs 0x00000131 (given (beBytes 24
      0x102030405060708090a0b0c0d0e0f1011121314151617) (beBytes 16
      0x112233445566778899aabbccddeeff) [] 16)
    (shows 0x0002 (beBytes 16 0xdda97ca4864cdfe06eaf70a0ec0d7191)) = true := by decide +kernel

/-- T41bd. -/
theorem test_aes_ecb_decrypt_256 : runs 0x00000231 (given (beBytes 32
      0x102030405060708090a0b0c0d0e0f101112131415161718191a1b1c1d1e1f) (beBytes 16
      0x8ea2b7ca516745bfeafc49904b496089) [] 16)
    (shows 0x0002 (beBytes 16 0x112233445566778899aabbccddeeff)) = true := by decide +kernel

/-- T44 (a). -/
theorem test_aes_cbc_encrypt_of_nothing : runs 0x00000132 (given (beBytes 16
      0x2b7e151628aed2a6abf7158809cf4f3c) (beBytes 16 0x102030405060708090a0b0c0d0e0f) [] 16)
    (shows 0x0002 (beBytes 16 0xc84af0b613435d5d9182801a9bd9320b)) = true := by decide +kernel

/-- T47 (d). -/
theorem test_aes_cbc_decrypt_one_padding_byte : runs 0x00000232 (given (beBytes 16
      0x2b7e151628aed2a6abf7158809cf4f3c) (beBytes 16 0x102030405060708090a0b0c0d0e0f) (beBytes 16
      0x9be1e579d107a136c031b645a88da750) 15)
    (shows 0x0002 (beBytes 15 0x6bc1bee22e409f96e93d7e11739317)) = true := by decide +kernel

/-- T47 (e). -/
theorem test_aes_cbc_decrypt_bad_padding : runs 0x00000232 (given (beBytes 16
      0x2b7e151628aed2a6abf7158809cf4f3c) (beBytes 16 0x102030405060708090a0b0c0d0e0f) (beBytes 16
      0x50fe67cc996d32b6da0937e99bafec60) 16)
    (shows 0x2412 []) = true := by decide +kernel

/-- T50 (b). -/
theorem test_priv_verify_largest_key : runs 0x00000041 (given (beBytes 32
      0xfffffffffffffffffffffffffffffffebaaedce6af48a03bbfd25e8cd0364140) [] [] 0)
    (shows 0x0002 []) = true := by decide +kernel

/-- T50 (c). -/
theorem test_priv_verify_zero : runs 0x00000041 (given (beBytes 32 0x0) [] [] 0)
    (shows 0x2012 []) = true := by decide +kernel

/-- T51 (a). -/
theorem test_pub_from_priv_one : runs 0x00000042 (given (beBytes 32 0x1) [] [] 33)
    (shows 0x0002 (beBytes 33 0x279be667ef9dcbbac55a06295ce870b07029bfcdb2dce28d959f2815b16f81798))
      = true := by decide +kernel

/-- T52 (b). -/
theorem test_pub_decompress_odd : runs 0x00000043 (given (beBytes 33
      0x379be667ef9dcbbac55a06295ce870b07029bfcdb2dce28d959f2815b16f81798) [] [] 65)
    (shows 0x0002 (beBytes 65
      0x479be667ef9dcbbac55a06295ce870b07029bfcdb2dce28d959f2815b16f81798b7c52588d95c3b9aa25b0403f1eef75702e84bb7597aabe663b82f6f04ef2777)) = true := by decide +kernel

/-- T52 (d). -/
theorem test_pub_decompress_bad_tag : runs 0x00000043 (given (beBytes 33
      0x479be667ef9dcbbac55a06295ce870b07029bfcdb2dce28d959f2815b16f81798) [] [] 65)
    (shows 0x2112 []) = true := by decide +kernel

/-- T59 (d). -/
theorem test_normalize_just_high : runs 0x00000046 (given (beBytes 64
      0x934b1ea10a4b3c1757e2b0c017d0b6143ce3c9a7e6a4a49860d7a6ab210ee3d87fffffffffffffffffffffffffffffff5d576e7357a4501ddfe92f46681b20a1) [] [] 64)
    (shows 0x0002 (beBytes 64
      0x934b1ea10a4b3c1757e2b0c017d0b6143ce3c9a7e6a4a49860d7a6ab210ee3d87fffffffffffffffffffffffffffffff5d576e7357a4501ddfe92f46681b20a0)) = true := by decide +kernel

/-- T59 (f). -/
theorem test_normalize_zero_s : runs 0x00000046 (given (beBytes 64
      0x934b1ea10a4b3c1757e2b0c017d0b6143ce3c9a7e6a4a49860d7a6ab210ee3d80000000000000000000000000000000000000000000000000000000000000000) [] [] 64)
    (shows 0x2212 []) = true := by decide +kernel

/-- T60 (b). -/
theorem test_to_der_shortest : runs 0x00000047 (given (beBytes 64
      0x10000000000000000000000000000000000000000000000000000000000000001) [] [] 72)
    (shows 0x0002 (beBytes 8 0x3006020101020101)) = true := by decide +kernel

/-- T61 (b). -/
theorem test_from_der_shortest : runs 0x00000048 (given (beBytes 8 0x3006020101020101) [] [] 64)
    (shows 0x0002 (beBytes 64 0x10000000000000000000000000000000000000000000000000000000000000001))
      = true := by decide +kernel

/-- T61 (e). -/
theorem test_from_der_not_minimal : runs 0x00000048 (given (beBytes 9 0x300702020001020101) [] []
      64)
    (shows 0x2312 []) = true := by decide +kernel

/-- T55's nonce: the first candidate for key 1 and the hash of "Satoshi Nakamoto". -/
theorem test_first_nonce_candidate :
    beNat (nonceInit 1
      (beBytes 32 0xa0dc65ffca799873cbea0ac274015b9526505daaaed385155425f7337704883e)).candidate =
      0x8f8a276c19f4149656b280621e358cce24f5f52542772691ee69063b74f15d15 := by decide +kernel

/-- R331 by hand: key 7, hash 5, nonce 2; `s` comes out high and is lowered. -/
theorem test_ecdsa_with_nonce_two : ecdsaWithNonce 7 (beBytes 32 5) 2 =
    some (beBytes 32 0xc6047f9441ed7d6d3045406e95c07cd85c778e4b8cef3ca7abac09b95c709ee5 ++
      beBytes 32 0x4af041791940c901d70d9e7cf3de4b06ec6a24aba0948c68669cf99dad18979f) := by
  decide +kernel

/-- R340 by hand: for the public key G, the hash `2 s` and `s = r / 3`, the point is `2 G + 3 G`. -/
def verified (tag : Byte) : State :=
  given (tag :: pubG.drop 1)
    (beBytes 32 0xca5d3ede115a15b78e786f6e06e8361a6cd1966db2717ca25cfccd4f01a4cb6e)
    (beBytes 32 0x2f8bde4d1a07209355b4a7250a5c5128e88b84bddc619ab7cba8d569b240efe4 ++
      beBytes 32 0x652e9f6f08ad0adbc73c37b703741b0d3668cb36d938be512e7e66a780d265b7) 0

theorem test_verify_accepts : runs 0x00000145 (verified 0x02) (shows 0x0002 []) = true := by
  decide +kernel

/-- The negated key, and one that does not parse: both are failed verifications (R342, R388). -/
theorem test_verify_rejects : runs 0x00000145 (verified 0x03) (shows 0x4022 []) = true ∧
    runs 0x00000145 (verified 0x04) (shows 0x4022 []) = true ∧
    runs 0x00000245 (verified 0x04) (shows 0x4022 []) = true := by decide +kernel

/-- The key `n` is refused (R334). -/
theorem test_sign_schnorr_bad_key :
    runs 0x00000244 (signer curveOrder) (shows 0x2012 []) = true := by decide +kernel

/-- T85 (a), T86 (a), T86 (b), T87 (b), T88 (a): the check order. -/
theorem test_check_order :
    runs 0x00000132 (given (beBytes 15 0) (beBytes 15 0) [] 16) (shows 0x1012 []) = true ∧
    runs 0x00000001 { State.reset with operands := { OperandRegs.reset with
      src0Addr := 0xFFFFFFF0, src0Len := 32, dstAddr := 0x4000, dstLen := 31 } }
      (shows 0x1312 []) = true ∧
    runs 0x00000001 { State.reset with operands := { OperandRegs.reset with
      src0Addr := 0xFFFFFFF0, src0Len := 32, dstAddr := 0x4000, dstLen := 32 } }
      (shows 0x1812 []) = true ∧
    runs 0x00000001 { State.reset with operands := { OperandRegs.reset with
      src0Addr := 0x1000, src0Len := 3, dstAddr := 0xFFFFFFE1, dstLen := 32 } }
      (shows 0x1812 []) = true ∧
    runs 0x00000001 { State.reset with operands := { OperandRegs.reset with
      src0Addr := 0x1000, src0Len := 3, dstAddr := 0x0FE1, dstLen := 32 } }
      (shows 0x1912 []) = true := by decide +kernel

/-- T83 (c): a word that is no command, run. -/
theorem test_reserved_word_runs :
    runs 0x80000101 (given [] [] [] 32) (shows 0x0212 []) = true := by decide +kernel

/-! ### The host's accesses -/

/-- T91: a write of `CMD` or of an operand while busy only sets `WERR`. -/
theorem test_busy_write_sets_werr :
    nexts (step (hostWrites busySha 0x04 0x00000002))
      (fun t => t.hostRead 0x08 == 0x00000005 && t.hostRead 0x40 == 0x00000001) = true ∧
    nexts (step (hostWrites busySha 0x38 7))
      (fun t => t.hostRead 0x08 == 0x00000005 && t.hostRead 0x38 == 0) = true := by decide +kernel

/-- T94: a reserved offset, busy: read as zero, write ignored. -/
theorem test_reserved_offset :
    nexts (step (hostWrites busySha 0x44 0xFFFFFFFF))
      (fun t => t.hostRead 0x08 == 0x00000001 && t.hostRead 0x44 == 0) = true := by decide +kernel

/-- T92, T93: bits 1 and 2 of `STATUS` acknowledge; bit 0 of `CTRL` is kept. -/
theorem test_acknowledge :
    nexts (step (hostWrites { State.reset with done := true, werr := true, ie := true } 0x08 2))
      (fun t => t.hostRead 0x08 == 4 && !t.irq) = true ∧
    nexts (step (hostWrites { State.reset with done := true } 0x0C 0xFFFFFFFF))
      (fun t => t.hostRead 0x0C == 1 && t.irq) = true := by decide +kernel

/-! ### The statements' hypotheses are met -/

/-- The decidable form of "canonical memory, ready, the output writable". -/
def fit (s : State) (i : Instr) (n : Nat) : Bool :=
  s.mem.wf && !s.engine.isRaced && (firstFailed (s.regionChecks i)).isNone &&
    s.sourcesReadable i && regionWritable s.platform ⟨s.operands.dstAddr.toNat, n⟩

theorem fit_spec {s : State} {i : Instr} {n : Nat} (h : fit s i n = true) :
    s.mem.wf = true ∧ Ready s i ∧ CanWrite s n := by
  simp only [fit, Bool.and_eq_true, Bool.not_eq_true', Option.isNone_iff_eq_none] at h
  obtain ⟨⟨⟨⟨hm, hc⟩, hf⟩, hr⟩, hw⟩ := h
  exact ⟨hm, Ready.of_checks hc hf hr, regionWritable_iff.1 hw⟩

theorem meets_StepRunsTheDecodedCommand :
    (busySha.resetAsserted = false ∧ busySha.engine = .busy 0x00000001 false ∧
      decode 0x00000001 = .ok .sha256 ∧ busySha.inbox = [] ∧
      (busySha.withInbox [.engine]).inbox = [.engine]) ∧
    (State.reset.engine = .idle ∧ State.reset.inbox = []) ∧
    (State.reset.assertReset true).resetAsserted = true ∧
    decode (BitVec.ofNat 32 (0x00000048 % 2 ^ 32)) = .ok .ecSigFromDer := by decide +kernel

/-- The completion step is next in a busy block. -/
theorem completionNext_busySha : CompletionNext busySha 0x00000001 :=
  ⟨rfl, ⟨false, rfl⟩, .inl rfl⟩

theorem meets_EveryWordExecutesOrIsRefused :
    CompletionNext busySha 0x00000001 ∧ CompletionNext (State.reset.issue 0) 0 ∧
      CompletionNext ((State.reset.issue 0xFFFF0001).withInbox [.engine]) 0xFFFF0001 :=
  ⟨completionNext_busySha, ⟨rfl, ⟨false, rfl⟩, .inl rfl⟩, ⟨rfl, ⟨false, rfl⟩, .inr ⟨[], rfl⟩⟩⟩

theorem meets_DigestResults :
    (∃ s : State, (s.mem.wf = true ∧ Ready s .sha256 ∧ CanWrite s 32) ∧ s.dstLen = 32) ∧
    (∃ s : State, (s.mem.wf = true ∧ Ready s .sha256d ∧ CanWrite s 32) ∧ s.dstLen = 32) ∧
    ∃ s : State, (s.mem.wf = true ∧ Ready s .sha512 ∧ CanWrite s 64) ∧ s.dstLen = 64 :=
  ⟨⟨given [] [] [] 32, fit_spec (by decide +kernel), by decide⟩,
    ⟨given [0x61] [] [] 32, fit_spec (by decide +kernel), by decide⟩,
    ⟨given [0x61] [] [] 64, fit_spec (by decide +kernel), by decide⟩⟩

theorem meets_MacResults :
    (∃ s : State, (s.mem.wf = true ∧ Ready s .hmacSha256 ∧ CanWrite s 32) ∧ s.dstLen = 32) ∧
    ∃ s : State, (s.mem.wf = true ∧ Ready s .hmacSha512 ∧ CanWrite s 64) ∧ s.dstLen = 64 :=
  ⟨⟨given [] [] [] 32, fit_spec (by decide +kernel), by decide⟩,
    ⟨given [0x61] [0x62] [] 64, fit_spec (by decide +kernel), by decide⟩⟩

theorem meets_Pbkdf2Results :
    (∃ s : State, (s.mem.wf = true ∧ Ready s .pbkdf2Sha256 ∧ CanWrite s s.dstLen) ∧
      s.operands.param0 ≠ 0 ∧ s.dstLen ≠ 0 ∧ s.dstLen % 32 = 0) ∧
    ∃ s : State, (s.mem.wf = true ∧ Ready s .pbkdf2Sha512 ∧ CanWrite s s.dstLen) ∧
      s.operands.param0 ≠ 0 ∧ s.dstLen ≠ 0 ∧ s.dstLen % 64 = 0 :=
  ⟨⟨given [] [] [] 32 1, fit_spec (by decide +kernel), by decide⟩,
    ⟨given [0x61] [0x62] [] 128 0xFFFFFFFF, fit_spec (by decide +kernel), by decide⟩⟩

theorem meets_ScryptResult :
    ∃ (s : State) (k : Nat), (s.mem.wf = true ∧ Ready s .scrypt ∧ CanWrite s s.dstLen) ∧
      s.dstLen ≠ 0 ∧ s.operands.param0.toNat = 2 ^ (k + 1) ∧ 1 ≤ s.operands.param1.toNat ∧
      1 ≤ s.operands.param2.toNat ∧
      128 * s.operands.param1.toNat * s.operands.param0.toNat ≤ 2 ^ 32 - 1 ∧
      128 * s.operands.param1.toNat * s.operands.param2.toNat ≤ 2 ^ 32 - 1 ∧
      128 * s.operands.param1.toNat * s.operands.param0.toNat +
        128 * s.operands.param1.toNat * s.operands.param2.toNat +
        256 * s.operands.param1.toNat ≤ s.platform.scryptMemBytes :=
  ⟨given [] [] [] 1 2 1 1, 0, fit_spec (by decide +kernel), by decide⟩

theorem meets_EcbResults :
    (∃ s : State, (s.mem.wf = true ∧ Ready s .aesEcbEncrypt ∧ CanWrite s s.dstLen) ∧
      s.srcLen .src0 ∈ [16, 24, 32] ∧ s.srcLen .src1 ≠ 0 ∧ s.srcLen .src1 % 16 = 0 ∧
      s.dstLen = s.srcLen .src1) ∧
    ∃ s : State, (s.mem.wf = true ∧ Ready s .aesEcbDecrypt ∧ CanWrite s s.dstLen) ∧
      s.srcLen .src0 ∈ [16, 24, 32] ∧ s.srcLen .src1 ≠ 0 ∧ s.srcLen .src1 % 16 = 0 ∧
      s.dstLen = s.srcLen .src1 :=
  ⟨⟨given (beBytes 16 1) (beBytes 16 2) [] 16, fit_spec (by decide +kernel), by decide⟩,
    ⟨given (beBytes 32 1) (beBytes 32 2) [] 32, fit_spec (by decide +kernel), by decide⟩⟩

theorem meets_CbcEncryptResult :
    ∃ s : State, (s.mem.wf = true ∧ Ready s .aesCbcEncrypt ∧
        CanWrite s (16 * (s.srcLen .src2 / 16) + 16)) ∧
      s.srcLen .src0 ∈ [16, 24, 32] ∧ s.srcLen .src1 = 16 ∧ s.srcLen .src2 ≤ 2 ^ 32 - 17 ∧
      16 * (s.srcLen .src2 / 16) + 16 ≤ s.dstLen :=
  ⟨given (beBytes 24 1) (beBytes 16 2) [] 16, fit_spec (by decide +kernel), by decide⟩

/-- T47 (c): 16 bytes of padding and nothing else. -/
theorem meets_CbcDecryptResult :
    ∃ (s : State) (m : Bytes), (s.mem.wf = true ∧ Ready s .aesCbcDecrypt ∧ CanWrite s m.length) ∧
      s.srcLen .src0 ∈ [16, 24, 32] ∧ s.srcLen .src1 = 16 ∧ s.srcLen .src2 ≠ 0 ∧
      s.srcLen .src2 % 16 = 0 ∧ s.srcLen .src2 - 1 ≤ s.dstLen ∧
      cbcDecrypt (s.input .src0) (s.input .src1) (s.input .src2) = some m :=
  ⟨given (beBytes 16 0x2b7e151628aed2a6abf7158809cf4f3c)
    (beBytes 16 0x000102030405060708090a0b0c0d0e0f)
    (beBytes 16 0xc84af0b613435d5d9182801a9bd9320b) 15, [], fit_spec (by decide +kernel),
    by decide +kernel⟩

/-- The smallest key and the largest. -/
theorem meets_PrivateKeyResults :
    (∃ s : State, (s.mem.wf = true ∧ Ready s .ecPrivVerify ∧ CanWrite s 0) ∧
      s.srcLen .src0 = 32 ∧ 1 ≤ beNat (s.input .src0) ∧ beNat (s.input .src0) < curveOrder) ∧
    ∃ s : State, (s.mem.wf = true ∧ Ready s .ecPubFromPriv ∧ CanWrite s 33) ∧
      s.srcLen .src0 = 32 ∧ 1 ≤ beNat (s.input .src0) ∧ beNat (s.input .src0) < curveOrder ∧
      s.dstLen = 33 :=
  ⟨⟨given (beBytes 32 1) [] [] 0, fit_spec (by decide +kernel), by decide +kernel⟩,
    ⟨given (beBytes 32 (curveOrder - 1)) [] [] 33, fit_spec (by decide +kernel),
      by decide +kernel⟩⟩

theorem meets_PubDecompressResult :
    ∃ (s : State) (x y : Nat), (s.mem.wf = true ∧ Ready s .ecPubDecompress ∧ CanWrite s 65) ∧
      s.srcLen .src0 = 33 ∧ s.dstLen = 65 ∧ parseCompressed (s.input .src0) = some (x, y) :=
  ⟨given pubG [] [] 65, basePoint.xCoord, basePoint.yCoord, fit_spec (by decide +kernel),
    by decide +kernel⟩

/-- The platform of `State.reset` bounds no search, so there is a signature; the key is 1. -/
theorem meets_EcdsaSignResult :
    ((signer 1).mem.wf = true ∧ Ready (signer 1) .ecSignEcdsa ∧ CanWrite (signer 1) 64) ∧
      ((signer 1).srcLen .src0 = 32 ∧ (signer 1).srcLen .src1 = 32 ∧ (signer 1).dstLen = 64 ∧
        1 ≤ beNat ((signer 1).input .src0) ∧ beNat ((signer 1).input .src0) < curveOrder) ∧
      (signer 1).platform.nonceTriesMax = none ∧
      ∃ sig, ecdsaSign none (beNat ((signer 1).input .src0)) ((signer 1).input .src1) = some sig :=
  ⟨fit_spec (by decide +kernel), by decide +kernel, rfl, _, rfl⟩

theorem meets_SchnorrSignResult :
    ((signer (curveOrder - 1)).mem.wf = true ∧ Ready (signer (curveOrder - 1)) .ecSignSchnorr ∧
        CanWrite (signer (curveOrder - 1)) 64) ∧
      (signer (curveOrder - 1)).srcLen .src0 = 32 ∧ (signer (curveOrder - 1)).srcLen .src1 = 32 ∧
      (signer (curveOrder - 1)).dstLen = 64 ∧
      1 ≤ beNat ((signer (curveOrder - 1)).input .src0) ∧
      beNat ((signer (curveOrder - 1)).input .src0) < curveOrder :=
  ⟨fit_spec (by decide +kernel), by decide +kernel⟩

/-- The scheme's own signature under the key G, whatever it is. -/
def schnorrSigned : State :=
  given pubG (beBytes 32 5) (beBytes 64 (Config.schnorrSignature pubG (beBytes 32 5)).toNat) 0

/-- A region reads as the bytes that stand in memory, where no address is a device's. -/
theorem fetch_eq {s : State} {r : Region} {b : Bytes} (hd : s.platform.deviceMap = [])
    (hr : r.size = b.length) (h : ∀ k < b.length, s.mem.read (r.base + k) = b.getD k 0) :
    s.fetch r = b := by
  refine List.ext_getElem (by simp [State.fetch, hr]) fun k h1 h2 => ?_
  have := h k h2
  rw [List.getD_eq_getElem?_getD, List.getElem?_eq_getElem h2, Option.getD_some] at this
  simpa [State.fetch, State.fetchByte, isDevice, hd] using this

/-- The memory of `schnorrSigned` before its signature. -/
def unsignedMem : Memory :=
  Memory.writeBytes (Memory.writeBytes [] 0x1000 pubG) 0x2000 (beBytes 32 5)

theorem given_mem (a b c : Bytes) (n : Nat) : (given a b c n).mem =
    Memory.writeBytes (Memory.writeBytes (Memory.writeBytes [] 0x1000 a) 0x2000 b) 0x3000 c := rfl

theorem schnorrSigned_mem : schnorrSigned.mem = Memory.writeBytes unsignedMem 0x3000
    (beBytes 64 (Config.schnorrSignature pubG (beBytes 32 5)).toNat) := by
  rw [schnorrSigned, given_mem, unsignedMem]

theorem unsignedMem_wf : unsignedMem.wf = true := by decide +kernel

theorem schnorrSigned_inputs : schnorrSigned.input .src0 = pubG ∧
    schnorrSigned.input .src1 = beBytes 32 5 ∧ schnorrSigned.input .src2 =
      beBytes 64 (Config.schnorrSignature pubG (beBytes 32 5)).toNat := by
  have h0 : ∀ k < 33, unsignedMem.read (0x1000 + k) = pubG.getD k 0 := by decide +kernel
  have h1 : ∀ k < 32, unsignedMem.read (0x2000 + k) = (beBytes 32 5).getD k 0 := by
    decide +kernel
  refine ⟨fetch_eq rfl (by decide +kernel) fun k hk => ?_,
    fetch_eq rfl (by decide +kernel) fun k hk => ?_,
    fetch_eq rfl (by decide +kernel) fun k hk => ?_⟩
  · have hk' : k < 33 := by simpa [pubG] using hk
    rw [schnorrSigned_mem]
    exact (Memory.read_writeBytes_outside (.inl (by show 0x1000 + k < 0x3000; omega))).trans
      (h0 k hk')
  · have hk' : k < 32 := by simpa using hk
    rw [schnorrSigned_mem]
    exact (Memory.read_writeBytes_outside (.inl (by show 0x2000 + k < 0x3000; omega))).trans
      (h1 k hk')
  · rw [schnorrSigned_mem]
    exact Memory.read_writeBytes_inside unsignedMem_wf (by rw [beBytes_length]; decide) hk

theorem meets_VerifyResults :
    (∃ (s : State) (x y : Nat), (s.mem.wf = true ∧ Ready s .ecSigVerifyEcdsa ∧ CanWrite s 0) ∧
      s.srcLen .src0 = 33 ∧ s.srcLen .src1 = 32 ∧ s.srcLen .src2 = 64 ∧
      parseCompressed (s.input .src0) = some (x, y) ∧
      ecdsaVerify (.affine x y) (s.input .src1) (s.input .src2) = true) ∧
    ∃ s : State, s.mem.wf = true ∧ Ready s .ecSigVerifySchnorr ∧
      s.srcLen .src0 = 33 ∧ s.srcLen .src1 = 32 ∧ s.srcLen .src2 = 64 ∧
      schnorrVerify (s.input .src0) (s.input .src1) (s.input .src2) = true := by
  refine ⟨⟨verified 0x02, basePoint.xCoord, basePoint.yCoord, fit_spec (by decide +kernel),
    by decide +kernel⟩, schnorrSigned, ?_, ?_, by decide +kernel, by decide +kernel,
    by decide +kernel, ?_⟩
  · rw [schnorrSigned_mem]
    exact Memory.wf_writeBytes unsignedMem_wf (by rw [beBytes_length]; decide)
  · exact Ready.of_checks rfl (by decide +kernel) (by decide +kernel)
  · obtain ⟨h0, h1, h2⟩ := schnorrSigned_inputs
    have hp : (parseCompressed pubG).isSome = true := by decide +kernel
    rw [h0, h1, h2, schnorrVerify, hp]
    simp

/-- A signature of two scalars; DST of `n` bytes. -/
def scalars (r v n : Nat) : State := given (compactSig r v) [] [] n

/-- `s` just low, just high, and the extremes. -/
theorem meets_NormalizeResult : ∀ p ∈ [(1, halfOrder), (curveOrder - 1, halfOrder + 1),
      (1, 1), (1, curveOrder - 1)], ∃ s : State,
      (s.mem.wf = true ∧ Ready s .ecSigNormalize ∧ CanWrite s 64) ∧ s.srcLen .src0 = 64 ∧
      s.dstLen = 64 ∧ beNat (slice (s.input .src0) 0 32) = p.1 ∧
      beNat (slice (s.input .src0) 32 64) = p.2 ∧ 1 ≤ p.1 ∧ p.1 < curveOrder ∧ 1 ≤ p.2 ∧
      p.2 < curveOrder := by
  intro p hp
  refine ⟨scalars p.1 p.2 64, ?_⟩
  simp only [List.mem_cons, List.not_mem_nil, or_false] at hp
  rcases hp with rfl | rfl | rfl | rfl <;>
    exact ⟨fit_spec (by decide +kernel), by decide +kernel⟩

theorem meets_ToDerResult : ∀ p ∈ [(1, 1), (curveOrder - 1, curveOrder - 1)], ∃ s : State,
      (s.mem.wf = true ∧ Ready s .ecSigToDer ∧ CanWrite s (sigToDer p.1 p.2).length) ∧
      s.srcLen .src0 = 64 ∧ 72 ≤ s.dstLen ∧ beNat (slice (s.input .src0) 0 32) = p.1 ∧
      beNat (slice (s.input .src0) 32 64) = p.2 ∧ 1 ≤ p.1 ∧ p.1 < curveOrder ∧ 1 ≤ p.2 ∧
      p.2 < curveOrder := by
  intro p hp
  refine ⟨scalars p.1 p.2 72, ?_⟩
  simp only [List.mem_cons, List.not_mem_nil, or_false] at hp
  rcases hp with rfl | rfl <;> exact ⟨fit_spec (by decide +kernel), by decide +kernel⟩

/-- T60 (b) and (c): 8 bytes and 72. -/
theorem meets_FromDerResult :
    ∀ p ∈ [(1, 1), (curveOrder - 1, curveOrder - 1)], ∃ s : State,
      (s.mem.wf = true ∧ Ready s .ecSigFromDer ∧ CanWrite s 64) ∧
      8 ≤ s.srcLen .src0 ∧ s.srcLen .src0 ≤ 72 ∧ s.dstLen = 64 ∧
      derToSig (s.input .src0) = some p ∧ 1 ≤ p.1 ∧ p.1 < curveOrder ∧ 1 ≤ p.2 ∧
      p.2 < curveOrder := by
  intro p hp
  refine ⟨given (sigToDer p.1 p.2) [] [] 64, ?_⟩
  simp only [List.mem_cons, List.not_mem_nil, or_false] at hp
  rcases hp with rfl | rfl <;> exact ⟨fit_spec (by decide +kernel), by decide +kernel⟩

theorem meets_EveryCommandCompletes : CompletionNext busySha 0x00000001 := completionNext_busySha

/-- A command with a destination and one without, both ending `OK`. -/
theorem meets_WritesAreConfined :
    (∃ t, exec .ecSigNormalize (scalars 1 1 64) = .next t ∧ decide (t.result = .ok) = true) ∧
      (∃ t, exec .ecPrivVerify (signer 1) = .next t ∧ decide (t.result = .ok) = true) ∧
      usesDest .ecSigNormalize = true ∧ usesDest .ecPrivVerify = false :=
  ⟨nexts_spec (by decide +kernel), nexts_spec (by decide +kernel), rfl, rfl⟩

theorem meets_NoPartialOutput :
    CompletionNext (State.reset.issue 0) 0 ∧ ∃ t, step (State.reset.issue 0) = .next t ∧
      decide (t.result ≠ .ok ∧ t.cause ≠ .busErrorWrite) = true :=
  ⟨⟨rfl, ⟨false, rfl⟩, .inl rfl⟩, nexts_spec (by decide +kernel)⟩

theorem meets_OutcomesPair :
    CompletionNext (State.reset.issue 0) 0 ∧
      ∃ t, step (State.reset.issue 0) = .next t ∧ decide (t.result.code = 1) = true :=
  ⟨⟨rfl, ⟨false, rfl⟩, .inl rfl⟩, nexts_spec (by decide +kernel)⟩

theorem meets_RefusalsComeInOrder : (scalars 1 1 63).engine.isRaced = false ∧
    (scalars 1 1 63).earlyRefusal .ecSigNormalize = some .badDstLen ∧
    (scalars 1 1 64).engine.isRaced = false ∧
    (scalars 1 1 64).earlyRefusal .ecSigNormalize = none := by decide +kernel

/-- The last byte of SRC0 is not readable. -/
theorem meets_UnreadableSourceIsReported :
    ∃ s : State, s.engine.isRaced = false ∧ s.earlyRefusal .sha256 = none ∧
      UnreadableSource s .sha256 :=
  ⟨{ busySha with platform := { Platform.reset with readMap := [⟨0, 0x1002⟩] } }, rfl,
    by decide +kernel, .src0, by decide, 2, by decide, by decide⟩

/-- T90 (a): the last byte of the output is not writable. -/
def lastByteReadOnly : State :=
  { scalars 1 1 64 with
    platform := { Platform.reset with writeMap := [⟨0, 0x403F⟩, ⟨0x4040, 0x1000⟩] } }

theorem meets_UnwritableOutputIsReported :
    lastByteReadOnly.engine.isRaced = false ∧
      ∃ t, exec .ecSigNormalize { lastByteReadOnly with
          platform := { lastByteReadOnly.platform with writeMap := [⟨0, 2 ^ 32⟩] } } = .next t ∧
        t.result = .ok ∧ ¬CanWrite lastByteReadOnly t.written.toNat := by
  obtain ⟨t, ht, hp⟩ := nexts_spec (o := exec .ecSigNormalize { lastByteReadOnly with
      platform := { lastByteReadOnly.platform with writeMap := [⟨0, 2 ^ 32⟩] } })
    (p := fun t => decide (t.result = .ok ∧ t.written.toNat = 64)) (by decide +kernel)
  simp only [decide_eq_true_eq] at hp
  refine ⟨rfl, t, ht, hp.1, ?_⟩
  rw [hp.2]
  intro h
  exact absurd (h 63 (by decide)) (by decide)

/-- Key 0 for each command that takes a private key, key `n`, and the key of T52 (h). -/
theorem meets_BadKeysAreRefused :
    (∃ s : State, s.srcLen .src0 = 32 ∧ beNat (s.input .src0) = 0 ∧ Ready s .ecPrivVerify) ∧
    (∃ s : State, s.srcLen .src0 = 32 ∧ curveOrder ≤ beNat (s.input .src0) ∧
      Ready s .ecPubFromPriv ∧ s.dstLen = 33) ∧
    (∃ s : State, s.srcLen .src0 = 32 ∧ curveOrder ≤ beNat (s.input .src0) ∧
      Ready s .ecSignEcdsa ∧ s.srcLen .src1 = 32 ∧ s.dstLen = 64) ∧
    (∃ s : State, s.srcLen .src0 = 32 ∧ beNat (s.input .src0) = 0 ∧
      Ready s .ecSignSchnorr ∧ s.srcLen .src1 = 32 ∧ s.dstLen = 64) ∧
    ∃ s : State, s.srcLen .src0 = 33 ∧ Ready s .ecPubDecompress ∧ s.dstLen = 65 ∧
      parseCompressed (s.input .src0) = none :=
  ⟨⟨signer 0, by decide +kernel, by decide +kernel, (fit_spec (n := 0) (by decide +kernel)).2.1⟩,
    ⟨given (beBytes 32 curveOrder) [] [] 33, by decide +kernel, by decide +kernel,
      (fit_spec (n := 0) (by decide +kernel)).2.1, by decide⟩,
    ⟨signer curveOrder, by decide +kernel, by decide +kernel,
      (fit_spec (n := 0) (by decide +kernel)).2.1, by decide, by decide⟩,
    ⟨signer 0, by decide +kernel, by decide +kernel,
      (fit_spec (n := 0) (by decide +kernel)).2.1, by decide, by decide⟩,
    ⟨given (0x02 :: beBytes 32 5) [] [] 65, by decide +kernel,
      (fit_spec (n := 0) (by decide +kernel)).2.1, by decide, by decide +kernel⟩⟩

/-- Scalars 0 and `n`; T61 (e) and (f); T47 (e); a key that signs, on a bounded search. -/
theorem meets_BadContentIsRefused :
    (∃ s : State, s.srcLen .src0 = 64 ∧ scalarsOk (s.input .src0) = false ∧
      Ready s .ecSigNormalize ∧ s.dstLen = 64) ∧
    (∃ s : State, s.srcLen .src0 = 64 ∧ scalarsOk (s.input .src0) = false ∧
      Ready s .ecSigToDer ∧ 72 ≤ s.dstLen) ∧
    (∃ s : State, Ready s .ecSigFromDer ∧ 8 ≤ s.srcLen .src0 ∧ s.srcLen .src0 ≤ 72 ∧
      s.dstLen = 64 ∧ derToSig (s.input .src0) = none) ∧
    (∃ s : State, Ready s .ecSigFromDer ∧ 8 ≤ s.srcLen .src0 ∧ s.srcLen .src0 ≤ 72 ∧
      s.dstLen = 64 ∧ derToSig (s.input .src0) = some (0, 1)) ∧
    (∃ s : State, Ready s .aesCbcDecrypt ∧ s.srcLen .src0 ∈ [16, 24, 32] ∧ s.srcLen .src1 = 16 ∧
      s.srcLen .src2 ≠ 0 ∧ s.srcLen .src2 % 16 = 0 ∧ s.srcLen .src2 - 1 ≤ s.dstLen ∧
      cbcDecrypt (s.input .src0) (s.input .src1) (s.input .src2) = none) ∧
    ∃ s : State, Ready s .ecSignEcdsa ∧ s.srcLen .src0 = 32 ∧ s.srcLen .src1 = 32 ∧
      s.dstLen = 64 ∧ 1 ≤ beNat (s.input .src0) ∧ beNat (s.input .src0) < curveOrder ∧
      s.platform.nonceTriesMax = some 1 :=
  ⟨⟨scalars 1 0 64, by decide +kernel, by decide +kernel,
      (fit_spec (n := 0) (by decide +kernel)).2.1, by decide⟩,
    ⟨scalars curveOrder 1 72, by decide +kernel, by decide +kernel,
      (fit_spec (n := 0) (by decide +kernel)).2.1, by decide⟩,
    ⟨given (beBytes 9 0x300702020001020101) [] [] 64,
      (fit_spec (n := 0) (by decide +kernel)).2.1, by decide +kernel⟩,
    ⟨given (beBytes 8 0x3006020100020101) [] [] 64,
      (fit_spec (n := 0) (by decide +kernel)).2.1, by decide +kernel⟩,
    ⟨given (beBytes 16 0x2b7e151628aed2a6abf7158809cf4f3c)
      (beBytes 16 0x102030405060708090a0b0c0d0e0f) (beBytes 16 0x50fe67cc996d32b6da0937e99bafec60) 16,
      (fit_spec (n := 0) (by decide +kernel)).2.1, by decide +kernel⟩,
    ⟨{ signer 1 with platform := { Platform.reset with nonceRetriesMax := some 0 } },
      (fit_spec (n := 0) (by decide +kernel)).2.1, by decide +kernel⟩⟩

/-- The key G, the hash 5 and a signature of two scalars. -/
def verifier (r v : Nat) : State := given pubG (beBytes 32 5) (compactSig r v) 0

/-- Scalars at each end of their range and past it, and `s` just high: ready, of legal lengths. -/
theorem meets_FailedVerifications_scalars : ∀ p ∈ [(0, 1), (curveOrder, 1), (1, 0),
      (1, curveOrder), (1, curveOrder / 2 + 1)], ∃ s : State, Ready s .ecSigVerifyEcdsa ∧
      s.srcLen .src0 = 33 ∧ s.srcLen .src1 = 32 ∧ s.srcLen .src2 = 64 ∧
      beNat (slice (s.input .src2) 0 32) = p.1 ∧ beNat (slice (s.input .src2) 32 64) = p.2 ∧
      (p.1 = 0 ∨ curveOrder ≤ p.1 ∨ p.2 = 0 ∨ curveOrder ≤ p.2 ∨ curveOrder / 2 < p.2) := by
  intro p hp
  refine ⟨verifier p.1 p.2, ?_⟩
  simp only [List.mem_cons, List.not_mem_nil, or_false] at hp
  rcases hp with rfl | rfl | rfl | rfl | rfl <;>
    exact ⟨(fit_spec (n := 0) (by decide +kernel)).2.1, by decide +kernel⟩

/-- A key that parses and an equation that fails: the negated key, `r` and `s` in range. -/
theorem meets_FailedVerifications_equation : ∃ (s : State) (x y : Nat),
    Ready s .ecSigVerifyEcdsa ∧ s.srcLen .src0 = 33 ∧ s.srcLen .src1 = 32 ∧ s.srcLen .src2 = 64 ∧
      parseCompressed (s.input .src0) = some (x, y) ∧ scalarsOk (s.input .src2) = true ∧
      ecdsaVerify (.affine x y) (s.input .src1) (s.input .src2) = false :=
  ⟨verified 0x03, basePoint.xCoord, fieldPrime - basePoint.yCoord,
    (fit_spec (n := 0) (by decide +kernel)).2.1, by decide +kernel⟩

/-- A key that does not parse, for both algorithms. -/
theorem meets_FailedVerificationsAreAlike :
    Ready (verified 0x04) .ecSigVerifyEcdsa ∧ Ready (verified 0x04) .ecSigVerifySchnorr ∧
      ((verified 0x04).srcLen .src0 = 33 ∧ (verified 0x04).srcLen .src1 = 32 ∧
        (verified 0x04).srcLen .src2 = 64) ∧
      ∀ i ∈ [Instr.ecSigVerifyEcdsa, Instr.ecSigVerifySchnorr], ∃ t t',
        exec i (verified 0x04) = .next t ∧ exec i (verified 0x05) = .next t' ∧
          t.result = .verifyFail ∧ t'.result = .verifyFail := by
  refine ⟨(fit_spec (n := 0) (by decide +kernel)).2.1, (fit_spec (n := 0) (by decide +kernel)).2.1,
    by decide +kernel, ?_⟩
  intro i hi
  have key : ∀ tag ∈ [(0x04 : Byte), 0x05], nexts (exec i (verified tag))
      (fun t => decide (t.result = .verifyFail)) = true := by
    simp only [List.mem_cons, List.not_mem_nil, or_false] at hi
    rcases hi with rfl | rfl <;> decide +kernel
  obtain ⟨t, ht, h⟩ := nexts_spec (key 0x04 (by decide))
  obtain ⟨t', ht', h'⟩ := nexts_spec (key 0x05 (by decide))
  exact ⟨t, t', ht, ht', of_decide_eq_true h, of_decide_eq_true h'⟩

/-- The same key, with other unused operands, another control and another destination content. -/
theorem meets_OutcomeDependsOnInputsOnly :
    ∃ s s' : State, s.mem.wf = true ∧ s'.mem.wf = true ∧ s ≠ s' ∧
      SameInputs s s' .ecSigNormalize ∧
      (∃ t, exec .ecSigNormalize s = .next t ∧ decide (t.result = .ok) = true) ∧
      ∃ t, exec .ecSigNormalize s' = .next t ∧ decide (t.result = .ok) = true :=
  ⟨scalars 1 1 64, { given (compactSig 1 1) [0x61] [] 64 7 8 9 with
      ie := true, mem := (scalars 1 1 64).mem.write 0x4000 0xFF },
    by decide +kernel, by decide +kernel, by decide +kernel,
    ⟨⟨rfl, rfl⟩, by decide +kernel, by decide +kernel, by decide +kernel, by decide +kernel, rfl⟩,
    nexts_spec (by decide +kernel), nexts_spec (by decide +kernel)⟩

theorem meets_RacedCommandStaysInDestination :
    ({ State.reset with engine := .busy 0x00000001 true }).engine.isRaced = true := rfl

/-- A block whose command has ended, with a refused write behind it. -/
def ended : State := { State.reset with done := true, werr := true, scryptStore := .wiped }

/-- A digest's completion that the host has not observed. -/
def unseenSha : State :=
  { ended with unobserved := [⟨0x00000001, busySha.operands, 0x20⟩] }

/-- In the window after the completion, a load of either end of DST races with its output, one of the
bytes next to it does not; a read of `STATUS` closes the window, a malformed one does not. -/
theorem meets_HostStoreRacesWhereItTouches_unobserved :
    CompletionNext busySha 0x00000001 ∧
    (∀ a ∈ [0x4000, 0x401F], InOwnedDest unseenSha a ∧
      RacedOutput unseenSha (fun q i => TouchesDest q i a 1) a) ∧
    (∀ a ∈ [0x3FFF, 0x4020], ¬InOwnedDest unseenSha a ∧
      ¬RacedOutput unseenSha (fun q i => TouchesDest q i a 1) 0x4000) := by
  have hd : decode 0x00000001 = .ok .sha256 := by decide
  refine ⟨⟨rfl, ⟨_, rfl⟩, .inl rfl⟩, ?_, ?_⟩
  · intro a ha
    have ht : TouchesDest (unseenSha.whileRunning ⟨0x00000001, busySha.operands, 0x20⟩) .sha256 a 1 := by
      refine ⟨rfl, a, Nat.le_refl a, Nat.lt_succ_self a, ?_⟩
      simp only [List.mem_cons, List.not_mem_nil, or_false] at ha
      rcases ha with rfl | rfl <;> decide
    refine ⟨.inr ⟨_, List.mem_cons_self .., _, hd, ht⟩, _, List.mem_cons_self .., _, hd, ht, ?_⟩
    simp only [List.mem_cons, List.not_mem_nil, or_false] at ha
    rcases ha with rfl | rfl <;> decide
  · intro a ha
    have ht : ∀ f ∈ unseenSha.unobserved, ∀ i,
        ¬TouchesDest (unseenSha.whileRunning f) i a 1 := by
      rintro f hf i ⟨-, x, h1, h2, h⟩
      obtain rfl := List.mem_singleton.1 hf
      obtain rfl : x = a := by omega
      simp only [List.mem_cons, List.not_mem_nil, or_false] at ha
      rcases ha with rfl | rfl <;> exact absurd h (by decide)
    refine ⟨?_, fun ⟨f, hf, i, _, h, _⟩ => ht f hf i h⟩
    rintro (⟨w, r, i, h, -⟩ | ⟨f, hf, i, -, h⟩)
    · cases h
    · exact ht f hf i h

/-- R96: the read of `STATUS` that finds the block idle is the observation; one of `WRITTEN` is none. -/
theorem test_status_read_observes :
    ((unseenSha.busRead 0x40000008 1 4).unobserved = []) ∧
      ((unseenSha.busRead 0x4000003C 1 4).unobserved = unseenSha.unobserved) := by decide +kernel

/-- The last byte of SRC0 and both ends of DST are touched, the bytes next to them are not. -/
theorem meets_HostStoreRacesWhereItTouches :
    (busySha.mem.wf = true ∧ busySha.engine = .busy 0x00000001 false ∧
      decode 0x00000001 = .ok .sha256) ∧
    (∀ a ∈ [0x1002, 0x4000, 0x401F], Touches busySha .sha256 a 1) ∧
    (∀ a ∈ [0x0FFF, 0x1003, 0x3FFF, 0x4020], ¬Touches busySha .sha256 a 1) ∧
    (0x401F : Word).toNat + [(0x7F : Byte)].length ≤ 2 ^ 32 ∧
    (∀ a ∈ [0x4000, 0x401F], TouchesDest busySha .sha256 a 1) ∧
    ∀ a ∈ [0x1000, 0x3FFF, 0x4020], ¬TouchesDest busySha .sha256 a 1 := by
  refine ⟨by decide +kernel, ?_, ?_, by decide, ?_, ?_⟩
  · intro a ha
    refine ⟨a, Nat.le_refl a, Nat.lt_succ_self a, ?_⟩
    simp only [List.mem_cons, List.not_mem_nil, or_false] at ha
    rcases ha with rfl | rfl | rfl <;> decide
  · rintro a ha ⟨x, h1, h2, h⟩
    obtain rfl : x = a := by omega
    simp only [List.mem_cons, List.not_mem_nil, or_false] at ha
    rcases ha with rfl | rfl | rfl | rfl <;> exact absurd h (by decide)
  · intro a ha
    refine ⟨rfl, a, Nat.le_refl a, Nat.lt_succ_self a, ?_⟩
    simp only [List.mem_cons, List.not_mem_nil, or_false] at ha
    rcases ha with rfl | rfl <;> decide
  · rintro a ha ⟨-, x, h1, h2, h⟩
    obtain rfl : x = a := by omega
    simp only [List.mem_cons, List.not_mem_nil, or_false] at ha
    rcases ha with rfl | rfl | rfl <;> exact absurd h (by decide)

theorem meets_AesKeySchedule_and_modes :
    ∀ n ∈ [16, 24, 32], (List.replicate n (0 : Byte)).length ∈ [16, 24, 32] ∧
      (List.replicate 16 (0 : Byte)).length = 16 ∧ ([] : Bytes).length % 16 = 0 := by decide

/-- Every clause of the DER statement: a pair at each end, and a parsed pair with a zero. -/
theorem meets_DerIsStrict :
    (1 ≤ 2 ^ 256 - 1 ∧ 2 ^ 256 - 1 < 2 ^ 256) ∧
      derToSig (beBytes 8 0x3006020101020101) = some (1, 1) ∧
      derToSig (beBytes 8 0x3006020100020101) = some (0, 1) := by decide +kernel

theorem meets_NormalizationIsIdempotent :
    ∀ v ∈ [1, halfOrder, halfOrder + 1, curveOrder - 1],
      (compactSig 1 v).length = 64 ∧ scalarsOk (compactSig 1 v) = true := by decide +kernel

theorem meets_EcdsaSignaturesAreLow : ∃ sig, ecdsaSign none 1 (beBytes 32 5) = some sig := ⟨_, rfl⟩

theorem meets_SchnorrParameterProperties : parseCompressed (0x04 :: pubG.drop 1) = none ∧
    parseCompressed (compressPoint (mulPoint (beNat (beBytes 32 1)) basePoint)) ≠ none := by
  decide +kernel

theorem meets_ParsedKeysArePoints :
    pubG.length = 33 ∧ parseCompressed pubG = some (basePoint.xCoord, basePoint.yCoord) ∧
      parseCompressed (0x03 :: pubG.drop 1) =
        some (basePoint.xCoord, fieldPrime - basePoint.yCoord) := by decide +kernel

theorem meets_ShaScheduleFollowsItsRecurrence :
    (List.replicate 64 (0 : Byte)).length = 64 ∧ (List.replicate 128 (0 : Byte)).length = 128 := by
  decide

theorem meets_AlignedAccessReachesTheRegister : ∀ off ∈ [0x00, 0x40, 0xFC],
    off < 256 ∧ off % 4 = 0 ∧ (State.reset.withInbox [.busRead (State.reset.platform.base +
      BitVec.ofNat 32 off) 1 4]).resetAsserted = false ∧
      (State.reset.assertReset true).resetAsserted = true := by decide +kernel

/-- Unaligned, two beats, three lanes, at both ends of the block; the address after it is not one. -/
theorem meets_MalformedAccessIsABusError :
    State.reset.selected 0x40000001 = some 1 ∧ State.reset.selected 0x400000FF = some 255 ∧
      State.reset.selected 0x40000000 = some 0 ∧ State.reset.selected 0x40000100 = none ∧
      ¬(1 = 1 ∧ 4 = 4 ∧ 1 % 4 = 0) ∧ ¬(2 = 1 ∧ 4 = 4 ∧ 0 % 4 = 0) ∧
      ¬(1 = 1 ∧ 3 = 4 ∧ 0 % 4 = 0) := by decide

theorem meets_ReservedOffsetsReadZero :
    ∀ off ∈ [0x44, 0xFC], 0x44 ≤ off ∧ off ≤ 0xFC ∧ off % 4 = 0 := by decide

theorem meets_OperandRegistersReadBack : State.reset.busy = false ∧
    ∀ off ∈ [0x10, 0x38], off ∈
      [0x10, 0x14, 0x18, 0x1C, 0x20, 0x24, 0x28, 0x2C, 0x30, 0x34, 0x38] := by decide

theorem meets_IssueLatchesTheWord : State.reset.busy = false := rfl

/-- A register write is next. -/
theorem writeNext_hostWrites {s : State} {off : Nat} {v : Word} (hr : s.resetAsserted = false)
    (hb : s.platform.base = 0x40000000) (ho : off < 256) (h4 : off % 4 = 0)
    (hv : wordOfLanes (lanesOf v) = v) : WriteNext (hostWrites s off v) off v := by
  refine ⟨hr, _, _, _, rfl, leBytes_length 4 _, hv, ?_, h4⟩
  have h : (0x40000000 + BitVec.ofNat 32 off - (0x40000000 : Word)).toNat = off := by
    simp only [BitVec.toNat_sub, BitVec.toNat_add, BitVec.toNat_ofNat]
    omega
  simp only [State.selected, hostWrites, hb, h, Config.regSpan, ho, if_true]

/-- `DONE` rises with a completion, falls with each of its three causes. -/
theorem meets_DoneIsSetOnlyByCompletion :
    (busySha.done = false ∧ ∃ t, step busySha = .next t ∧ t.done = true) ∧
    (ended.done = true ∧ WriteNext (hostWrites ended 0x08 2) 0x08 2 ∧
      ∃ t, step (hostWrites ended 0x08 2) = .next t ∧ t.done = false) ∧
    (ended.busy = false ∧ WriteNext (hostWrites ended 0x04 0) 0x04 0 ∧
      ∃ t, step (hostWrites ended 0x04 0) = .next t ∧ t.done = false) ∧
    (ResetNext (ended.withInbox [.resetAssert false]) ∧
      ∃ t, step (ended.withInbox [.resetAssert false]) = .next t ∧ t.done = false) := by
  refine ⟨⟨rfl, nexts_spec (p := fun t => t.done) (by decide +kernel)⟩, ⟨rfl, ?_, ?_⟩,
    ⟨rfl, ?_, ?_⟩, ⟨_, _, rfl⟩, _, rfl, rfl⟩
  · exact writeNext_hostWrites rfl rfl (by decide) (by decide) (by decide)
  · exact ⟨_, rfl, rfl⟩
  · exact writeNext_hostWrites rfl rfl (by decide) (by decide) (by decide)
  · exact ⟨_, rfl, rfl⟩

/-- The first and the last operand register, and `CMD`, set `WERR` while busy; bit 2 of a write of
`STATUS` clears it. -/
theorem meets_WriteErrorIsSticky :
    (∃ t, exec .ecPrivVerify (signer 1) = .next t) ∧
    (busySha.busy = true ∧ busySha.werr = false ∧
      ∀ off ∈ [0x04, 0x10, 0x38], WriteNext (hostWrites busySha off 7) off 7 ∧
        ∃ t, step (hostWrites busySha off 7) = .next t ∧ t.werr = true) ∧
    ended.werr = true ∧ WriteNext (hostWrites ended 0x08 4) 0x08 4 ∧
      ∃ t, step (hostWrites ended 0x08 4) = .next t ∧ t.werr = false := by
  refine ⟨⟨_, rfl⟩, ⟨rfl, rfl, ?_⟩, rfl, ?_, _, rfl, rfl⟩
  · intro off h
    simp only [List.mem_cons, List.not_mem_nil, or_false] at h
    rcases h with rfl | rfl | rfl <;>
      exact ⟨writeNext_hostWrites rfl rfl (by decide) (by decide) (by decide), _, rfl, rfl⟩
  · exact writeNext_hostWrites rfl rfl (by decide) (by decide) (by decide)

/-- Each kind of register changes somewhere. -/
theorem meets_RegistersChangeOnlyByRule :
    (¬ResetNext (hostWrites State.reset 0x10 7) ∧
      ∃ t, step (hostWrites State.reset 0x10 7) = .next t ∧ t.operands ≠ State.reset.operands) ∧
    (∃ t, step (hostWrites State.reset 0x04 7) = .next t ∧ t.lastcmd ≠ State.reset.lastcmd) ∧
    (∃ t, step (hostWrites State.reset 0x0C 1) = .next t ∧ t.ie ≠ State.reset.ie) ∧
    ∃ t, step (State.reset.issue 0) = .next t ∧ t.result ≠ (State.reset.issue 0).result := by
  refine ⟨⟨?_, _, rfl, by decide⟩, ⟨_, rfl, by decide⟩, ⟨_, rfl, by decide⟩, _, rfl, by decide⟩
  rintro ⟨p, rest, h⟩
  simp [hostWrites] at h

/-- The invariant in a busy block, whose step completes, and in an ended one. -/
theorem inv_busySha : busySha.Inv where
  exclusive h := by cases h
  paired := rfl
  failedWroteNothing _ := rfl
  busyOutcome w raced h := by
    cases h
    exact ⟨rfl, rfl, rfl, rfl⟩
  idleWiped h := by cases h
  heldInReset h := by cases h
  canonical := by decide +kernel

theorem inv_ended : ended.Inv where
  exclusive _ := rfl
  paired := rfl
  failedWroteNothing _ := rfl
  busyOutcome w raced h := by cases h
  idleWiped _ := ⟨rfl, by decide⟩
  heldInReset h := by cases h
  canonical := rfl

theorem meets_StatusFieldsAndInterrupt : busySha.Inv ∧ ended.Inv := ⟨inv_busySha, inv_ended⟩

theorem meets_EveryStepKeepsTheInvariant :
    busySha.Inv ∧ ∃ t, step busySha = .next t ∧ decide (t.engine = .idle) = true :=
  ⟨inv_busySha, nexts_spec (by decide +kernel)⟩

theorem meets_ResetValues : ended.scryptStore ≠ .unspecified ∧ ended.busy = false := by decide

theorem meets_ResetAbandonsTheCommand :
    (busySha.withInbox [.resetAssert true]).engine = .busy 0x00000001 false ∧
      decode 0x00000001 = .ok .sha256 ∧
      (busySha.withInbox [.resetAssert true]).inbox = [.resetAssert true] ∧
      (State.reset.issue 0).engine = .busy 0 false ∧ decode 0 = .error .illegalOpcode := by decide

end Sys2Proof.Tests
end

section
/-!
Settles O43: the squaring loop of `powMod` (R9, R313). The loop keeps `acc * b ^ e` modulo `m`, so what
it leaves in the accumulator is the power.
-/
namespace Sys2Proof.Machine

/-- The equation of the squaring loop while an exponent is left. -/
theorem powMod_go_succ_of_ne_zero (m f b e acc : Nat) (he : e ≠ 0) :
    powMod.go m (f + 1) b e acc =
      powMod.go m f (b * b % m) (e / 2) (if e % 2 = 1 then acc * b % m else acc) := by
  rw [powMod.go, if_neg he]

/-- An even exponent is halved by squaring the base. -/
theorem sq_pow_half_of_even (b e : Nat) (h : ¬ e % 2 = 1) : (b * b) ^ (e / 2) = b ^ e := by
  have heven : Even e := by rwa [← Nat.not_odd_iff_even, Nat.odd_iff]
  rw [← pow_two, ← pow_mul, Nat.two_mul_div_two_of_even heven]

/-- An odd exponent is halved by squaring the base, with one factor of the base over. -/
theorem mul_sq_pow_half_of_odd (b e : Nat) (h : e % 2 = 1) : b * (b * b) ^ (e / 2) = b ^ e := by
  rw [← pow_two, ← pow_mul, ← pow_succ', Nat.two_mul_div_two_add_one_of_odd (Nat.odd_iff.mpr h)]

/-- One round of the squaring loop keeps `acc * b ^ e` modulo `m`. -/
theorem powMod_round_keeps_product (m b e acc : Nat) :
    (if e % 2 = 1 then acc * b % m else acc) * (b * b % m) ^ (e / 2) ≡ acc * b ^ e [MOD m] := by
  have hsq : (b * b % m) ^ (e / 2) ≡ (b * b) ^ (e / 2) [MOD m] := (Nat.mod_modEq _ _).pow _
  split
  next hodd =>
    calc acc * b % m * (b * b % m) ^ (e / 2)
        ≡ acc * b * (b * b) ^ (e / 2) [MOD m] := (Nat.mod_modEq _ _).mul hsq
      _ = acc * b ^ e := by rw [mul_assoc, mul_sq_pow_half_of_odd b e hodd]
  next heven =>
    calc acc * (b * b % m) ^ (e / 2)
        ≡ acc * (b * b) ^ (e / 2) [MOD m] := hsq.mul_left acc
      _ = acc * b ^ e := by rw [sq_pow_half_of_even b e heven]

/-- With a reduced accumulator and fuel for the exponent, the squaring loop gives `acc * b ^ e mod m`. -/
theorem powMod_go_eq (m f b e acc : Nat) (hacc : acc < m) (hfuel : e ≤ f) :
    powMod.go m f b e acc = acc * b ^ e % m := by
  induction f generalizing b e acc with
  | zero =>
    obtain rfl : e = 0 := Nat.le_zero.mp hfuel
    simp [powMod.go, Nat.mod_eq_of_lt hacc]
  | succ f ih =>
    by_cases he : e = 0
    · simp [powMod.go, he, Nat.mod_eq_of_lt hacc]
    · have hreduced : (if e % 2 = 1 then acc * b % m else acc) < m := by
        split
        · exact Nat.mod_lt _ (by omega)
        · exact hacc
      rw [powMod_go_succ_of_ne_zero m f b e acc he, ih _ _ _ hreduced (by omega)]
      exact powMod_round_keeps_product m b e acc

/-- Settles O43, from the squaring loop started at the reduced base and `1 mod m`. -/
theorem powersAreModular : Obligations.PowersAreModular := by
  intro m b e hm
  calc powMod m b e
      = 1 % m * (b % m) ^ e % m := powMod_go_eq m e (b % m) e (1 % m) (Nat.mod_lt _ hm) le_rfl
    _ = 1 * b ^ e % m := (Nat.mod_modEq 1 m).mul ((Nat.mod_modEq b m).pow e)
    _ = b ^ e % m := by rw [one_mul]

end Sys2Proof.Machine
end

section
/-!
Settles O60, O21, O4 and O59. The engine's turn, an equation per case; what a completion step does to
the data memory; and the block's invariant, kept by each of the four kinds of step that
`step_stepped` tells apart (R33, R51, R60, R402, R450).
-/
namespace Sys2Proof.Machine

/-! ### The engine's turn (R50, R51, R438) -/

/-- An idle block does nothing at the engine's turn (R438). -/
theorem engineTurn_idle {s : State} (h : s.engine = .idle) : engineTurn s = .next s := by
  simp [engineTurn, h]

/-- A block held in reset does nothing at the engine's turn (R423). -/
theorem engineTurn_held {s : State} (h : s.resetAsserted = true) : engineTurn s = .next s := by
  simp [engineTurn, h]

/-- A busy block out of reset runs the command of its word (R51). -/
theorem engineTurn_command {s : State} {w : Word} {raced : Bool} {i : Instr}
    (hr : s.resetAsserted = false) (he : s.engine = .busy w raced) (hd : decode w = .ok i) :
    engineTurn s = exec i s := by
  simp [engineTurn, hr, he, hd]

/-- A word that is no command completes with the decoder's cause (R118). -/
theorem engineTurn_noCommand {s : State} {w : Word} {raced : Bool} {e : DecodeError}
    (hr : s.resetAsserted = false) (he : s.engine = .busy w raced) (hd : decode w = .error e) :
    engineTurn s = .next (s.complete (.raise (decodeCause e))) := by
  simp [engineTurn, hr, he, hd]

theorem step_of_inbox_nil {s : State} (h : s.inbox = []) : step s = engineTurn s := by
  simp [step, h]

theorem step_of_inbox_cons {s : State} {e : Event} {rest : List Event} (h : s.inbox = e :: rest) :
    step s = takeEvent e (s.withInbox rest) := by
  simp [step, h]

theorem State.withInbox_self {s : State} {l : List Event} (h : s.inbox = l) :
    s.withInbox l = s := by
  subst h; rfl

/-- Where the engine's turn is next, the step is that turn, with the engine's own event taken. -/
theorem step_of_engineNext {s : State} (h : EngineNext s) :
    step s = engineTurn (s.withInbox s.inbox.tail) := by
  rcases h with hnil | ⟨rest, hcons⟩
  · rw [step_of_inbox_nil hnil, State.withInbox_self (by rw [hnil]; rfl)]
  · rw [step_of_inbox_cons hcons, hcons]
    rfl

/-- The next step runs the word that `withFetchWord` places (log 1). -/
theorem step_withFetchWord (s : State) (nbits w : Nat) :
    step (s.withFetchWord nbits w) =
      engineTurn ((s.releaseReset.issue (BitVec.ofNat 32 (w % 2 ^ nbits))).withInbox s.inbox) := by
  cases h : s.inbox with
  | nil => rw [step_of_inbox_nil (by simp [State.withFetchWord, h, engineNext]),
      State.withFetchWord, h]; rfl
  | cons e rest => rw [step_of_inbox_cons (e := .engine) (rest := e :: rest)
      (by simp [State.withFetchWord, h, engineNext])]; rfl

/-- Settles O4, from the equations of the engine's turn. -/
theorem stepRunsTheDecodedCommand : Obligations.StepRunsTheDecodedCommand := by
  intro s rest
  refine ⟨fun w raced i hr he hd => ⟨fun hi => ?_, fun hi => ?_⟩, fun hstill => ?_,
    fun nbits w i hd => ?_⟩
  · rw [step_of_inbox_nil hi, engineTurn_command hr he hd]
  · rw [step_of_inbox_cons hi]
    exact engineTurn_command (s := s.withInbox rest) hr he hd
  · have still : ∀ l, engineTurn (s.withInbox l) = .next (s.withInbox l) := fun l =>
      hstill.elim (engineTurn_idle (s := s.withInbox l)) (engineTurn_held (s := s.withInbox l))
    refine ⟨fun hi => ?_, fun hi => ?_⟩
    · rw [step_of_inbox_nil hi, ← State.withInbox_self hi]
      exact still []
    · rw [step_of_inbox_cons hi]
      exact still rest
  · rw [step_withFetchWord]
    exact engineTurn_command rfl rfl hd

/-! ### What a completion does to the data memory (R91, R94) -/

/-- An output all of whose bytes are writable lies in the data space, so writing it keeps the
canonical form. -/
theorem Memory.wf_writeBytes_of_writable {p : Platform} {m : Memory} {a : Nat} {out : Bytes}
    (hm : m.wf = true) (hw : regionWritable p ⟨a, out.length⟩ = true) :
    (m.writeBytes a out).wf = true := by
  cases out with
  | nil => exact hm
  | cons b t =>
    have hlast : a + t.length < 2 ^ 32 := lt_of_writable (regionWritable_iff.1 hw t.length (by simp))
    exact Memory.wf_writeBytes hm (by simp only [List.length_cons]; omega)

/-- Free values over writable addresses keep the canonical form (U1, U3). -/
theorem State.complete_writeFailed_wf {s : State} (hm : s.mem.wf = true) (n : Nat) :
    (s.complete (.writeFailed n)).mem.wf = true :=
  Memory.wf_scramble hm fun _ => lt_of_writable

/-- The completion with a delivered verdict keeps the canonical form. -/
theorem State.complete_deliver_wf {s : State} (hm : s.mem.wf = true) (v : Verdict) :
    (s.complete (s.deliver v)).mem.wf = true := by
  cases v with
  | finish out =>
    simp only [State.deliver]
    split
    next hw => exact Memory.wf_writeBytes_of_writable hm hw
    next => exact State.complete_writeFailed_wf hm _
  | raise c => exact hm
  | writeFailed n => exact State.complete_writeFailed_wf hm n

/-- So does the completion with the outcome of a command's checks and content. -/
theorem State.complete_verdict_wf {s : State} (hm : s.mem.wf = true) (i : Instr)
    (early memory : List Check) (content : Unit → Verdict) :
    (s.complete (s.verdict i early memory content)).mem.wf = true := by
  obtain ⟨c, -, hv⟩ | ⟨-, -, hv⟩ | ⟨-, -, hv⟩ := s.verdict_cases i early memory content
  · rw [hv]; exact hm
  · rw [hv]; exact hm
  · rw [hv]; exact State.complete_deliver_wf hm _

/-- So does the completion of a raced command (U1). -/
theorem State.completeRaced_wf {s : State} (hm : s.mem.wf = true) (i : Instr) :
    (s.completeRaced i).mem.wf = true := by
  unfold State.completeRaced
  dsimp only
  split
  · exact Memory.wf_scramble hm fun _ => lt_of_writable
  · exact State.complete_writeFailed_wf hm _
  · exact hm

/-- Every command keeps the canonical form of the data memory. -/
theorem exec_keeps_memory_wf {i : Instr} {s t : State} (h : exec i s = .next t)
    (hm : s.mem.wf = true) : t.mem.wf = true := by
  obtain ⟨early, memory, content, hrun, -⟩ := exec_run i s
  rw [hrun] at h
  obtain rfl := Host.Outcome.next.inj h
  split
  · exact State.completeRaced_wf hm i
  · exact State.complete_verdict_wf hm i early memory content

/-! ### Every command completes (R51, R410) -/

/-- The completion step of every word, legal or not: one `conclude`, which keeps the canonical form
of the data memory. -/
theorem step_of_completionNext {s : State} {w : Word} (h : CompletionNext s w) :
    ∃ c n m, step s = .next ((s.withInbox s.inbox.tail).conclude c n m) ∧
      (s.mem.wf = true → m.wf = true) := by
  obtain ⟨hr, ⟨raced, he⟩, hn⟩ := h
  rw [step_of_engineNext hn]
  cases hd : decode w with
  | ok i =>
    obtain ⟨c, n, m, hexec⟩ := exec_conclude i (s.withInbox s.inbox.tail)
    rw [engineTurn_command (s := s.withInbox s.inbox.tail) hr he hd, hexec]
    exact ⟨c, n, m, rfl, exec_keeps_memory_wf hexec⟩
  | error e =>
    rw [engineTurn_noCommand (s := s.withInbox s.inbox.tail) hr he hd]
    exact ⟨_, _, _, rfl, id⟩

/-- Settles O21: every command, and the completion step of every word, is one `conclude`. -/
theorem everyCommandCompletes : Obligations.EveryCommandCompletes := by
  refine ⟨fun i s => ?_, fun s w hnext => ?_⟩
  · obtain ⟨c, n, m, hexec⟩ := exec_conclude i s
    exact ⟨_, hexec, State.conclude_completed .., State.conclude_undisturbed ..⟩
  · obtain ⟨c, n, m, hstep, -⟩ := step_of_completionNext hnext
    refine ⟨_, hstep, State.conclude_completed .., State.conclude_undisturbed .., rfl, ?_⟩
    simp [State.irq]

/-! ### The invariant is kept -/

/-- Settles O59: after reset the block is idle, its outcome empty, its memory lists nothing. -/
theorem resetMeetsTheInvariant : Obligations.ResetMeetsTheInvariant where
  exclusive _ := rfl
  paired := rfl
  failedWroteNothing _ := rfl
  busyOutcome _ _ h := nomatch h
  idleWiped _ := ⟨rfl, nofun⟩
  heldInReset h := nomatch h
  canonical := Memory.wf_reset

/-- The invariant does not speak of the inbox. -/
theorem State.Inv.withInbox {s : State} (h : s.Inv) (l : List Event) : (s.withInbox l).Inv :=
  ⟨h.exclusive, h.paired, h.failedWroteNothing, h.busyOutcome, h.idleWiped, h.heldInReset,
    h.canonical⟩

/-- The invariant does not speak of the bus's answer. -/
theorem State.Inv.respond {s : State} (h : s.Inv) (r : Response) : (s.respond r).Inv :=
  ⟨h.exclusive, h.paired, h.failedWroteNothing, h.busyOutcome, h.idleWiped, h.heldInReset,
    h.canonical⟩

/-- A completion out of reset establishes all of the invariant but the form of the memory. -/
theorem State.conclude_inv {s : State} (hr : s.resetAsserted = false) (c : Cause) (n : Nat)
    {m : Memory} (hm : m.wf = true) : (s.conclude c n m).Inv where
  exclusive _ := rfl
  paired := rfl
  failedWroteNothing := (State.conclude_paired s c n m).nothingWritten
  busyOutcome _ _ h := nomatch h
  idleWiped _ := ⟨rfl, nofun⟩
  heldInReset h := by simp [hr] at h
  canonical := hm

/-- An issue out of reset shows an empty outcome and the running word (R50). -/
theorem State.Inv.issue {s : State} (h : s.Inv) (hr : s.resetAsserted = false) (w : Word) :
    (s.issue w).Inv where
  exclusive hdone := nomatch hdone
  paired := rfl
  failedWroteNothing _ := rfl
  busyOutcome _ _ he := by
    cases he
    exact ⟨rfl, rfl, rfl, rfl⟩
  idleWiped he := nomatch he
  heldInReset hheld := by simp [hr] at hheld
  canonical := h.canonical

theorem State.Inv.acknowledge {s : State} (h : s.Inv) (v : Word) : (s.acknowledge v).Inv where
  exclusive hdone := h.exclusive (Bool.and_elim_left hdone)
  paired := h.paired
  failedWroteNothing := h.failedWroteNothing
  busyOutcome := h.busyOutcome
  idleWiped := h.idleWiped
  heldInReset hheld := by
    obtain ⟨hidle, hdone, hie⟩ := h.heldInReset hheld
    exact ⟨hidle, by simp [hdone], hie⟩
  canonical := h.canonical

theorem State.Inv.refuseWrite {s : State} (h : s.Inv) : s.refuseWrite.Inv :=
  ⟨h.exclusive, h.paired, h.failedWroteNothing, h.busyOutcome, h.idleWiped, h.heldInReset,
    h.canonical⟩

theorem State.Inv.setOperand {s : State} (h : s.Inv) (r : OperandReg) (v : Word) :
    (s.setOperand r v).Inv :=
  ⟨h.exclusive, h.paired, h.failedWroteNothing, h.busyOutcome, h.idleWiped, h.heldInReset,
    h.canonical⟩

theorem State.Inv.setCtrl {s : State} (h : s.Inv) (hr : s.resetAsserted = false) (v : Word) :
    (s.setCtrl v).Inv :=
  ⟨h.exclusive, h.paired, h.failedWroteNothing, h.busyOutcome, h.idleWiped,
    fun hheld => by simp [hr] at hheld, h.canonical⟩

/-- A register write out of reset keeps the invariant (R44). -/
theorem State.Inv.hostWrite {s : State} (h : s.Inv) (hr : s.resetAsserted = false) (off : Nat)
    (v : Word) : (s.hostWrite off v).Inv := by
  unfold State.hostWrite
  cases regAt off with
  | none => exact h
  | some r =>
    cases r with
    | id | written | lastcmd => exact h
    | cmd =>
      dsimp only
      split
      · exact h.refuseWrite
      · exact h.issue hr v
    | status => exact h.acknowledge v
    | ctrl => exact h.setCtrl hr v
    | operand q =>
      dsimp only
      split
      · exact h.refuseWrite
      · exact h.setOperand q v

/-- Reset establishes all of the invariant but the form of the memory (R62, R450). -/
theorem State.enterReset_inv (s : State) (powerOn : Bool) {m : Memory} (hm : m.wf = true) :
    (s.enterReset powerOn m).Inv where
  exclusive _ := rfl
  paired := rfl
  failedWroteNothing _ := rfl
  busyOutcome _ _ h := nomatch h
  idleWiped _ := by
    refine ⟨rfl, ?_⟩
    rw [State.enterReset_scryptStore]
    split <;> nofun
  heldInReset _ := ⟨rfl, rfl, rfl⟩
  canonical := hm

/-- The bytes that reset leaves free lie in the data space (R451, U5). -/
theorem State.Inv.assertReset {s : State} (h : s.Inv) (powerOn : Bool) :
    (s.assertReset powerOn).Inv :=
  s.enterReset_inv powerOn <| Memory.wf_scramble h.canonical fun _ hmay =>
    of_decide_eq_true (Bool.and_elim_left hmay)

/-- The invariant holds of every state with the same registers: it does not see the race mark, and
the host's bytes and the free values of raced outputs lie in the data space. -/
theorem State.Inv.sameRegisters {s t : State} (h : s.Inv) (same : SameRegisters s t) : t.Inv := by
  have idleIff : t.engine = .idle ↔ s.engine = .idle := by
    rcases same.engine with he | ⟨w, raced, hs, ht⟩
    · rw [he]
    · simp [hs, ht]
  have busyWord : ∀ w raced, t.engine = .busy w raced → ∃ r, s.engine = .busy w r := by
    intro w raced ht
    rcases same.engine with he | ⟨w', r, hs, ht'⟩
    · exact ⟨raced, he ▸ ht⟩
    · rw [ht'] at ht
      cases ht
      exact ⟨r, hs⟩
  constructor
  case exclusive =>
    rw [same.done, idleIff]
    exact h.exclusive
  case paired =>
    rw [same.result, same.cause]
    exact h.paired
  case failedWroteNothing =>
    rw [same.result, same.written]
    exact h.failedWroteNothing
  case busyOutcome =>
    intro w raced ht
    obtain ⟨r, hs⟩ := busyWord w raced ht
    rw [same.result, same.cause, same.written, same.lastcmd]
    exact h.busyOutcome w r hs
  case idleWiped =>
    rw [idleIff, same.workStore, same.scryptStore]
    exact h.idleWiped
  case heldInReset =>
    intro hheld
    have hs : s.resetAsserted = true := same.resetAsserted.elim (fun e => e ▸ hheld)
      fun e => by simp [e] at hheld
    rw [idleIff, same.done, same.ie]
    exact h.heldInReset hs
  case canonical =>
    obtain ⟨m, draw, outputs, hmem, hm⟩ := same.memory
    rw [hmem]
    refine Memory.wf_scrambleAll (fun _ => lt_of_writable) outputs ?_
    rcases hm with rfl | ⟨a, b, hfit, rfl⟩
    · exact h.canonical
    · exact Memory.wf_writeBytes h.canonical hfit

/-- Settles O60: each of the four kinds of step keeps the invariant. -/
theorem everyStepKeepsTheInvariant : Obligations.EveryStepKeepsTheInvariant := by
  intro s t hinv hstep
  cases step_stepped hstep with
  | completion w next =>
    obtain ⟨c, n, m, hconclude, hm⟩ := step_of_completionNext next
    rw [hconclude] at hstep
    obtain rfl := Host.Outcome.next.inj hstep
    obtain ⟨released, -⟩ := next
    exact State.conclude_inv (s := s.withInbox s.inbox.tail) released c n (hm hinv.canonical)
  | write off v next result =>
    obtain ⟨released, -⟩ := next
    subst result
    exact ((hinv.withInbox s.inbox.tail).hostWrite released off v).respond _
  | reset powerOn _ result =>
    subst result
    exact (hinv.withInbox _).assertReset powerOn
  | quiet _ _ _ same => exact hinv.sameRegisters same

end Sys2Proof.Machine
end

section
/-!
Settles O48 to O52, O56 and O57. The register map read both ways, one equation per register for
`HostWrite` and `HostRead`, the bus accesses that reach them and those that do not, and the registers
after reset (R30 to R50, R62).
-/
namespace Sys2Proof.Machine

/-! ### The register map (R30, R46) -/

/-- The map gives a register exactly at its offset. -/
theorem regAt_eq_some {off : Nat} {r : Reg} : regAt off = some r ↔ off = r.offset := by
  constructor
  · intro h
    unfold regAt at h
    split at h <;> cases h <;> rfl
  · rintro rfl
    cases r with
    | operand q => cases q <;> rfl
    | id | cmd | status | ctrl | written | lastcmd => rfl

theorem Reg.offset_le (r : Reg) : r.offset ≤ 0x40 := by
  cases r with
  | operand q => cases q <;> decide
  | id | cmd | status | ctrl | written | lastcmd => decide

/-- Past the last register every offset is reserved. -/
theorem regAt_reserved {off : Nat} (h : 0x40 < off) : regAt off = none := by
  cases hr : regAt off with
  | none => rfl
  | some r =>
    have hoff := regAt_eq_some.1 hr
    have hle := r.offset_le
    omega

/-- The operand registers are the eleven aligned offsets from 0x10 to 0x38. -/
theorem regAt_operand {off : Nat} (h4 : off % 4 = 0) (hlo : 0x10 ≤ off) (hhi : off ≤ 0x38) :
    ∃ r, regAt off = some (.operand r) := by
  have hk : off = 4 * (off / 4) := by omega
  have hlo' : 4 ≤ off / 4 := by omega
  have hhi' : off / 4 ≤ 14 := by omega
  generalize off / 4 = k at hk hlo' hhi'
  subst hk
  interval_cases k <;> exact ⟨_, rfl⟩

theorem Reg.operand_offset_bounds (r : OperandReg) :
    0x10 ≤ (Reg.operand r).offset ∧ (Reg.operand r).offset ≤ 0x38 := by
  cases r <;> decide

/-! ### `HostWrite` and `HostRead`, register by register (R44, R45) -/

theorem hostWrite_cmd_idle {s : State} (h : s.busy = false) (v : Word) :
    s.hostWrite 0x04 v = s.issue v := by
  simp [State.hostWrite, regAt, h]

theorem hostWrite_cmd_busy {s : State} (h : s.busy = true) (v : Word) :
    s.hostWrite 0x04 v = s.refuseWrite := by
  simp [State.hostWrite, regAt, h]

theorem hostWrite_status (s : State) (v : Word) : s.hostWrite 0x08 v = s.acknowledge v := rfl

theorem hostWrite_ctrl (s : State) (v : Word) : s.hostWrite 0x0C v = s.setCtrl v := rfl

theorem hostWrite_operand_idle {s : State} {off : Nat} {r : OperandReg}
    (hoff : regAt off = some (.operand r)) (h : s.busy = false) (v : Word) :
    s.hostWrite off v = s.setOperand r v := by
  simp [State.hostWrite, hoff, h]

theorem hostWrite_operand_busy {s : State} {off : Nat} {r : OperandReg}
    (hoff : regAt off = some (.operand r)) (h : s.busy = true) (v : Word) :
    s.hostWrite off v = s.refuseWrite := by
  simp [State.hostWrite, hoff, h]

theorem hostWrite_reserved {s : State} {off : Nat} (hoff : regAt off = none) (v : Word) :
    s.hostWrite off v = s := by
  simp [State.hostWrite, hoff]

theorem hostRead_reserved {s : State} {off : Nat} (hoff : regAt off = none) :
    s.hostRead off = 0 := by
  simp [State.hostRead, hoff]

theorem hostRead_operand {s : State} {off : Nat} {r : OperandReg}
    (hoff : regAt off = some (.operand r)) : s.hostRead off = s.operands.get r := by
  simp [State.hostRead, hoff]

/-- A write of an operand register shows at no other offset. -/
theorem hostRead_setOperand_other {s : State} {off : Nat} {r : OperandReg}
    (hoff : regAt off ≠ some (.operand r)) (v : Word) :
    (s.setOperand r v).hostRead off = s.hostRead off := by
  cases hreg : regAt off with
  | none => rw [hostRead_reserved hreg, hostRead_reserved hreg]
  | some q =>
    cases q with
    | operand q =>
      have hq : q ≠ r := by
        rintro rfl
        exact hoff hreg
      rw [hostRead_operand hreg, hostRead_operand hreg]
      exact OperandRegs.get_set_other s.operands v r q hq
    | id | cmd | status | ctrl | written | lastcmd =>
      simp only [State.hostRead, hreg] <;> rfl

/-- Settles O50: past the last register no offset is one. -/
theorem reservedOffsetsReadZero : Obligations.ReservedOffsetsReadZero := by
  intro s off v hlo _ _
  have hnone : regAt off = none := regAt_reserved (by omega)
  have hsame : s.hostWrite off v = s := hostWrite_reserved hnone v
  exact ⟨hostRead_reserved hnone, hsame, by rw [hsame]⟩

/-- Settles O51: in an idle block the write is `setOperand` of the register at the offset. -/
theorem operandRegistersReadBack : Obligations.OperandRegistersReadBack := by
  intro s off other v hidle hoff
  obtain ⟨r, hr⟩ : ∃ r, regAt off = some (.operand r) := by
    refine regAt_operand ?_ ?_ ?_ <;> revert off <;> decide
  rw [hostWrite_operand_idle hr hidle]
  refine ⟨?_, fun hother => hostRead_setOperand_other (fun h => hother ?_) v, rfl, rfl⟩
  · rw [hostRead_operand hr, State.setOperand_operands, OperandRegs.get_set]
  · rw [regAt_eq_some.1 h, regAt_eq_some.1 hr]

/-- Settles O52: in an idle block a write of `CMD` is `Issue`. -/
theorem issueLatchesTheWord : Obligations.IssueLatchesTheWord := by
  intro s w hidle
  rw [hostWrite_cmd_idle hidle]
  exact ⟨rfl, rfl, rfl, rfl, rfl, rfl, rfl, rfl, rfl, rfl, rfl⟩

/-! ### `STATUS` and `CTRL` as numbers (R33, R38) -/

theorem ResultClass.code_lt (r : ResultClass) : r.code < 16 := by cases r <;> decide

theorem Cause.code_lt (c : Cause) : c.code < 256 := by cases c <;> decide

/-- `STATUS` as a number: its fields at their weights. -/
theorem State.statusWord_toNat (s : State) :
    s.statusWord.toNat = s.busy.toNat + 2 * s.done.toNat + 4 * s.werr.toNat +
      16 * s.result.code + 256 * s.cause.code := by
  have hb := s.busy.toNat_le
  have hd := s.done.toNat_le
  have hw := s.werr.toNat_le
  have hr := s.result.code_lt
  have hc := s.cause.code_lt
  rw [State.statusWord, BitVec.toNat_ofNat]
  omega

theorem State.ctrlWord_eq (s : State) : s.ctrlWord = if s.ie then 1 else 0 := by
  cases h : s.ie <;> simp [State.ctrlWord, h]

/-- `BUSY` and `DONE` are never both 1 (R33). -/
theorem State.Inv.not_busy_and_done {s : State} (h : s.Inv) : s.busy.toNat + s.done.toNat ≤ 1 := by
  cases hd : s.done with
  | false => simpa using s.busy.toNat_le
  | true => simp [State.busy, h.exclusive hd, Engine.isBusy]

/-- Settles O56: the fields of `STATUS` are digits of the number it reads. -/
theorem statusFieldsAndInterrupt : Obligations.StatusFieldsAndInterrupt := by
  refine ⟨fun s v => ⟨rfl, rfl, s.ctrlWord_eq, rfl, rfl, rfl, ?_⟩, fun s hinv => ?_⟩
  · intro off hoff
    simp only [List.mem_cons, List.not_mem_nil, or_false] at hoff
    rcases hoff with rfl | rfl | rfl <;> rfl
  · intro v
    have hstatus : v = _ := s.statusWord_toNat
    clear_value v
    have hctrl : s.hostRead 0x0C = _ := s.ctrlWord_eq
    have hexclusive := hinv.not_busy_and_done
    have hb := s.busy.toNat_le
    have hd := s.done.toNat_le
    have hw := s.werr.toNat_le
    have hr := s.result.code_lt
    have hc := s.cause.code_lt
    have hdone : v / 2 % 2 = s.done.toNat := by omega
    refine ⟨by omega, hdone, by omega, by omega, by omega, by omega, by omega, by omega, ?_⟩
    rw [hdone, hctrl]
    cases hi : s.ie <;> cases hdn : s.done <;> simp [State.irq, hi, hdn]

/-! ### Bus accesses (R44, R45, R47, R49) -/

theorem lanesOf_eq (w : Word) : lanesOf w =
    [w.extractLsb' 0 8, w.extractLsb' 8 8, w.extractLsb' 16 8, w.extractLsb' 24 8] := by
  simp only [lanesOf, leBytes, List.cons.injEq, and_true]
  refine ⟨?_, ?_, ?_, ?_⟩ <;> apply BitVec.eq_of_toNat_eq <;>
    simp only [BitVec.toNat_ofNat, BitVec.extractLsb'_toNat, Nat.shiftRight_eq_div_pow] <;> omega

/-- The lanes of a word are read back as the word. -/
theorem wordOfLanes_lanesOf (w : Word) : wordOfLanes (lanesOf w) = w := by
  apply BitVec.eq_of_toNat_eq
  have hw := w.isLt
  simp only [wordOfLanes, lanesOf, leBytes, leNat, BitVec.toNat_ofNat]
  omega

theorem State.selected_base_add (s : State) {off : Nat} (h : off < 256) :
    s.selected (s.platform.base + BitVec.ofNat 32 off) = some off := by
  have hb := Platform.base_toNat s.platform
  have hp := s.platform.basePage.isLt
  refine State.selected_eq_some.2 ⟨h, ?_⟩
  rw [BitVec.toNat_add, BitVec.toNat_ofNat]
  omega

theorem alignedWord_iff {off beats width : Nat} :
    alignedWord off beats width = true ↔ beats = 1 ∧ width = 4 ∧ off % 4 = 0 := by
  simp [alignedWord, and_assoc]

/-- An aligned write out of reset is `HostWrite`. -/
theorem busWrite_aligned {s : State} {addr : Word} {off : Nat} {lanes : Bytes}
    (hs : s.selected addr = some off) (ha : alignedWord off 1 lanes.length = true)
    (hr : s.resetAsserted = false) :
    s.busWrite addr 1 lanes = (s.hostWrite off (wordOfLanes lanes)).respond .ack := by
  simp [State.busWrite, hs, ha, hr]

/-- While reset is asserted it is only answered (R452). -/
theorem busWrite_held {s : State} {addr : Word} {off : Nat} {lanes : Bytes}
    (hs : s.selected addr = some off) (ha : alignedWord off 1 lanes.length = true)
    (hr : s.resetAsserted = true) : s.busWrite addr 1 lanes = s.respond .ack := by
  simp [State.busWrite, hs, ha, hr]

theorem busWrite_malformed {s : State} {addr : Word} {off beats : Nat} {lanes : Bytes}
    (hs : s.selected addr = some off) (ha : ¬alignedWord off beats lanes.length = true) :
    s.busWrite addr beats lanes = s.respond .busError := by
  simp [State.busWrite, hs, ha]

/-- An aligned read out of reset gives the lanes of `HostRead`, and may observe a completion. -/
theorem busRead_aligned {s : State} {addr : Word} {off width : Nat}
    (hs : s.selected addr = some off) (ha : alignedWord off 1 width = true)
    (hr : s.resetAsserted = false) :
    s.busRead addr 1 width = (s.observe off).respond (.data (lanesOf (s.hostRead off))) := by
  simp [State.busRead, hs, ha, hr]

/-- While reset is asserted it gives free lanes (R452, U6). -/
theorem busRead_held {s : State} {addr : Word} {off width : Nat}
    (hs : s.selected addr = some off) (ha : alignedWord off 1 width = true)
    (hr : s.resetAsserted = true) :
    s.busRead addr 1 width = s.drawn.respond (.data (lanesOf (Config.freeWord s.draws))) := by
  simp [State.busRead, hs, ha, hr]

theorem busRead_malformed {s : State} {addr : Word} {off beats width : Nat}
    (hs : s.selected addr = some off) (ha : ¬alignedWord off beats width = true) :
    s.busRead addr beats width = s.respond .busError := by
  simp [State.busRead, hs, ha]

/-- Settles O48, from the equations of an aligned access. -/
theorem alignedAccessReachesTheRegister : Obligations.AlignedAccessReachesTheRegister := by
  intro s off v rest hoff h4
  have hs : (s.withInbox rest).selected (s.platform.base + BitVec.ofNat 32 off) = some off :=
    s.selected_base_add hoff
  have ha : alignedWord off 1 4 = true := alignedWord_iff.2 ⟨rfl, rfl, h4⟩
  refine ⟨fun hi => ⟨fun hr => ?_, fun hr => ?_⟩, fun hi => ⟨fun hr => ?_, fun hr => ?_⟩⟩
  · have hwrite := busWrite_aligned (lanes := lanesOf v) hs ha hr
    rw [wordOfLanes_lanesOf] at hwrite
    rw [step_of_inbox_cons hi, ← lanesOf_eq]
    exact congrArg Host.Outcome.next hwrite
  · refine ⟨.ack, ?_⟩
    rw [step_of_inbox_cons hi, ← lanesOf_eq]
    exact congrArg Host.Outcome.next (busWrite_held (lanes := lanesOf v) hs ha hr)
  · rw [step_of_inbox_cons hi, ← lanesOf_eq]
    have hstatus : regAt off = some .status ↔ off = 0x08 := regAt_eq_some
    simp only [← hstatus]
    exact congrArg Host.Outcome.next (busRead_aligned hs ha hr)
  · refine ⟨lanesOf (Config.freeWord s.draws), s.draws + 1, leBytes_length 4 _, ?_⟩
    rw [step_of_inbox_cons hi]
    exact congrArg Host.Outcome.next (busRead_held hs ha hr)

/-- Settles O49, from the equations of a malformed access. -/
theorem malformedAccessIsABusError : Obligations.MalformedAccessIsABusError := by
  intro s addr off beats width lanes rest hs
  refine ⟨fun hbad hi => ?_, fun hbad hi => ?_⟩
  · rw [step_of_inbox_cons hi]
    exact congrArg Host.Outcome.next
      (busWrite_malformed (s := s.withInbox rest) hs (alignedWord_iff.not.2 hbad))
  · rw [step_of_inbox_cons hi]
    exact congrArg Host.Outcome.next
      (busRead_malformed (s := s.withInbox rest) hs (alignedWord_iff.not.2 hbad))

/-! ### The registers after reset (R62) -/

/-- Reset gives every register what it holds after power-on. -/
theorem hostRead_enterReset (s : State) (powerOn : Bool) (m : Memory) (off : Nat) :
    (s.enterReset powerOn m).hostRead off = State.reset.hostRead off := by
  cases hreg : regAt off with
  | none => rw [hostRead_reserved hreg, hostRead_reserved hreg]
  | some r => cases r <;> simp only [State.hostRead, hreg] <;> rfl

/-- After power-on every offset but that of `ID` reads 0. -/
theorem hostRead_reset {off : Nat} (h : off ≠ 0x00) : State.reset.hostRead off = 0 := by
  cases hreg : regAt off with
  | none => exact hostRead_reserved hreg
  | some r =>
    cases r with
    | id => exact absurd (regAt_eq_some.1 hreg) h
    | operand q =>
      rw [hostRead_operand hreg]
      cases q <;> rfl
    | cmd | status | ctrl | written | lastcmd => simp only [State.hostRead, hreg] <;> rfl

/-- An idle block abandons no output (R451). -/
theorem abandonedBytes_idle {s : State} (h : s.busy = false) : s.abandonedBytes = 0 := by
  cases he : s.engine with
  | idle => simp [State.abandonedBytes, State.running, he]
  | busy w raced => simp [State.busy, he, Engine.isBusy] at h

/-- Settles O57, from the registers after reset. -/
theorem resetValues : Obligations.ResetValues := by
  intro s powerOn
  refine ⟨hostRead_enterReset .., fun off hoff => ?_, rfl, rfl, rfl, ?_, ?_, ?_, rfl,
    fun _ => hostRead_reset⟩
  · exact (hostRead_enterReset ..).trans (hostRead_reset hoff)
  · rintro rfl
    simp [State.assertReset]
  · rintro rfl hs
    simp [State.assertReset, hs]
  · intro hidle
    simp [State.assertReset, abandonedBytes_idle hidle, Memory.scramble]

end Sys2Proof.Machine
end

section
/-!
Settles O53, O54 and O55. Everything a write of a register can do, and with it what changes each
register in any step; that `WERR` plays no part in a command's outcome (R34, R35, R38, R43, R44, R53,
R54, R58).
-/
namespace Sys2Proof.Machine

/-! ### Everything a register write can do (R44) -/

/-- What `HostWrite(off, v)` made of the block: `t` is the state after it. -/
inductive Wrote (s : State) (off : Nat) (v : Word) (t : State) : Prop
  /-- A write of `CMD` in an idle block. -/
  | issued (atCmd : off = 0x04) (idle : s.busy = false) (result : t = s.issue v)
  /-- A write of `CMD` or an operand register in a busy block. -/
  | refused (target : off = 0x04 ∨ 0x10 ≤ off ∧ off ≤ 0x38) (busy : s.busy = true)
      (result : t = s.refuseWrite)
  /-- A write of `STATUS`. -/
  | acknowledged (atStatus : off = 0x08) (result : t = s.acknowledge v)
  /-- A write of `CTRL`. -/
  | control (atCtrl : off = 0x0C) (result : t = s.setCtrl v)
  /-- A write of an operand register in an idle block. -/
  | operand (r : OperandReg) (target : 0x10 ≤ off ∧ off ≤ 0x38) (idle : s.busy = false)
      (result : t = s.setOperand r v)
  /-- A write of a read-only register, or at an offset that is no register's. -/
  | ignored (result : t = s)

theorem hostWrite_wrote (s : State) (off : Nat) (v : Word) : Wrote s off v (s.hostWrite off v) := by
  cases hreg : regAt off with
  | none => exact .ignored (hostWrite_reserved hreg v)
  | some r =>
    have hoff := regAt_eq_some.1 hreg
    cases r with
    | id | written | lastcmd => exact .ignored (by simp only [State.hostWrite, hreg])
    | status => exact .acknowledged hoff (by rw [hoff]; exact hostWrite_status s v)
    | ctrl => exact .control hoff (by rw [hoff]; exact hostWrite_ctrl s v)
    | cmd =>
      cases hb : s.busy with
      | false => exact .issued hoff hb (by rw [hoff]; exact hostWrite_cmd_idle hb v)
      | true => exact .refused (.inl hoff) hb (by rw [hoff]; exact hostWrite_cmd_busy hb v)
    | operand q =>
      have hrange : 0x10 ≤ off ∧ off ≤ 0x38 := hoff ▸ Reg.operand_offset_bounds q
      cases hb : s.busy with
      | false => exact .operand q hrange hb (hostWrite_operand_idle hreg hb v)
      | true => exact .refused (.inr hrange) hb (hostWrite_operand_busy hreg hb v)

/-- Where a write of a register is next, the step is that `HostWrite`, answered. -/
theorem step_of_writeNext {s : State} {off : Nat} {v : Word} (h : WriteNext s off v) :
    step s = .next (((s.withInbox s.inbox.tail).hostWrite off v).respond .ack) := by
  obtain ⟨hr, addr, lanes, rest, hi, hl, rfl, hs, h4⟩ := h
  have ha : alignedWord off 1 lanes.length = true := alignedWord_iff.2 ⟨rfl, hl, h4⟩
  rw [step_of_inbox_cons hi, hi]
  exact congrArg Host.Outcome.next (busWrite_aligned (s := s.withInbox rest) hs ha hr)

/-- Where an assertion of reset is next, the step is that reset. -/
theorem step_of_resetNext {s : State} (h : ResetNext s) :
    ∃ powerOn, step s = .next ((s.withInbox s.inbox.tail).assertReset powerOn) := by
  obtain ⟨powerOn, rest, hi⟩ := h
  exact ⟨powerOn, by rw [step_of_inbox_cons hi, hi]; rfl⟩

/-! ### What changes each register in a step -/

section Changes

variable {s t : State}

/-- `DONE` rises only at a completion (R34, R51). -/
theorem done_rises (h : step s = .next t) (h0 : s.done = false) (h1 : t.done = true) :
    ∃ w, CompletionNext s w ∧ t.engine = .idle := by
  cases step_stepped h with
  | completion w next _ _ _ result => exact ⟨w, next, by rw [result]; rfl⟩
  | write off v next result =>
    subst result
    cases hostWrite_wrote (s.withInbox s.inbox.tail) off v with
    | issued _ _ e | refused _ _ e | acknowledged _ e | control _ e | operand _ _ _ e | ignored e =>
      simp [e, h0] at h1
  | reset _ _ result => subst result; cases h1
  | quiet _ _ _ same => simp [same.done, h0] at h1

/-- `DONE` falls only by a write of `STATUS` with bit 1, an issue or a reset (R34, R50, R450). -/
theorem done_falls (h : step s = .next t) (h1 : s.done = true) (h0 : t.done = false) :
    (∃ v, WriteNext s 0x08 v ∧ v.getLsbD 1 = true) ∨
      (∃ w, WriteNext s 0x04 w ∧ t.engine = .busy w false) ∨ ResetNext s := by
  cases step_stepped h with
  | completion _ _ _ _ _ result => subst result; cases h0
  | write off v next result =>
    subst result
    cases hostWrite_wrote (s.withInbox s.inbox.tail) off v with
    | issued hoff _ e => exact .inr (.inl ⟨v, hoff ▸ next, by simp [e]⟩)
    | acknowledged hoff e => exact .inl ⟨v, hoff ▸ next, by simpa [e, h1] using h0⟩
    | refused _ _ e | control _ e | operand _ _ _ e | ignored e => simp [e, h1] at h0
  | reset _ next _ => exact .inr (.inr next)
  | quiet _ _ _ same => simp [same.done, h1] at h0

/-- The outcome registers change only at a completion, an issue or a reset (R34, R53, R54). -/
theorem outcome_changes (h : step s = .next t)
    (hne : t.result ≠ s.result ∨ t.cause ≠ s.cause ∨ t.written ≠ s.written) :
    (∃ w, CompletionNext s w) ∨ (s.busy = false ∧ ∃ w, WriteNext s 0x04 w) ∨ ResetNext s := by
  cases step_stepped h with
  | completion w next => exact .inl ⟨w, next⟩
  | write off v next result =>
    subst result
    cases hostWrite_wrote (s.withInbox s.inbox.tail) off v with
    | issued hoff hidle e => exact .inr (.inl ⟨hidle, v, hoff ▸ next⟩)
    | refused _ _ e | acknowledged _ e | control _ e | operand _ _ _ e | ignored e =>
      simp [e] at hne
  | reset _ next _ => exact .inr (.inr next)
  | quiet _ _ _ same => simp [same.result, same.cause, same.written] at hne

/-- `WERR` rises only at a refused write of a busy block (R35). -/
theorem werr_rises (h : step s = .next t) (h0 : s.werr = false) (h1 : t.werr = true) :
    s.busy = true ∧ ∃ off v, WriteNext s off v ∧ (off = 0x04 ∨ 0x10 ≤ off ∧ off ≤ 0x38) := by
  cases step_stepped h with
  | completion _ _ _ _ _ result => simp [result, h0] at h1
  | write off v next result =>
    subst result
    cases hostWrite_wrote (s.withInbox s.inbox.tail) off v with
    | refused target busy _ => exact ⟨busy, off, v, next, target⟩
    | issued _ _ e | acknowledged _ e | control _ e | operand _ _ _ e | ignored e =>
      simp [e, h0] at h1
  | reset _ _ result => subst result; cases h1
  | quiet _ _ _ same => simp [same.werr, h0] at h1

/-- `WERR` falls only by a write of `STATUS` with bit 2 or a reset (R35, R450). -/
theorem werr_falls (h : step s = .next t) (h1 : s.werr = true) (h0 : t.werr = false) :
    (∃ v, WriteNext s 0x08 v ∧ v.getLsbD 2 = true) ∨ ResetNext s := by
  cases step_stepped h with
  | completion _ _ _ _ _ result => simp [result, h1] at h0
  | write off v next result =>
    subst result
    cases hostWrite_wrote (s.withInbox s.inbox.tail) off v with
    | acknowledged hoff e => exact .inl ⟨v, hoff ▸ next, by simpa [e, h1] using h0⟩
    | issued _ _ e | refused _ _ e | control _ e | operand _ _ _ e | ignored e =>
      simp [e, h1] at h0
  | reset _ next _ => exact .inr next
  | quiet _ _ _ same => simp [same.werr, h1] at h0

/-- Out of reset an operand register changes only by a write of one in an idle block (R44, R58). -/
theorem operands_change (h : step s = .next t) (hr : ¬ResetNext s)
    (hne : t.operands ≠ s.operands) :
    s.busy = false ∧ ∃ off v, WriteNext s off v ∧ 0x10 ≤ off ∧ off ≤ 0x38 := by
  cases step_stepped h with
  | completion _ _ _ _ _ result => simp [result] at hne
  | write off v next result =>
    subst result
    cases hostWrite_wrote (s.withInbox s.inbox.tail) off v with
    | operand _ target idle _ => exact ⟨idle, off, v, next, target⟩
    | issued _ _ e | refused _ _ e | acknowledged _ e | control _ e | ignored e =>
      simp [e] at hne
  | reset _ next _ => exact absurd next hr
  | quiet _ _ _ same => exact absurd same.operands hne

/-- Out of reset `LASTCMD` changes only by an issue, to the word issued (R43, R50). -/
theorem lastcmd_changes (h : step s = .next t) (hr : ¬ResetNext s)
    (hne : t.lastcmd ≠ s.lastcmd) : s.busy = false ∧ WriteNext s 0x04 t.lastcmd := by
  cases step_stepped h with
  | completion _ _ _ _ _ result => simp [result] at hne
  | write off v next result =>
    subst result
    cases hostWrite_wrote (s.withInbox s.inbox.tail) off v with
    | issued hoff idle e =>
      subst hoff
      rw [e]
      exact ⟨idle, next⟩
    | refused _ _ e | acknowledged _ e | control _ e | operand _ _ _ e | ignored e =>
      simp [e] at hne
  | reset _ next _ => exact absurd next hr
  | quiet _ _ _ same => exact absurd same.lastcmd hne

/-- Out of reset `CTRL.IE` changes only by a write of `CTRL` (R38). -/
theorem ie_changes (h : step s = .next t) (hr : ¬ResetNext s) (hne : t.ie ≠ s.ie) :
    ∃ v, WriteNext s 0x0C v ∧ t.ie = v.getLsbD 0 := by
  cases step_stepped h with
  | completion _ _ _ _ _ result => simp [result] at hne
  | write off v next result =>
    subst result
    cases hostWrite_wrote (s.withInbox s.inbox.tail) off v with
    | control hoff e =>
      subst hoff
      exact ⟨v, next, by rw [e]; rfl⟩
    | issued _ _ e | refused _ _ e | acknowledged _ e | operand _ _ _ e | ignored e =>
      simp [e] at hne
  | reset _ next _ => exact absurd next hr
  | quiet _ _ _ same => exact absurd same.ie hne

end Changes

/-- Settles O53, from what raises and clears `DONE` and what changes the outcome; the writes of
`STATUS` and `CMD` and the reset are the steps they name. -/
theorem doneIsSetOnlyByCompletion : Obligations.DoneIsSetOnlyByCompletion := by
  intro s t h
  refine ⟨done_rises h, done_falls h, fun v next hbit => ?_, fun w next hidle => ?_, fun next => ?_,
    outcome_changes h⟩
  · obtain rfl := Host.Outcome.next.inj (h.symm.trans (step_of_writeNext next))
    rw [hostWrite_status]
    refine ⟨by simp [hbit], rfl, rfl, rfl, rfl, rfl, rfl, rfl, rfl, fun hkeep => ?_⟩
    rw [State.respond_werr, State.acknowledge_werr, hkeep]
    exact Bool.and_true _
  · obtain rfl := Host.Outcome.next.inj (h.symm.trans (step_of_writeNext next))
    rw [hostWrite_cmd_idle (s := s.withInbox s.inbox.tail) hidle]
    rfl
  · obtain ⟨powerOn, hstep⟩ := step_of_resetNext next
    obtain rfl := Host.Outcome.next.inj (h.symm.trans hstep)
    rfl

/-- Settles O55, from what changes each register. -/
theorem registersChangeOnlyByRule : Obligations.RegistersChangeOnlyByRule := by
  intro s t h hr
  refine ⟨fun hbusy => ?_, fun hne => (operands_change h hr hne).2, lastcmd_changes h hr,
    ie_changes h hr, fun hne => ?_⟩
  · by_contra hne
    obtain ⟨hidle, -⟩ := operands_change h hr hne
    simp [hbusy] at hidle
  · obtain hcompletion | hissue | hreset := outcome_changes h hne
    · exact .inl hcompletion
    · exact .inr hissue
    · exact absurd hreset hr

/-! ### `WERR` plays no part in an outcome (R35) -/

/-- The block with another `WERR`. -/
def State.withWerr (s : State) (e : Bool) : State := { s with werr := e }

theorem State.complete_withWerr (s : State) (e : Bool) (v : Verdict) :
    (s.withWerr e).complete v = (s.complete v).withWerr e := by
  cases v <;> rfl

theorem State.completeRaced_withWerr (s : State) (e : Bool) (i : Instr) :
    (s.withWerr e).completeRaced i = (s.completeRaced i).withWerr e := by
  have hrange : (s.withWerr e).outputRange i = s.outputRange i := by cases i <;> rfl
  unfold State.completeRaced
  rw [hrange]
  dsimp only [State.withWerr]
  split <;> rfl

/-- The outcome of one run of checks and content does not depend on `WERR`. -/
theorem State.run_withWerr (s : State) (e : Bool) (i : Instr) (early memory : List Check)
    (content : Unit → Verdict) :
    (s.withWerr e).run i early memory content =
      .next ((if s.engine.isRaced then s.completeRaced i
        else s.complete (s.verdict i early memory content)).withWerr e) := by
  have hraced : (s.withWerr e).engine.isRaced = s.engine.isRaced := rfl
  have hverdict : (s.withWerr e).verdict i early memory content =
    s.verdict i early memory content := rfl
  rw [State.run, hraced, hverdict]
  split
  · rw [State.completeRaced_withWerr]
  · rw [State.complete_withWerr]

/-- A command makes the same checks and has the same content whatever `WERR` is. -/
theorem exec_run_withWerr (i : Instr) (s : State) (e : Bool) : ∃ early memory content,
    exec i s = s.run i early memory content ∧
      exec i (s.withWerr e) = (s.withWerr e).run i early memory content := by
  cases i <;> exact ⟨_, _, _, rfl, rfl⟩

/-- A command ends the same whatever `WERR` is, and leaves `WERR` as it is. -/
theorem exec_withWerr {i : Instr} {s t : State} (h : exec i s = .next t) (e : Bool) :
    exec i (s.withWerr e) = .next (t.withWerr e) := by
  obtain ⟨early, memory, content, hrun, hrun'⟩ := exec_run_withWerr i s e
  rw [hrun] at h
  obtain rfl := Host.Outcome.next.inj h
  rw [hrun', State.run_withWerr]

/-- A write of `CMD` or an operand register in a busy block is refused (R35). -/
theorem hostWrite_refused {s : State} {off : Nat} (hbusy : s.busy = true) (h4 : off % 4 = 0)
    (target : off = 0x04 ∨ 0x10 ≤ off ∧ off ≤ 0x38) (v : Word) :
    s.hostWrite off v = s.refuseWrite := by
  rcases target with rfl | ⟨hlo, hhi⟩
  · exact hostWrite_cmd_busy hbusy v
  · obtain ⟨r, hr⟩ := regAt_operand h4 hlo hhi
    exact hostWrite_operand_busy hr hbusy v

theorem WriteNext.aligned {s : State} {off : Nat} {v : Word} (h : WriteNext s off v) :
    off % 4 = 0 := by
  obtain ⟨-, _, _, _, -, -, -, -, h4⟩ := h
  exact h4

/-- Settles O54, from what raises and clears `WERR` and that no outcome depends on it. -/
theorem writeErrorIsSticky : Obligations.WriteErrorIsSticky := by
  refine ⟨fun s t i e h => exec_withWerr h e, fun s t h =>
    ⟨werr_rises h, fun off v next hbusy target => ?_, werr_falls h, fun v next hbit => ?_⟩⟩
  · obtain rfl := Host.Outcome.next.inj (h.symm.trans (step_of_writeNext next))
    rw [hostWrite_refused (s := s.withInbox s.inbox.tail) hbusy next.aligned target]
    exact ⟨rfl, rfl, rfl, rfl⟩
  · obtain rfl := Host.Outcome.next.inj (h.symm.trans (step_of_writeNext next))
    rw [hostWrite_status]
    simp [hbit]

end Sys2Proof.Machine
end

section
/-!
Settles O22, O23 and O32. How a command can have ended, raced or not, and with it where a completion
step can have changed the data memory (R91, R92, R97, R402, R460).
-/
namespace Sys2Proof.Machine

/-! ### What a completion can write (R91, R92, R94) -/

/-- The memory `m` that a command leaves differs from what it found in at most the first `n` bytes
of its destination, and those lie within it. -/
structure WritesWithin (s : State) (i : Instr) (n : Nat) (m : Memory) : Prop where
  fits : n ≤ s.dstLen
  noDest : usesDest i = false → m = s.mem
  elsewhere : ∀ a, a < s.dest.base ∨ s.dest.base + n ≤ a → m.read a = s.mem.read a

theorem WritesWithin.of_finish {s : State} {i : Instr} {out : Bytes}
    (hfit : out.length ≤ s.dstLen) (hnone : usesDest i = false → out = []) :
    WritesWithin s i out.length (s.mem.writeBytes s.operands.dstAddr.toNat out) where
  fits := hfit
  noDest hd := by rw [hnone hd]; rfl
  elsewhere _ ha := Memory.read_writeBytes_outside ha

theorem WritesWithin.of_scramble {s : State} {i : Instr} {n : Nat}
    (hfit : n ≤ s.dstLen) (hnone : usesDest i = false → n = 0) :
    WritesWithin s i n
      (s.mem.scramble s.draws (writable s.platform) s.operands.dstAddr.toNat n) where
  fits := hfit
  noDest hd := by rw [hnone hd]; rfl
  elsewhere a ha := Memory.read_scramble_outside (by
    rcases ha with ha | ha
    · exact .inl ha
    · exact .inr (.inl ha))

/-- How a command that started in `s` can have ended, raced or not. -/
inductive Ended (s : State) (i : Instr) : State → Prop
  /-- `OK` with `n` bytes written. -/
  | ok (n : Nat) (m : Memory) (writes : WritesWithin s i n m) : Ended s i (s.conclude .none n m)
  /-- A cause, and nothing written. -/
  | raised (c : Cause) (failed : c ≠ .none) : Ended s i (s.complete (.raise c))
  /-- A failed write of an output of `n` bytes. -/
  | writeFailed (n : Nat) (m : Memory) (writes : WritesWithin s i n m) :
    Ended s i (s.conclude .busErrorWrite 0 m)

/-- No region check refuses a command without a cause. -/
theorem State.regionChecks_caused (s : State) (i : Instr) : Caused (s.regionChecks i) := by
  intro c hc
  simp only [State.regionChecks, List.mem_append, List.mem_map] at hc
  rcases hc with ⟨r, -, rfl⟩ | hc
  · nofun
  · split at hc
    · simp only [List.mem_cons, List.mem_map] at hc
      rcases hc with rfl | ⟨r, -, rfl⟩ <;> nofun
    · cases hc

/-- A refusal by the checks of a command has a cause. -/
theorem firstFailed_caused {s : State} {i : Instr} {early memory : List Check} {c : Cause}
    (hcaused : Caused (early ++ memory))
    (h : firstFailed (early ++ s.regionChecks i ++ memory) = some c) : c ≠ .none := by
  obtain ⟨k, hk, -, rfl⟩ := firstFailed_mem h
  simp only [List.mem_append] at hk
  rcases hk with (hk | hk) | hk
  · exact hcaused k (List.mem_append_left _ hk)
  · exact s.regionChecks_caused i k hk
  · exact hcaused k (List.mem_append_right _ hk)

/-- A content delivered ends within the destination. -/
theorem Content.ended {s : State} {i : Instr} {early : List Check} {v : Verdict}
    (h : Content s i early v) (hpass : ∀ c ∈ early, c.passes = true) :
    Ended s i (s.complete (s.deliver v)) := by
  cases v with
  | finish out =>
    obtain ⟨hfit, hnone⟩ := h.fits out hpass rfl
    by_cases hw : CanWrite s out.length
    · rw [State.deliver_finish hw]
      exact .ok _ _ (.of_finish hfit hnone)
    · rw [State.deliver_unwritable hw]
      exact .writeFailed _ _ (.of_scramble hfit fun hd => by rw [hnone hd]; rfl)
  | raise c =>
    have hmem := h.causes c rfl
    exact .raised c (by rintro rfl; revert hmem; decide)
  | writeFailed n => exact absurd rfl (h.noWriteFailed n)

/-- A command that is not raced ends within its destination. -/
theorem State.complete_verdict_ended {s : State} {i : Instr} {early memory : List Check}
    {content : Unit → Verdict} (hcaused : Caused (early ++ memory))
    (hcontent : Content s i early (content ())) :
    Ended s i (s.complete (s.verdict i early memory content)) := by
  obtain ⟨c, hf, hv⟩ | ⟨-, -, hv⟩ | ⟨hf, -, hv⟩ := s.verdict_cases i early memory content
  · rw [hv]; exact .raised c (firstFailed_caused hcaused hf)
  · rw [hv]; exact .raised _ nofun
  · rw [hv]
    refine hcontent.ended fun c hc => firstFailed_eq_none.1 hf c ?_
    simp [hc]

/-- How many bytes a raced command's output has (U1). -/
def State.racedLength (s : State) (i : Instr) : Nat :=
  min s.dstLen ((s.outputRange i).1 +
    Config.freeLength s.draws % ((s.outputRange i).2 - (s.outputRange i).1 + 1))

theorem State.racedLength_le (s : State) (i : Instr) : s.racedLength i ≤ s.dstLen :=
  Nat.min_le_left ..

/-- A command without a destination has an empty output range (R421). -/
theorem State.outputRange_noDest (s : State) {i : Instr} (h : usesDest i = false) :
    s.outputRange i = (0, 0) := by
  revert h
  cases i <;> simp [usesDest, State.outputRange]

theorem State.racedLength_noDest (s : State) {i : Instr} (h : usesDest i = false) :
    s.racedLength i = 0 := by
  simp [State.racedLength, s.outputRange_noDest h, Nat.mod_one]

/-- The cause a raced command completes with (U1). -/
def State.racedCause (s : State) (i : Instr) : Cause :=
  (legalCauses i).getD (Config.freeChoice s.draws % (legalCauses i).length) .none

/-- The cause of a raced command is one of its own row. -/
theorem State.racedCause_mem (s : State) (i : Instr) : s.racedCause i ∈ legalCauses i := by
  have hlt := Nat.mod_lt (Config.freeChoice s.draws) (y := (legalCauses i).length)
    (by simp [legalCauses])
  rw [State.racedCause, List.getD_eq_getElem _ _ hlt]
  exact List.getElem_mem hlt

theorem State.completeRaced_ok {s : State} {i : Instr} (h : s.racedCause i = .none) :
    s.completeRaced i = s.conclude .none (s.racedLength i)
      (s.mem.scramble s.draws (writable s.platform) s.operands.dstAddr.toNat
        (s.racedLength i)) := by
  rw [State.racedCause] at h
  simp only [State.completeRaced, h]
  rfl

theorem State.completeRaced_busErrorWrite {s : State} {i : Instr}
    (h : s.racedCause i = .busErrorWrite) :
    s.completeRaced i = s.complete (.writeFailed (s.racedLength i)) := by
  rw [State.racedCause] at h
  simp only [State.completeRaced, h]
  rfl

theorem State.completeRaced_raise {s : State} {i : Instr} (hok : s.racedCause i ≠ .none)
    (hwrite : s.racedCause i ≠ .busErrorWrite) :
    s.completeRaced i = s.complete (.raise (s.racedCause i)) := by
  unfold State.completeRaced
  dsimp only
  split
  next h => exact absurd h hok
  next h => exact absurd h hwrite
  next => rfl

/-- A raced command ends within its destination, with that cause. -/
theorem State.completeRaced_ended (s : State) (i : Instr) :
    Ended s i (s.completeRaced i) ∧ (s.completeRaced i).cause = s.racedCause i := by
  have writes : WritesWithin s i (s.racedLength i) _ :=
    .of_scramble (s.racedLength_le i) s.racedLength_noDest
  by_cases hok : s.racedCause i = .none
  · rw [State.completeRaced_ok hok, hok]
    exact ⟨.ok _ _ writes, rfl⟩
  by_cases hwrite : s.racedCause i = .busErrorWrite
  · rw [State.completeRaced_busErrorWrite hwrite, hwrite]
    exact ⟨.writeFailed _ _ writes, rfl⟩
  · rw [State.completeRaced_raise hok hwrite]
    exact ⟨.raised _ hok, rfl⟩

/-- Every command, raced or not, ends within its destination. -/
theorem exec_ended {s t : State} {i : Instr} (h : exec i s = .next t) : Ended s i t := by
  obtain ⟨early, memory, content, hrun, hcaused, hcontent⟩ := exec_run i s
  rw [hrun] at h
  cases hraced : s.engine.isRaced with
  | true =>
    obtain rfl := Host.Outcome.next.inj ((State.run_raced hraced).symm.trans h)
    exact (s.completeRaced_ended i).1
  | false =>
    obtain rfl := Host.Outcome.next.inj ((State.run_calm hraced).symm.trans h)
    exact State.complete_verdict_ended hcaused hcontent

/-- Where a command ended, at most bytes of its destination differ; without one, none. -/
theorem Ended.writesWithin {s t : State} {i : Instr} (h : Ended s i t) :
    ∃ n, WritesWithin s i n t.mem := by
  cases h with
  | ok n m writes => exact ⟨n, writes⟩
  | raised c _ => exact ⟨0, Nat.zero_le _, fun _ => rfl, fun _ _ => rfl⟩
  | writeFailed n m writes => exact ⟨n, writes⟩

/-- A command that ended `OK` wrote within the first `WRITTEN` bytes of its destination. -/
theorem Ended.writesWithin_written {s t : State} {i : Instr} (h : Ended s i t)
    (hok : t.result = .ok) : WritesWithin s i t.written.toNat t.mem := by
  cases h with
  | ok n m writes =>
    have hn : n < 2 ^ 32 := writes.fits.trans_lt s.dstLen_lt
    rwa [State.conclude_written, writtenWord_ok, BitVec.toNat_ofNat, Nat.mod_eq_of_lt hn]
  | raised c failed => exact absurd (Cause.resultClass_ok.1 hok) failed
  | writeFailed n m _ => cases hok

/-- A command that failed, but not by a failed write, wrote nothing (R92). -/
theorem Ended.mem_eq {s t : State} {i : Instr} (h : Ended s i t) (hok : t.result ≠ .ok)
    (hwrite : t.cause ≠ .busErrorWrite) : t.mem = s.mem := by
  cases h with
  | ok n m _ => exact absurd rfl hok
  | raised c _ => rfl
  | writeFailed n m _ => exact absurd rfl hwrite

/-- Settles O22, from how a command can have ended. -/
theorem writesAreConfined : Obligations.WritesAreConfined := by
  intro s t i h hok
  obtain ⟨fits, noDest, elsewhere⟩ := (exec_ended h).writesWithin_written hok
  exact ⟨fun _ => fits, noDest, elsewhere⟩

/-- Settles O23: a command that fails writes nothing, and a word that is no command is refused. -/
theorem noPartialOutput : Obligations.NoPartialOutput := by
  intro s t w ⟨released, ⟨raced, hengine⟩, hnext⟩ hstep hok hwrite
  rw [step_of_engineNext hnext] at hstep
  cases hd : decode w with
  | ok i =>
    rw [engineTurn_command (s := s.withInbox s.inbox.tail) released hengine hd] at hstep
    exact (exec_ended hstep).mem_eq hok hwrite
  | error e =>
    rw [engineTurn_noCommand (s := s.withInbox s.inbox.tail) released hengine hd] at hstep
    obtain rfl := Host.Outcome.next.inj hstep
    rfl

/-- Settles O32, from the free outcome of a raced command. -/
theorem racedCommandStaysInDestination : Obligations.RacedCommandStaysInDestination := by
  intro s i hraced
  obtain ⟨early, memory, content, hrun, -⟩ := exec_run i s
  obtain ⟨c, n, m, hconclude⟩ := s.completeRaced_conclude i
  obtain ⟨hended, hcause⟩ := s.completeRaced_ended i
  obtain ⟨k, fits, noDest, elsewhere⟩ := hended.writesWithin
  refine ⟨s.completeRaced i, by rw [hrun, State.run_raced hraced], ?_, ?_, ?_, ?_, noDest,
    fun a ha => elsewhere a ?_⟩
  · rw [hconclude]; exact State.conclude_completed ..
  · rw [hconclude]; exact State.conclude_paired ..
  · rw [hconclude]; exact State.conclude_undisturbed ..
  · rw [hcause]; exact s.racedCause_mem i
  · have hfits : k ≤ s.dest.size := fits
    omega

end Sys2Proof.Machine
end

section
/-!
Settles O27. A command makes the same checks and has the same content whatever addresses are
writable, so what would be written is what fails to be written (R94).
-/
namespace Sys2Proof.Machine

/-! ### The same command with another map of writable addresses (R7, R94) -/

/-- The block on a platform with another map of writable addresses. -/
def State.withWriteMap (s : State) (map : List Region) : State :=
  { s with platform := { s.platform with writeMap := map } }

/-- A command makes the same checks and has the same content whatever addresses are writable. -/
theorem exec_run_withWriteMap (i : Instr) (s : State) (map : List Region) :
    ∃ early memory content, exec i s = s.run i early memory content ∧
      exec i (s.withWriteMap map) = (s.withWriteMap map).run i early memory content := by
  cases i <;> exact ⟨_, _, _, rfl, rfl⟩

/-- A run with something written ended `OK` with an output, all of it writable. -/
theorem State.verdict_of_written {s : State} {i : Instr} {early memory : List Check}
    {content : Unit → Verdict}
    (h : (s.complete (s.verdict i early memory content)).written ≠ 0) :
    ∃ out, firstFailed (early ++ s.regionChecks i ++ memory) = none ∧
      s.sourcesReadable i = true ∧ content () = .finish out ∧ CanWrite s out.length ∧
      (s.complete (s.verdict i early memory content)).written = BitVec.ofNat 32 out.length := by
  obtain ⟨c, -, hv⟩ | ⟨-, -, hv⟩ | ⟨hf, hr, hv⟩ := s.verdict_cases i early memory content
  · rw [hv] at h; exact absurd (s.complete_raise c).written h
  · rw [hv] at h; exact absurd (s.complete_raise .busErrorRead).written h
  · rw [hv] at h ⊢
    cases hc : content () with
    | raise c => rw [hc] at h; exact absurd (s.complete_raise c).written h
    | writeFailed n => rw [hc] at h; exact absurd rfl h
    | finish out =>
      rw [hc] at h
      by_cases hw : CanWrite s out.length
      · rw [State.deliver_finish hw]
        exact ⟨out, hf, hr, rfl, hw, rfl⟩
      · rw [State.deliver_unwritable hw] at h
        exact absurd rfl h

/-- Writable bytes lie in the data space. -/
theorem CanWrite.le {s : State} {n : Nat} (h : CanWrite s n) : n ≤ 2 ^ 32 := by
  rcases n with _ | k
  · exact Nat.zero_le _
  · have := lt_of_writable (h k k.lt_succ_self)
    omega

/-- What `WRITTEN` counts is the length of an output that is all writable. -/
theorem CanWrite.toNat_ofNat {s : State} {n : Nat} (h : CanWrite s n)
    (hn : BitVec.ofNat 32 n ≠ (0 : Word)) : (BitVec.ofNat 32 n).toNat = n := by
  have hlt : n < 2 ^ 32 := by
    refine lt_of_le_of_ne h.le ?_
    rintro rfl
    exact hn (by decide)
  rw [BitVec.toNat_ofNat, Nat.mod_eq_of_lt hlt]

/-- No bytes at all can always be written. -/
theorem ne_zero_of_not_canWrite {s : State} {n : Word} (h : ¬CanWrite s n.toNat) : n ≠ 0 := by
  rintro rfl
  exact h (canWrite_zero s)

/-- Settles O27: the run whose output is writable on the open platform fails at that output here.
That it wrote something says already that it ended `OK`. -/
theorem unwritableOutputIsReported : Obligations.UnwritableOutputIsReported := by
  intro s t i hcalm hexec _ hunwritable
  obtain ⟨early, memory, content, hrun, hopen⟩ := exec_run_withWriteMap i s [⟨0, 2 ^ 32⟩]
  have hcalm' : (s.withWriteMap [⟨0, 2 ^ 32⟩]).engine.isRaced = false := hcalm
  obtain rfl := Host.Outcome.next.inj ((hopen.trans (State.run_calm hcalm')).symm.trans hexec)
  have hsome := ne_zero_of_not_canWrite hunwritable
  obtain ⟨out, hchecks, hreadable, hcontent, hcan, hwritten⟩ := State.verdict_of_written hsome
  rw [hwritten] at hsome hunwritable ⊢
  rw [hcan.toNat_ofNat hsome] at hunwritable ⊢
  -- The checks and the readable sources are those of the open platform.
  have hverdict : s.verdict i early memory content = .writeFailed out.length := by
    have hf : firstFailed (early ++ s.regionChecks i ++ memory) = none := hchecks
    have hr : s.sourcesReadable i = true := hreadable
    simp only [State.verdict, hf, hr, if_true, hcontent]
    exact State.deliver_unwritable hunwritable
  refine ⟨s.complete (.writeFailed out.length), ?_, rfl, rfl, rfl, State.conclude_completed ..,
    State.conclude_undisturbed .., fun a ha => Memory.read_scramble_outside ha⟩
  rw [hrun, State.run_calm hcalm, hverdict]

end Sys2Proof.Machine
end

section
/-!
Settles O26. The checks each command makes before it reads memory, and that the first of them to
fail is the cause that 60_exceptions.md R421 tables; then the read check (R93, R420, R422).
-/
namespace Sys2Proof.Machine

/-! ### The checks of every command (R420, R421) -/

/-- The length checks of a command's arm (V4). -/
def State.lengthChecks (s : State) : Instr → List Check
  | .sha256 | .sha256d | .hmacSha256 => [s.dstLenIs 32]
  | .sha512 | .hmacSha512 => [s.dstLenIs 64]
  | .pbkdf2Sha256 => [s.dstLenMultiple 32]
  | .pbkdf2Sha512 => [s.dstLenMultiple 64]
  | .scrypt => [⟨s.dstLen != 0, .badDstLen⟩]
  | .aesEcbEncrypt | .aesEcbDecrypt => s.ecbChecks
  | .aesCbcEncrypt =>
    s.cbcChecks ++ [⟨decide (s.srcLen .src2 ≤ 2 ^ 32 - 17), .badSrc2Len⟩,
      ⟨decide (16 * (s.srcLen .src2 / 16) + 16 ≤ s.dstLen), .badDstLen⟩]
  | .aesCbcDecrypt =>
    s.cbcChecks ++ [⟨wholeBlocks (s.srcLen .src2), .badSrc2Len⟩,
      ⟨decide (s.srcLen .src2 - 1 ≤ s.dstLen), .badDstLen⟩]
  | .ecPrivVerify => [s.srcLenIs .src0 32 .badSrc0Len]
  | .ecPubFromPriv => [s.srcLenIs .src0 32 .badSrc0Len, s.dstLenIs 33]
  | .ecPubDecompress => [s.srcLenIs .src0 33 .badSrc0Len, s.dstLenIs 65]
  | .ecSignEcdsa | .ecSignSchnorr => s.signChecks
  | .ecSigVerifyEcdsa | .ecSigVerifySchnorr => s.verifyChecks
  | .ecSigNormalize => [s.srcLenIs .src0 64 .badSrc0Len, s.dstLenIs 64]
  | .ecSigToDer => [s.srcLenIs .src0 64 .badSrc0Len, ⟨decide (72 ≤ s.dstLen), .badDstLen⟩]
  | .ecSigFromDer =>
    [⟨decide (8 ≤ s.srcLen .src0) && decide (s.srcLen .src0 ≤ 72), .badSrc0Len⟩, s.dstLenIs 64]

/-- The parameter checks of a command's arm (V5). -/
def State.paramChecks (s : State) : Instr → List Check
  | .pbkdf2Sha256 | .pbkdf2Sha512 => [s.costNonzero]
  | .scrypt =>
    scryptChecks s.operands.param0.toNat s.operands.param1.toNat s.operands.param2.toNat
  | _ => []

/-- The memory check of a command's arm (V8). -/
def State.memoryChecks (s : State) : Instr → List Check
  | .scrypt =>
    [⟨decide (scryptNeed s.operands.param0.toNat s.operands.param1.toNat s.operands.param2.toNat ≤
      s.platform.scryptMemBytes), .noMemory⟩]
  | _ => []

/-- Every command is a run of these checks. -/
theorem exec_run_checks (i : Instr) (s : State) : ∃ content,
    exec i s = s.run i (s.lengthChecks i ++ s.paramChecks i) (s.memoryChecks i) content := by
  cases i <;> exact ⟨_, rfl⟩

/-! ### The first failure, as R421 says it -/

@[simp] theorem firstFailed_nil : firstFailed [] = none := rfl

/-- A refusal says the same where its condition does. -/
theorem refuseIf_congr {p q : Prop} [Decidable p] [Decidable q] (h : p ↔ q) (c : Cause) :
    refuseIf p c = refuseIf q c := by
  simp only [refuseIf, h]

theorem refuseIf_false (c : Cause) [Decidable False] : refuseIf False c = none := by
  simp [refuseIf]

theorem refuseIf_or {p q : Prop} [Decidable p] [Decidable q] (c : Cause) :
    (refuseIf p c).or (refuseIf q c) = refuseIf (p ∨ q) c := by
  by_cases hp : p <;> simp [refuseIf, hp]

/-- A check first in a list refuses under the condition `p` it fails for, the rest after it. -/
theorem firstFailed_cons {k : Check} {p : Prop} [Decidable p] (h : k.passes = false ↔ p)
    (l : List Check) : firstFailed (k :: l) = (refuseIf p k.cause).or (firstFailed l) := by
  rw [← refuseIf_congr h]
  cases hk : k.passes <;> simp [firstFailed, refuseIf, hk]

theorem firstFailed_decide (p : Prop) [Decidable p] (c : Cause) (l : List Check) :
    firstFailed (⟨decide p, c⟩ :: l) = (refuseIf (¬p) c).or (firstFailed l) :=
  firstFailed_cons decide_eq_false_iff_not l

/-- A test of several regions refuses where one of them fails it. -/
theorem firstFailed_map (test : Region → Bool) (c : Cause) (l : List Region) :
    firstFailed (l.map fun r => ⟨test r, c⟩) = refuseIf (∃ r ∈ l, test r = false) c := by
  induction l with
  | nil => simp [refuseIf]
  | cons r t ih =>
    rw [List.map_cons, firstFailed_cons Iff.rfl, ih, refuseIf_or]
    exact refuseIf_congr (by simp) c

theorem firstFailed_beq (a b : Nat) (c : Cause) (l : List Check) :
    firstFailed (⟨a == b, c⟩ :: l) = (refuseIf (a ≠ b) c).or (firstFailed l) :=
  firstFailed_decide (a = b) c l

theorem firstFailed_dstLenIs (s : State) (n : Nat) (l : List Check) :
    firstFailed (s.dstLenIs n :: l) = (refuseIf (s.dstLen ≠ n) .badDstLen).or (firstFailed l) :=
  firstFailed_decide ..

theorem firstFailed_srcLenIs (s : State) (k : Source) (n : Nat) (c : Cause) (l : List Check) :
    firstFailed (s.srcLenIs k n c :: l) = (refuseIf (s.srcLen k ≠ n) c).or (firstFailed l) :=
  firstFailed_decide ..

theorem firstFailed_dstLenNonzero (s : State) (c : Cause) (l : List Check) :
    firstFailed (⟨s.dstLen != 0, c⟩ :: l) = (refuseIf (s.dstLen < 1) c).or (firstFailed l) :=
  firstFailed_cons (by simp) l

theorem firstFailed_dstLenMultiple (s : State) (n : Nat) (l : List Check) :
    firstFailed (s.dstLenMultiple n :: l) =
      (refuseIf (s.dstLen = 0 ∨ s.dstLen % n ≠ 0) .badDstLen).or (firstFailed l) :=
  firstFailed_cons (by simp [State.dstLenMultiple, or_iff_not_imp_left]) l

theorem firstFailed_keyLenOk (s : State) (l : List Check) :
    firstFailed (s.keyLenOk :: l) =
      (refuseIf (s.srcLen .src0 ∉ [16, 24, 32]) .badSrc0Len).or (firstFailed l) :=
  firstFailed_cons (by simp [State.keyLenOk]) l

theorem firstFailed_wholeBlocks (n : Nat) (c : Cause) (l : List Check) :
    firstFailed (⟨wholeBlocks n, c⟩ :: l) =
      (refuseIf (n = 0 ∨ n % 16 ≠ 0) c).or (firstFailed l) :=
  firstFailed_cons (by simp [wholeBlocks, or_iff_not_imp_left]) l

theorem word_toNat_eq_zero {w : Word} : w.toNat = 0 ↔ w = 0 := by
  rw [← BitVec.toNat_inj]; rfl

/-- A parameter must not be 0. -/
theorem firstFailed_nonzero (w : Word) (c : Cause) (l : List Check) :
    firstFailed (⟨w.toNat != 0, c⟩ :: l) = (refuseIf (w = 0) c).or (firstFailed l) :=
  firstFailed_cons (by simp [word_toNat_eq_zero]) l

theorem firstFailed_decide_and (p q : Prop) [Decidable p] [Decidable q] (c : Cause)
    (l : List Check) :
    firstFailed (⟨decide p && decide q, c⟩ :: l) =
      (refuseIf (¬p ∨ ¬q) c).or (firstFailed l) :=
  firstFailed_cons (by simp [or_iff_not_imp_left]) l

/-- scrypt's cost (R231): the powers of two of a register, but for 1. -/
theorem cost_check_iff {n : Nat} (h : n < 2 ^ 32) :
    2 ≤ n ∧ n &&& (n - 1) = 0 ↔ ∃ k, k < 31 ∧ n = 2 ^ (k + 1) := by
  constructor
  · rintro ⟨h2, hand⟩
    obtain ⟨k, rfl⟩ := (Nat.and_sub_one_eq_zero_iff_isPowerOfTwo (by omega)).1 hand
    have hlt : k < 32 := (Nat.pow_lt_pow_iff_right (by decide)).1 h
    obtain ⟨j, rfl⟩ : ∃ j, k = j + 1 := Nat.exists_eq_succ_of_ne_zero (by rintro rfl; simp at h2)
    exact ⟨j, by omega, rfl⟩
  · rintro ⟨k, -, rfl⟩
    refine ⟨Nat.le_self_pow k.succ_ne_zero 2, ?_⟩
    exact (Nat.and_sub_one_eq_zero_iff_isPowerOfTwo (by simp)).2 ⟨_, rfl⟩

theorem firstFailed_cost (w : Word) (c : Cause) (l : List Check) :
    firstFailed (⟨decide (2 ≤ w.toNat) && w.toNat &&& (w.toNat - 1) == 0, c⟩ :: l) =
      (refuseIf (¬∃ k, k < 31 ∧ w.toNat = 2 ^ (k + 1)) c).or (firstFailed l) :=
  firstFailed_cons (by rw [← cost_check_iff w.isLt]; simp) l

/-! ### The refusals before a command reads memory (V4 to V8) -/

/-- V4: the length checks refuse as R421 tables. -/
theorem State.firstFailed_lengthChecks (s : State) (i : Instr) :
    firstFailed (s.lengthChecks i) = s.lengthRefusal i := by
  cases i with
  | sha256 | sha256d | sha512 | hmacSha256 | hmacSha512 =>
    simp [State.lengthChecks, State.lengthRefusal, firstFailed_dstLenIs]
  | pbkdf2Sha256 | pbkdf2Sha512 =>
    simp [State.lengthChecks, State.lengthRefusal, firstFailed_dstLenMultiple]
  | scrypt => simp [State.lengthChecks, State.lengthRefusal, firstFailed_dstLenNonzero]
  | aesEcbEncrypt | aesEcbDecrypt =>
    simp only [State.lengthChecks, State.lengthRefusal, State.ecbChecks, firstFailed_keyLenOk,
      firstFailed_wholeBlocks, firstFailed_beq, firstFailed_nil, Option.or_none]
  | aesCbcEncrypt =>
    simp only [State.lengthChecks, State.lengthRefusal, State.cbcChecks, List.cons_append,
      List.nil_append, firstFailed_keyLenOk, firstFailed_beq, firstFailed_decide, firstFailed_nil,
      Option.or_none, Nat.not_le]
  | aesCbcDecrypt =>
    simp only [State.lengthChecks, State.lengthRefusal, State.cbcChecks, List.cons_append,
      List.nil_append, firstFailed_keyLenOk, firstFailed_beq, firstFailed_wholeBlocks,
      firstFailed_decide, firstFailed_nil, Option.or_none, Nat.not_le]
  | ecPrivVerify | ecPubFromPriv | ecPubDecompress | ecSigNormalize =>
    simp [State.lengthChecks, State.lengthRefusal, firstFailed_srcLenIs, firstFailed_dstLenIs]
  | ecSignEcdsa | ecSignSchnorr =>
    simp only [State.lengthChecks, State.lengthRefusal, State.signChecks, firstFailed_srcLenIs,
      firstFailed_beq, firstFailed_nil, Option.or_none]
  | ecSigVerifyEcdsa | ecSigVerifySchnorr =>
    simp [State.lengthChecks, State.lengthRefusal, State.verifyChecks, firstFailed_srcLenIs]
  | ecSigToDer =>
    simp [State.lengthChecks, State.lengthRefusal, firstFailed_srcLenIs, firstFailed_decide]
  | ecSigFromDer =>
    simp only [State.lengthChecks, State.lengthRefusal, firstFailed_decide_and,
      firstFailed_dstLenIs, firstFailed_nil, Option.or_none, Nat.not_le]

/-- V5: the parameter checks refuse as R421 tables. -/
theorem State.firstFailed_paramChecks (s : State) (i : Instr) :
    firstFailed (s.paramChecks i) = s.paramRefusal i := by
  cases i
  case pbkdf2Sha256 | pbkdf2Sha512 =>
    simp [State.paramChecks, State.paramRefusal, State.costNonzero, firstFailed_nonzero]
  case scrypt =>
    simp only [State.paramChecks, State.paramRefusal, scryptChecks, firstFailed_cost,
      firstFailed_nonzero, firstFailed_decide_and, firstFailed_nil, Option.or_none, Nat.not_le]
    rfl
  all_goals rfl

/-- V8: the memory check refuses as R233 says. -/
theorem State.firstFailed_memoryChecks (s : State) (i : Instr) :
    firstFailed (s.memoryChecks i) = s.memoryRefusal i := by
  cases i
  case scrypt =>
    rw [State.memoryChecks, firstFailed_decide, firstFailed_nil, Option.or_none]
    exact refuseIf_congr (by simp [scryptNeed]) _
  all_goals rfl

theorem fits_eq_false {r : Region} : fits r = false ↔ 2 ^ 32 < r.base + r.size := by
  rw [← Bool.not_eq_true, fits_iff, Nat.not_le]

theorem overlaps_eq_true {r q : Region} : overlaps r q = true ↔
    r.size ≠ 0 ∧ q.size ≠ 0 ∧ r.base < q.base + q.size ∧ q.base < r.base + r.size := by
  rw [← Bool.not_eq_false, overlaps_eq_false]
  omega

/-- V6, V7: the region checks refuse as R83 and R84 say. -/
theorem State.firstFailed_regionChecks (s : State) (i : Instr) :
    firstFailed (s.regionChecks i) = s.regionRefusal i := by
  rw [State.regionChecks, firstFailed_append, firstFailed_map]
  cases hd : usesDest i with
  | false => simp [State.regionRefusal, State.sources, hd, fits_eq_false, refuseIf_false]
  | true =>
    simp only [if_true]
    rw [firstFailed_cons Iff.rfl, ← Option.or_assoc, refuseIf_or, firstFailed_map]
    simp [State.regionRefusal, State.sources, hd, fits_eq_false, overlaps_eq_true]

/-- V4 to V8: the checks of a command refuse as R421 tables, in R420's order. -/
theorem State.firstFailed_checks (s : State) (i : Instr) :
    firstFailed (s.lengthChecks i ++ s.paramChecks i ++ s.regionChecks i ++ s.memoryChecks i) =
      s.earlyRefusal i := by
  simp only [firstFailed_append, s.firstFailed_lengthChecks, s.firstFailed_paramChecks,
    s.firstFailed_regionChecks, s.firstFailed_memoryChecks, State.earlyRefusal, Option.or_assoc]

/-! ### The read check (V9) -/

theorem UnreadableSource.sourcesReadable_eq {s : State} {i : Instr} (h : UnreadableSource s i) :
    s.sourcesReadable i = false := by
  obtain ⟨k, hk, j, hj, hunreadable⟩ := h
  rw [← Bool.not_eq_true, State.sourcesReadable, List.all_eq_true]
  intro hall
  have hread := regionReadable_iff.1 (hall _ (List.mem_map_of_mem hk)) j hj
  simp [hunreadable] at hread

/-- Where no check refuses a command and a source is unreadable, that is its outcome (V9). -/
theorem State.verdict_of_unreadable {s : State} {i : Instr} {early memory : List Check}
    {content : Unit → Verdict}
    (hf : firstFailed (early ++ s.regionChecks i ++ memory) = none)
    (hr : s.sourcesReadable i = false) :
    s.verdict i early memory content = .raise .busErrorRead := by
  simp only [State.verdict, hf, hr, Bool.false_eq_true, if_false]

/-- Settles O26: the checks before V9 all pass, and V9 decides before the content is looked at. -/
theorem unreadableSourceIsReported : Obligations.UnreadableSourceIsReported := by
  intro s i hcalm hearly hunreadable
  obtain ⟨content, hrun⟩ := exec_run_checks i s
  have hpass := (s.firstFailed_checks i).trans hearly
  refine ⟨_, hrun.trans (State.run_calm hcalm), ?_⟩
  rw [State.verdict_of_unreadable hpass hunreadable.sourcesReadable_eq]
  exact s.complete_raise .busErrorRead

end Sys2Proof.Machine
end

section
/-!
Settles O33. When the block's tests for a race decide that buffers are touched, which bytes a race
frees, and what an access of the host to data memory does to the block (R80, R96, R97, R460).
-/
namespace Sys2Proof.Machine

/-! ### Which accesses race (R97) -/

theorem covers_iff {r : Region} {x : Nat} :
    covers r x = true ↔ r.base ≤ x ∧ x < r.base + r.size := by
  simp [covers]

/-- Regions overlap where some address lies in both. -/
theorem overlaps_iff_exists {r q : Region} : overlaps r q = true ↔
    ∃ x, (r.base ≤ x ∧ x < r.base + r.size) ∧ q.base ≤ x ∧ x < q.base + q.size := by
  rw [← Bool.not_eq_false, overlaps_eq_false]
  constructor
  · intro h
    exact ⟨max r.base q.base, by omega⟩
  · rintro ⟨x, h⟩
    omega

/-- The running command of a busy block. -/
theorem State.running_eq_some {s : State} {i : Instr} :
    s.running = some i ↔ ∃ w raced, s.engine = .busy w raced ∧ decode w = .ok i := by
  cases he : s.engine with
  | idle => simp [State.running, he]
  | busy w raced => cases hd : decode w <;> simp [State.running, he, hd, Except.toOption]

/-- An address of the destination that the running command owns. -/
theorem State.mem_ownedDest {s : State} {x : Nat} :
    s.ownedDest.base ≤ x ∧ x < s.ownedDest.base + s.ownedDest.size ↔
      ∃ i, s.running = some i ∧ usesDest i = true ∧
        s.dest.base ≤ x ∧ x < s.dest.base + s.dest.size := by
  cases hrun : s.running with
  | none => simp [State.ownedDest, hrun]
  | some i => cases hd : usesDest i <;> simp [State.ownedDest, hrun, hd]

theorem State.mem_ownedSources {s : State} {r : Region} :
    r ∈ s.ownedSources ↔ ∃ i, s.running = some i ∧ r ∈ s.sources i := by
  cases hrun : s.running <;> simp [State.ownedSources, hrun]

/-- A test of a block for a race decides where the running command's buffers are touched, and sees
nothing of the block but its engine and operands. -/
structure Decides (races : State → Bool) (touches : State → Instr → Prop) : Prop where
  iff : ∀ s, races s = true ↔ ∃ i, s.running = some i ∧ touches s i
  congr : ∀ s q i, s.operands = q.operands → (touches s i ↔ touches q i)

theorem State.loadRaces_decides (a n : Nat) :
    Decides (·.loadRaces ⟨a, n⟩) (TouchesDest · · a n) where
  iff s := by
    simp only [State.loadRaces, overlaps_iff_exists, State.mem_ownedDest, TouchesDest]
    constructor
    · rintro ⟨x, ⟨h1, h2⟩, i, hrun, hd, h⟩
      exact ⟨i, hrun, hd, x, h1, h2, h⟩
    · rintro ⟨i, hrun, hd, x, h1, h2, h⟩
      exact ⟨x, ⟨h1, h2⟩, i, hrun, hd, h⟩
  congr s q i h := by simp only [TouchesDest, State.dest, h]

theorem State.source_congr {s q : State} (h : s.operands = q.operands) (k : Source) :
    s.source k = q.source k := by
  cases k <;> simp only [State.source, h]

/-- An access touches a command's destination or a used source. -/
theorem touches_iff {s : State} {i : Instr} {a n : Nat} : Touches s i a n ↔
    TouchesDest s i a n ∨ ∃ r ∈ s.sources i, overlaps ⟨a, n⟩ r = true := by
  simp only [overlaps_iff_exists, State.sources, List.mem_map, exists_exists_and_eq_and]
  constructor
  · rintro ⟨x, h1, h2, ⟨hd, h⟩ | ⟨k, hk, h⟩⟩
    · exact .inl ⟨hd, x, h1, h2, h⟩
    · exact .inr ⟨k, hk, x, ⟨h1, h2⟩, h⟩
  · rintro (⟨hd, x, h1, h2, h⟩ | ⟨k, hk, x, ⟨h1, h2⟩, h⟩)
    · exact ⟨x, h1, h2, .inl ⟨hd, h⟩⟩
    · exact ⟨x, h1, h2, .inr ⟨k, hk, h⟩⟩

theorem State.storeRaces_decides (a n : Nat) :
    Decides (·.storeRaces ⟨a, n⟩) (Touches · · a n) where
  iff s := by
    have hdest : overlaps ⟨a, n⟩ s.ownedDest = true ↔
        ∃ i, s.running = some i ∧ TouchesDest s i a n := (State.loadRaces_decides a n).iff s
    simp only [State.storeRaces, Bool.or_eq_true, hdest, List.any_eq_true, State.mem_ownedSources,
      touches_iff]
    constructor
    · rintro (⟨i, hrun, ht⟩ | ⟨r, ⟨i, hrun, hr⟩, ht⟩)
      · exact ⟨i, hrun, .inl ht⟩
      · exact ⟨i, hrun, .inr ⟨r, hr, ht⟩⟩
    · rintro ⟨i, hrun, ht | ⟨r, hr, ht⟩⟩
      · exact .inl ⟨i, hrun, ht⟩
      · exact .inr ⟨r, ⟨i, hrun, hr⟩, ht⟩
  congr s q i h := by simp only [Touches, State.source_congr h, State.dest, h]

/-! ### The outputs that an access races with (R97) -/

section Access

variable {races : State → Bool} {touches : State → Instr → Prop}

theorem Decides.whileRunning (h : Decides races touches) (s : State) (f : Finished) :
    races (s.whileRunning f) = true ↔
      ∃ i, decode f.word = .ok i ∧ touches (s.whileRunning f) i := by
  simp [h.iff, State.running_eq_some]

/-- The bytes of the outputs raced with. -/
theorem Decides.mem_racedOutputs (h : Decides races touches) (s : State) (x : Nat) :
    (∃ r ∈ s.racedOutputs races, r.base ≤ x ∧ x < r.base + r.size) ↔ RacedOutput s touches x := by
  simp only [State.racedOutputs, RacedOutput, List.mem_map, List.mem_filter, h.whileRunning]
  constructor
  · rintro ⟨r, ⟨f, ⟨hf, i, hd, ht⟩, rfl⟩, hx⟩
    exact ⟨f, hf, i, hd, ht, hx⟩
  · rintro ⟨f, hf, i, hd, ht, hx⟩
    exact ⟨_, ⟨f, ⟨hf, i, hd, ht⟩, rfl⟩, hx⟩

/-- An access touches a command's buffers where one of its bytes does. -/
theorem touches_iff_byte {s : State} {i : Instr} {a n : Nat} :
    Touches s i a n ↔ ∃ x, a ≤ x ∧ x < a + n ∧ Touches s i x 1 := by
  simp only [Touches]
  constructor
  · rintro ⟨x, h1, h2, h⟩
    exact ⟨x, h1, h2, x, Nat.le_refl x, Nat.lt_succ_self x, h⟩
  · rintro ⟨x, h1, h2, y, h3, h4, h⟩
    obtain rfl : y = x := by omega
    exact ⟨y, h1, h2, h⟩

/-- An output raced with lies in the running command's buffers. -/
theorem Decides.any_racedOutputs (h : Decides races touches) (s : State) :
    (s.racedOutputs races).any s.storeRaces = true ↔
      ∃ i, s.running = some i ∧ ∃ x, RacedOutput s touches x ∧ Touches s i x 1 := by
  have hstore : ∀ r, s.storeRaces r = true ↔ ∃ i, s.running = some i ∧ Touches s i r.base r.size :=
    fun r => (State.storeRaces_decides r.base r.size).iff s
  simp only [List.any_eq_true, hstore, ← h.mem_racedOutputs]
  constructor
  · rintro ⟨r, hr, i, hrun, ht⟩
    obtain ⟨x, h1, h2, hx⟩ := touches_iff_byte.1 ht
    exact ⟨i, hrun, x, ⟨r, hr, h1, h2⟩, hx⟩
  · rintro ⟨i, hrun, x, ⟨r, hr, h1, h2⟩, hx⟩
    exact ⟨r, hr, i, hrun, touches_iff_byte.2 ⟨x, h1, h2, hx⟩⟩

/-- A byte of no output raced with is not freed by the race. -/
theorem Decides.race_mem_read (h : Decides races touches) {s : State} {x : Nat}
    (hx : ¬RacedOutput s touches x) : (s.race races).mem.read x = s.mem.read x := by
  rw [State.race_mem]
  refine Memory.read_scrambleAll_outside _ fun r hr => ?_
  by_contra hin
  exact hx ((h.mem_racedOutputs s x).1 ⟨r, hr, by omega⟩)

/-! ### The block at an access of the host to data memory (R80) -/

theorem Decides.racedOutput_congr (h : Decides races touches) {s q : State}
    (he : s.unobserved = q.unobserved) (x : Nat) :
    RacedOutput s touches x ↔ RacedOutput q touches x := by
  simp only [RacedOutput, he, fun f i => h.congr (s.whileRunning f) (q.whileRunning f) i rfl]

/-- The block at a host access, before its races: the memory, the events to come, the bus's answer
and the counter of draws differ. -/
def State.atAccess (s : State) (m : Memory) (l : List Event) (r : Response) (d : Nat) : State :=
  { s with mem := m, inbox := l, response := r, draws := d }

/-- The word is a command whose buffers the access touches, or in whose buffers an output lies that
the access races with. -/
def AccessMarks (s : State) (touches : State → Instr → Prop) (w : Word) : Prop :=
  ∃ i, decode w = .ok i ∧ (touches s i ∨ ∃ x, RacedOutput s touches x ∧ Touches s i x 1)

/-- The block's test for setting the mark, of a busy block. -/
theorem Decides.mark_iff (h : Decides races touches) {s : State} {w : Word} {raced : Bool}
    (he : s.engine = .busy w raced) :
    (races s || (s.racedOutputs races).any s.storeRaces) = true ↔ AccessMarks s touches w := by
  have hrun : ∀ i, s.running = some i ↔ decode w = .ok i := fun i => by
    simp [State.running_eq_some, he]
  simp only [AccessMarks, Bool.or_eq_true, h.iff, h.any_racedOutputs, hrun, and_or_left, exists_or]

theorem Decides.accessMarks_congr (h : Decides races touches) {s q : State}
    (ho : s.operands = q.operands) (he : s.unobserved = q.unobserved) (w : Word) :
    AccessMarks s touches w ↔ AccessMarks q touches w := by
  simp only [AccessMarks, h.congr s q _ ho, (State.storeRaces_decides _ _).congr s q _ ho,
    h.racedOutput_congr he]

/-- At an access the running command is marked exactly where `AccessMarks` says. -/
theorem Decides.race_engine_busy (h : Decides races touches) (s : State) (m : Memory)
    (l : List Event) (r : Response) (d : Nat) {w : Word} {raced : Bool}
    (he : s.engine = .busy w raced) :
    (AccessMarks s touches w → ((s.atAccess m l r d).race races).engine = .busy w true) ∧
      (¬AccessMarks s touches w → ((s.atAccess m l r d).race races).engine = .busy w raced) := by
  have he' : (s.atAccess m l r d).engine = .busy w raced := he
  rw [State.race_engine, h.accessMarks_congr (s := s) (q := s.atAccess m l r d) rfl rfl,
    ← h.mark_iff he']
  refine ⟨fun hm => ?_, fun hm => ?_⟩
  · rw [if_pos hm]
    exact State.markRaced_busy _ w raced he'
  · rw [if_neg hm, he']

/-- An access of the host changes no register, and marks where it races. -/
theorem Decides.hostAccess (h : Decides races touches) (s : State) (m : Memory) (l : List Event)
    (r : Response) (d : Nat) : HostAccess s ((s.atAccess m l r d).race races) touches where
  operands := State.race_operands ..
  result := State.race_result ..
  cause := State.race_cause ..
  written := State.race_written ..
  lastcmd := State.race_lastcmd ..
  done := State.race_done ..
  werr := State.race_werr ..
  ie := State.race_ie ..
  unobserved := State.race_unobserved ..
  idle he := by
    rw [State.race_engine]
    split
    · exact State.markRaced_idle _ he
    · exact he
  noCommand w raced e he hd := by
    rw [he]
    exact (h.race_engine_busy s m l r d he).2 (by simp [AccessMarks, hd])
  marked w raced i he hd ht := (h.race_engine_busy s m l r d he).1 ⟨i, hd, ht⟩
  unmarked w raced i he hd hn hx := by
    refine (h.race_engine_busy s m l r d he).2 ?_
    rintro ⟨j, hj, hm⟩
    obtain rfl : i = j := Except.ok.inj (hd.symm.trans hj)
    rcases hm with hm | ⟨x, hout, hm⟩
    · exact hn hm
    · exact hx x hout hm

/-- A byte of no output raced with is as the access left it. -/
theorem Decides.read_atAccess (h : Decides races touches) {s : State} {m : Memory}
    {l : List Event} {r : Response} {d x : Nat} (hx : ¬RacedOutput s touches x) :
    ((s.atAccess m l r d).race races).mem.read x = m.read x :=
  h.race_mem_read (mt (h.racedOutput_congr (s := s.atAccess m l r d) (q := s) rfl x).1 hx)

end Access

/-! ### The host's store and load (R80, R96, R97) -/

theorem step_memStore {s : State} {addr : Word} {b : Bytes} {rest : List Event}
    (hi : s.inbox = .memStore addr b :: rest) (hfit : addr.toNat + b.length ≤ 2 ^ 32) :
    step s = .next ((s.atAccess (s.mem.writeBytes addr.toNat b) rest .ack s.draws).race
      (·.storeRaces ⟨addr.toNat, b.length⟩)) := by
  rw [step_of_inbox_cons hi]
  exact if_pos hfit

theorem step_memLoad {s : State} {addr : Word} {n : Nat} {rest : List Event}
    (hi : s.inbox = .memLoad addr n :: rest) (hfit : addr.toNat + n ≤ 2 ^ 32) :
    step s = .next ((s.atAccess s.mem rest
      (.bytes ((List.range n).map fun k => s.hostByte (addr.toNat + k))) (s.draws + 1)).race
      (·.loadRaces ⟨addr.toNat, n⟩)) := by
  rw [step_of_inbox_cons hi]
  exact if_pos hfit

theorem touchesDest_byte {s : State} {i : Instr} {x : Nat} : TouchesDest s i x 1 ↔
    usesDest i = true ∧ s.dest.base ≤ x ∧ x < s.dest.base + s.dest.size := by
  refine and_congr_right fun _ => ⟨?_, fun h => ⟨x, Nat.le_refl x, Nat.lt_succ_self x, h⟩⟩
  rintro ⟨y, h1, h2, h⟩
  omega

/-- An address of the destination that the running command owns is one that a load would touch. -/
theorem State.covers_ownedDest {s : State} {x : Nat} : covers s.ownedDest x = true ↔
    ∃ w raced i, s.engine = .busy w raced ∧ decode w = .ok i ∧ TouchesDest s i x 1 := by
  rw [covers_iff, State.mem_ownedDest]
  simp only [State.running_eq_some, touchesDest_byte]
  constructor
  · rintro ⟨i, ⟨w, raced, he, hd⟩, h⟩
    exact ⟨w, raced, i, he, hd, h⟩
  · rintro ⟨w, raced, i, he, hd, h⟩
    exact ⟨i, ⟨w, raced, he, hd⟩, h⟩

theorem State.ownedDests_any {s : State} {x : Nat} :
    s.ownedDests.any (covers · x) = true ↔ InOwnedDest s x := by
  simp [State.ownedDests, InOwnedDest, State.covers_ownedDest]

/-- Outside the owned destinations and the devices a load gives the memory's byte. -/
theorem State.hostByte_eq {s : State} {x : Nat} (hown : ¬InOwnedDest s x)
    (hdev : isDevice s.platform x = false) : s.hostByte x = s.mem.read x := by
  rw [State.hostByte, if_neg (mt State.ownedDests_any.1 hown), State.fetchByte, hdev]
  rfl

/-- A completion adds its command to those the host has not observed. -/
theorem unobserved_of_completionNext {s t : State} {w : Word} (h : CompletionNext s w)
    (hstep : step s = .next t) : t.unobserved = ⟨w, s.operands, t.written⟩ :: s.unobserved := by
  obtain ⟨c, n, m, hconclude, -⟩ := step_of_completionNext h
  obtain rfl := Host.Outcome.next.inj (hconclude.symm.trans hstep)
  obtain ⟨-, ⟨raced, he⟩, -⟩ := h
  exact State.withFinished_busy (s := s.withInbox s.inbox.tail) he _

/-- Settles O33, from what an access does at the block and where its races free bytes. -/
theorem hostStoreRacesWhereItTouches : Obligations.HostStoreRacesWhereItTouches := by
  intro s addr rest
  refine ⟨fun b hwf hi hfit => ?_, fun n hi hfit => ?_, fun w t => unobserved_of_completionNext⟩
  · have decides := State.storeRaces_decides addr.toNat b.length
    refine ⟨_, step_memStore hi hfit, decides.hostAccess .., fun k hk hx => ?_, fun a ha hx => ?_⟩
    · exact (decides.read_atAccess hx).trans (Memory.read_writeBytes_inside hwf hfit hk)
    · exact (decides.read_atAccess hx).trans (Memory.read_writeBytes_outside ha)
  · have decides := State.loadRaces_decides addr.toNat n
    refine ⟨_, _, step_memLoad hi hfit, decides.hostAccess .., State.race_response .., by simp,
      fun k hk hown hdev => ?_, fun a hx => decides.read_atAccess hx⟩
    simp [List.getD_eq_getElem?_getD, hk, State.hostByte_eq hown hdev]

end Sys2Proof.Machine
end
section
/-!
Settles O1, O2, O5 and O3. The decoder and the encoder are inverse: a word and its three fields
determine each other (R110), an opcode and its number too (R112), and `decode` accepts a word
exactly where its fields are those of a command (R113, R118).
-/
namespace Sys2Proof

/-! ### A word and its fields (R110) -/

theorem fieldsOf_opc_toNat (w : Word) : (fieldsOf w).opc.toNat = w.toNat % 256 := by
  simp [fieldsOf, BitVec.extractLsb'_toNat]

theorem fieldsOf_flg_toNat (w : Word) : (fieldsOf w).flg.toNat = w.toNat / 256 % 256 := by
  simp [fieldsOf, BitVec.extractLsb'_toNat, Nat.shiftRight_eq_div_pow]

theorem fieldsOf_rsv_toNat (w : Word) : (fieldsOf w).rsv.toNat = w.toNat / 65536 := by
  have hw : w.toNat < 2 ^ 32 := w.isLt
  simp only [fieldsOf, BitVec.extractLsb'_toNat, Nat.shiftRight_eq_div_pow]
  omega

theorem wordOf_fieldsOf (w : Word) : wordOf (fieldsOf w) = w :=
  calc w.extractLsb' 16 16 ++ w.extractLsb' 8 8 ++ w.extractLsb' 0 8
      = w.extractLsb' 8 24 ++ w.extractLsb' 0 8 :=
        congrArg (· ++ w.extractLsb' 0 8)
          (BitVec.extractLsb'_append_extractLsb'_eq_extractLsb' rfl)
    _ = w.extractLsb' 0 32 := BitVec.extractLsb'_append_extractLsb'_eq_extractLsb' rfl
    _ = w := BitVec.extractLsb'_eq_self

theorem fieldsOf_wordOf (c : CommandWord) : fieldsOf (wordOf c) = c := by
  have hopc : (c.rsv ++ c.flg ++ c.opc).extractLsb' 0 8 = c.opc :=
    BitVec.extractLsb'_append_eq_right
  have hflg : (c.rsv ++ c.flg ++ c.opc).extractLsb' 8 8 = c.flg :=
    (BitVec.extractLsb'_append_eq_of_le le_rfl).trans BitVec.extractLsb'_append_eq_right
  have hrsv : (c.rsv ++ c.flg ++ c.opc).extractLsb' 16 16 = c.rsv :=
    (BitVec.extractLsb'_append_eq_of_le (by decide)).trans BitVec.extractLsb'_append_eq_left
  simp only [fieldsOf, wordOf, hopc, hflg, hrsv]

/-- A word and its fields determine each other. -/
theorem fieldsOf_eq_iff {w : Word} {c : CommandWord} : fieldsOf w = c ↔ w = wordOf c :=
  ⟨fun h => h ▸ (wordOf_fieldsOf w).symm, fun h => h ▸ fieldsOf_wordOf c⟩

/-! ### The opcode map (R112, R114) -/

/-- The number of an opcode; `opcodeOf_eq_some_iff` says that `opcodeOf` is its inverse. -/
def Opcode.code : Opcode → Byte
  | .sha256 => 0x01
  | .sha256d => 0x02
  | .sha512 => 0x03
  | .hmacSha256 => 0x11
  | .hmacSha512 => 0x12
  | .pbkdf2Sha256 => 0x21
  | .pbkdf2Sha512 => 0x22
  | .scrypt => 0x28
  | .aesEcb => 0x31
  | .aesCbc => 0x32
  | .ecPrivVerify => 0x41
  | .ecPubFromPriv => 0x42
  | .ecPubDecompress => 0x43
  | .ecSign => 0x44
  | .ecSigVerify => 0x45
  | .ecSigNormalize => 0x46
  | .ecSigToDer => 0x47
  | .ecSigFromDer => 0x48

theorem opcodeOf_code (o : Opcode) : opcodeOf o.code = some o := by
  cases o <;> rfl

/-- The number of the opcode that the map gives is the number it was given. -/
theorem code_of_opcodeOf {b : Byte} {o : Opcode} (h : opcodeOf b = some o) : b = o.code := by
  apply BitVec.eq_of_toNat_eq
  unfold opcodeOf at h
  split at h <;> cases h <;> assumption

theorem opcodeOf_eq_some_iff {b : Byte} {o : Opcode} : opcodeOf b = some o ↔ b = o.code :=
  ⟨code_of_opcodeOf, fun h => h ▸ opcodeOf_code o⟩

/-- The opcode map has no opcode exactly for the numbers that are not assigned. -/
theorem opcodeOf_eq_none_iff {b : Byte} :
    opcodeOf b = none ↔ b.toNat ∉ [0x01, 0x02, 0x03, 0x11, 0x12, 0x21, 0x22, 0x28, 0x31, 0x32,
      0x41, 0x42, 0x43, 0x44, 0x45, 0x46, 0x47, 0x48] := by
  unfold opcodeOf
  split <;> simp_all

/-! ### The flags of an opcode (R113) -/

theorem plainForm_eq_some_iff {i j : Instr} {flg : Byte} :
    plainForm i flg = some j ↔ flg = 0x00 ∧ i = j := by
  simp [plainForm, BitVec.toNat_eq]

theorem flaggedForm_eq_some_iff {one two j : Instr} {flg : Byte} :
    flaggedForm one two flg = some j ↔ flg = 0x01 ∧ one = j ∨ flg = 0x02 ∧ two = j := by
  unfold flaggedForm
  split <;> simp_all [BitVec.toNat_eq]

theorem plainForm_eq_none_iff {i : Instr} {flg : Byte} :
    plainForm i flg = none ↔ ¬ flg.toNat = 0x00 := by
  simp [plainForm]

theorem flaggedForm_eq_none_iff {one two : Instr} {flg : Byte} :
    flaggedForm one two flg = none ↔ ¬ (flg.toNat = 0x01 ∨ flg.toNat = 0x02) := by
  simp only [flaggedForm]
  split <;> simp_all

/-- A command selected by an opcode and its flags has them as the fields of its word. -/
theorem fields_of_selectForm {o : Opcode} {flg : Byte} {i : Instr}
    (h : selectForm o flg = some i) : i.fields = ⟨o.code, flg, 0⟩ := by
  cases o with
  | aesEcb | aesCbc | ecSign | ecSigVerify =>
    obtain ⟨rfl, rfl⟩ | ⟨rfl, rfl⟩ := flaggedForm_eq_some_iff.mp h <;> rfl
  | _ =>
    obtain ⟨rfl, rfl⟩ := plainForm_eq_some_iff.mp h
    rfl

/-- An opcode selects no command exactly for the flags that are not legal for its number. -/
theorem selectForm_eq_none_iff {o : Opcode} {flg : Byte} :
    selectForm o flg = none ↔
      ¬ if o.code.toNat ∈ [0x31, 0x32, 0x44, 0x45] then flg.toNat = 0x01 ∨ flg.toNat = 0x02
        else flg.toNat = 0x00 := by
  cases o with
  | aesEcb | aesCbc | ecSign | ecSigVerify => exact flaggedForm_eq_none_iff
  | _ => exact plainForm_eq_none_iff

/-! ### The decoder, an equation per outcome (R118) -/

section Outcomes
variable {w : Word} {o : Opcode}

theorem decode_of_unassigned (h : opcodeOf (fieldsOf w).opc = none) :
    decode w = .error .illegalOpcode := by
  simp [decode, h]

theorem decode_of_reserved (h : opcodeOf (fieldsOf w).opc = some o)
    (hr : (fieldsOf w).rsv.toNat ≠ 0) : decode w = .error .reservedBits := by
  simp [decode, h, hr]

theorem decode_of_badFlags (h : opcodeOf (fieldsOf w).opc = some o)
    (hr : (fieldsOf w).rsv.toNat = 0) (hf : selectForm o (fieldsOf w).flg = none) :
    decode w = .error .badFlags := by
  simp [decode, h, hr, hf]

theorem decode_of_selected {i : Instr} (h : opcodeOf (fieldsOf w).opc = some o)
    (hr : (fieldsOf w).rsv.toNat = 0) (hf : selectForm o (fieldsOf w).flg = some i) :
    decode w = .ok i := by
  simp [decode, h, hr, hf]

end Outcomes

/-- The decoder accepts a word only through all three of its checks. -/
theorem selected_of_decode {w : Word} {i : Instr} (h : decode w = .ok i) :
    ∃ o, opcodeOf (fieldsOf w).opc = some o ∧ (fieldsOf w).rsv.toNat = 0 ∧
      selectForm o (fieldsOf w).flg = some i := by
  cases ho : opcodeOf (fieldsOf w).opc with
  | none => cases (decode_of_unassigned ho).symm.trans h
  | some o =>
    by_cases hr : (fieldsOf w).rsv.toNat = 0
    · cases hf : selectForm o (fieldsOf w).flg with
      | none => cases (decode_of_badFlags ho hr hf).symm.trans h
      | some j =>
        cases (decode_of_selected ho hr hf).symm.trans h
        exact ⟨o, rfl, hr, hf⟩
    · cases (decode_of_reserved ho hr).symm.trans h

/-- The decoder reads a command from a word exactly where the fields are the command's. -/
theorem decode_eq_ok_iff {w : Word} {i : Instr} : decode w = .ok i ↔ fieldsOf w = i.fields := by
  constructor
  · intro h
    obtain ⟨o, ho, hr, hf⟩ := selected_of_decode h
    calc fieldsOf w
        = ⟨o.code, (fieldsOf w).flg, 0⟩ :=
          congrArg₂ (CommandWord.mk · (fieldsOf w).flg ·) (code_of_opcodeOf ho)
            (BitVec.eq_of_toNat_eq hr)
      _ = i.fields := (fields_of_selectForm hf).symm
  · intro h
    simp only [decode, h]
    cases i <;> rfl

/-- Settles O1: the fields of the word are the command's, and they determine the word. -/
theorem decoderAcceptsExactlyTheEncodings : Obligations.DecoderAcceptsExactlyTheEncodings :=
  fun _ _ => decode_eq_ok_iff.trans fieldsOf_eq_iff

/-- The decoder gives back every encoded command. -/
theorem decode_encode (i : Instr) : decode (encode i) = .ok i :=
  (decoderAcceptsExactlyTheEncodings (encode i) i).mpr rfl

/-- Settles O2: the digits are the fields, and each case is one outcome of the decoder. -/
theorem decoderClassifiesEveryWord : Obligations.DecoderClassifiesEveryWord := by
  intro w
  simp only [← fieldsOf_opc_toNat, ← fieldsOf_flg_toNat, ← fieldsOf_rsv_toNat]
  cases ho : opcodeOf (fieldsOf w).opc with
  | none =>
    have hun := opcodeOf_eq_none_iff.mp ho
    exact ⟨fun _ => decode_of_unassigned ho, fun ha => absurd ha hun, fun ha => absurd ha hun,
      fun ha => absurd ha hun⟩
  | some o =>
    have hopc : (fieldsOf w).opc = o.code := code_of_opcodeOf ho
    refine ⟨fun hun => ?_, fun _ hr => decode_of_reserved ho hr, fun _ hr hbad => ?_,
      fun _ hr hlegal => ?_⟩
    · cases ho.symm.trans (opcodeOf_eq_none_iff.mpr hun)
    · exact decode_of_badFlags ho hr (selectForm_eq_none_iff.mpr (hopc ▸ hbad))
    · cases hf : selectForm o (fieldsOf w).flg with
      | none => exact absurd (hopc ▸ hlegal) (selectForm_eq_none_iff.mp hf)
      | some i =>
        exact ⟨i, decode_of_selected ho hr hf, by simp [fields_of_selectForm hf, hopc]⟩

/-- Settles O3: the commands' words are encodings, the others fall under a case of the decoder. -/
theorem writtenOutWordsDecode : Obligations.WrittenOutWordsDecode :=
  ⟨decode_encode .sha256, decode_encode .hmacSha512, decode_encode .scrypt,
    decode_encode .aesCbcDecrypt, decode_encode .ecSignEcdsa, decode_of_unassigned rfl,
    decode_of_reserved (o := .sha256) rfl (by decide),
    decode_of_badFlags (o := .ecSign) rfl rfl rfl⟩

namespace Machine

/-! ### A word that is no command (R116) -/

/-- The three causes of a word that is no command, all of class `EINVAL`. -/
theorem decodeCause_einval (e : DecodeError) :
    decodeCause e ∈ [Cause.illegalOpcode, Cause.reservedBits, Cause.badFlags] ∧
      (decodeCause e).resultClass = .einval := by
  cases e <;> decide

/-- Settles O5: the engine's turn runs the command that the word encodes, or completes with the
decoder's cause. -/
theorem everyWordExecutesOrIsRefused : Obligations.EveryWordExecutesOrIsRefused := by
  rintro s w ⟨hreset, ⟨raced, hbusy⟩, hnext⟩
  rw [step_of_engineNext hnext]
  cases hd : decode w with
  | ok i =>
    exact .inl ⟨i, (decoderAcceptsExactlyTheEncodings w i).mp hd,
      engineTurn_command hreset hbusy hd⟩
  | error e =>
    obtain ⟨hcause, heinval⟩ := decodeCause_einval e
    have hends := State.complete_raise (s.withInbox s.inbox.tail) (decodeCause e)
    refine .inr ⟨fun i hw => ?_, decodeCause e, hcause, _,
      engineTurn_noCommand hreset hbusy hd, hends.result.trans heinval, hends⟩
    cases hd.symm.trans ((decoderAcceptsExactlyTheEncodings w i).mpr hw)

end Machine
end Sys2Proof
end

section
/-!
Settles O6, O46 and O47. A command whose output has one fixed length; the SHA padding, its zeros fixed
by their congruence (R143, R163); and the SHA message schedule, first with the latest word in front as
the model extends it, then in the order of R144 and R164.
-/
namespace Sys2Proof.Machine

/-! ### A command with an output of fixed length (R117) -/

/-- `WRITTEN` is the length of the output, as a register word. -/
theorem EndsOk.written_eq {s t : State} {out : Bytes} (h : EndsOk s t out) :
    t.written = BitVec.ofNat 32 out.length := by
  rw [← h.written, BitVec.ofNat_toNat, BitVec.setWidth_eq]

/-- A ready command whose one check asks for a destination of exactly its output's length ends `OK`
with that output. -/
theorem State.run_fixedLength {s : State} {i : Instr} {out : Bytes} {n : Nat}
    (hm : s.mem.wf = true) (h : Ready s i) (hi : usesDest i = true) (ho : out.length = n)
    (hd : s.dstLen = n) (hw : CanWrite s n) :
    ∃ t, s.run i [s.dstLenIs n] [] (fun _ => .finish out) = .next t ∧
      EndsOk s t out ∧ t.written = BitVec.ofNat 32 n := by
  subst ho
  have hfits : s.dest.base + out.length ≤ 2 ^ 32 := hd ▸ h.destFits hi
  obtain ⟨t, hrun, hends⟩ := State.run_endsOk (early := [s.dstLenIs out.length]) (memory := [])
    (content := fun _ => .finish out) hm h (by simp [State.dstLenIs, hd]) (by simp) rfl hw hfits
    (hd ▸ s.dstLen_lt)
  exact ⟨t, hrun, hends, hends.written_eq⟩

/-- Settles O6: each digest has the one length that its command checks. -/
theorem digestResults : Obligations.DigestResults := by
  intro s hm
  refine ⟨fun h => ?_, fun h => ?_, fun h => ?_⟩
  · exact State.run_fixedLength hm h rfl (sha256_length _)
  · exact State.run_fixedLength hm h rfl (sha256d_length _)
  · exact State.run_fixedLength hm h rfl (sha512_length _)

/-! ### Padding (R143, R163) -/

section Padding
variable {w : Nat} (c : ShaCore w)

/-- The number of zero bytes in the padding of a message of `l` bytes. -/
def ShaCore.zeros (l : Nat) : Nat :=
  (2 * c.blockBytes - 2 * c.wordBytes - 1 - l % c.blockBytes) % c.blockBytes

theorem ShaCore.pad_eq (m : Bytes) :
    c.pad m = m ++ [0x80] ++ List.replicate (c.zeros m.length) 0x00 ++
      beBytes (2 * c.wordBytes) (8 * m.length) := rfl

theorem ShaCore.pad_length (m : Bytes) :
    (c.pad m).length = m.length + 1 + c.zeros m.length + 2 * c.wordBytes := by
  simp only [c.pad_eq, List.length_append, List.length_replicate, List.length_singleton,
    beBytes_length]

variable (hw : 0 < c.wordBytes)
include hw

theorem ShaCore.blockBytes_pos : 0 < c.blockBytes := Nat.mul_pos (by decide) hw

theorem ShaCore.zeros_lt (l : Nat) : c.zeros l < c.blockBytes :=
  Nat.mod_lt _ (c.blockBytes_pos hw)

/-- The zeros leave room for the length, two words, in the last block. -/
theorem ShaCore.zeros_congruence (l : Nat) :
    (l + 1 + c.zeros l) % c.blockBytes = 14 * c.wordBytes := by
  have hblock : c.blockBytes = 16 * c.wordBytes := rfl
  have hrest : l % c.blockBytes < c.blockBytes := Nat.mod_lt _ (c.blockBytes_pos hw)
  have hsplit := Nat.div_add_mod l c.blockBytes
  calc (l + 1 + c.zeros l) % c.blockBytes
      = (l + 1 + (2 * c.blockBytes - 2 * c.wordBytes - 1 - l % c.blockBytes)) % c.blockBytes :=
        Nat.add_mod_mod ..
    _ = (14 * c.wordBytes + c.blockBytes * (l / c.blockBytes + 1)) % c.blockBytes := by
        rw [Nat.mul_add]; congr 1; omega
    _ = 14 * c.wordBytes := by
        rw [Nat.add_mul_mod_self_left, Nat.mod_eq_of_lt (by omega)]

/-- The padded message is whole blocks, as few as hold the message, 0x80 and the length. -/
theorem ShaCore.pad_length_blocks (m : Bytes) :
    (c.pad m).length =
      c.blockBytes * ((m.length + 2 * c.wordBytes) / c.blockBytes + 1) := by
  have hblock : c.blockBytes = 16 * c.wordBytes := rfl
  have hzeros := c.zeros_lt hw m.length
  have hcongr := c.zeros_congruence hw m.length
  have hsplit := Nat.div_add_mod (m.length + 1 + c.zeros m.length) c.blockBytes
  have hdiv : (m.length + 2 * c.wordBytes) / c.blockBytes =
      (m.length + 1 + c.zeros m.length) / c.blockBytes := by
    refine Nat.div_eq_of_lt_le ?_ ?_
    · rw [Nat.mul_comm]; omega
    · rw [Nat.mul_comm _ c.blockBytes, Nat.mul_succ]; omega
  rw [c.pad_length, hdiv, Nat.mul_add]
  omega

end Padding

/-- Settles O46, from the padding of either core. -/
theorem shaPaddingRule : Obligations.ShaPaddingRule := fun m =>
  have h256 : 0 < sha256Core.wordBytes := by decide
  have h512 : 0 < sha512Core.wordBytes := by decide
  ⟨⟨_, sha256Core.zeros_lt h256 _, sha256Core.zeros_congruence h256 _, sha256Core.pad_eq m⟩,
    sha256Core.pad_length_blocks h256 m,
    ⟨_, sha512Core.zeros_lt h512 _, sha512Core.zeros_congruence h512 _, sha512Core.pad_eq m⟩,
    sha512Core.pad_length_blocks h512 m⟩

/-! ### The message schedule (R144, R164) -/

/-- Block `t` of a string cut into blocks of `n` bytes; past the last one both sides are empty. -/
theorem chunks_getD {n : Nat} (hn : 0 < n) (l : Bytes) (t : Nat) :
    (chunks n l).getD t [] = slice l (n * t) (n * t + n) := by
  induction t generalizing l with
  | zero => cases l with
    | nil => simp [slice]
    | cons a l => simp [chunks_cons hn, slice]
  | succ t ih =>
    by_cases hl : l = []
    · simp [hl, slice]
    · rw [chunks_cons hn hl, List.getD_cons_succ, ih]
      simp [slice, Nat.mul_succ, Nat.add_comm]

/-- Item `j` of the last `t` items of a list stands `j + 1` places before place `t` in the list
reversed. -/
theorem getD_drop_eq_getD_reverse {α : Type} (l : List α) (d : α) {j t : Nat} (hj : j < t)
    (ht : t ≤ l.length) : (l.drop (l.length - t)).getD j d = l.reverse.getD (t - (j + 1)) d := by
  rw [List.getD_reverse _ (by omega), List.getD_eq_getElem?_getD, List.getElem?_drop,
    ← List.getD_eq_getElem?_getD]
  congr 1
  omega

section Schedule
variable {w : Nat} (c : ShaCore w)

/-- The last word that `extend` adds is the next word after all the others. -/
theorem ShaCore.extend_succ (n : Nat) (latest : List (BitVec w)) :
    c.extend (n + 1) latest = c.nextWord (c.extend n latest) :: c.extend n latest := by
  induction n generalizing latest with
  | zero => rfl
  | succ n ih => exact ih _

theorem ShaCore.extend_length (n : Nat) (latest : List (BitVec w)) :
    (c.extend n latest).length = latest.length + n := by
  induction n with
  | zero => rfl
  | succ n ih => rw [c.extend_succ, List.length_cons, ih, Nat.add_assoc]

/-- The words given stand behind the words added. -/
theorem ShaCore.suffix_extend (n : Nat) (latest : List (BitVec w)) :
    latest <:+ c.extend n latest := by
  induction n with
  | zero => exact List.suffix_refl _
  | succ n ih => exact c.extend_succ n latest ▸ ih.trans (List.suffix_cons ..)

/-- Each word added is the next word after the words behind it. -/
theorem ShaCore.extend_getD_new {n k : Nat} (latest : List (BitVec w)) (hk : k < n) :
    (c.extend n latest).getD k 0 = c.nextWord ((c.extend n latest).drop (k + 1)) := by
  induction n generalizing k with
  | zero => omega
  | succ n ih =>
    rw [c.extend_succ]
    cases k with
    | zero => rfl
    | succ k => exact ih (Nat.lt_of_succ_lt_succ hk)

/-- The sixteen words of a block. -/
def ShaCore.blockWords (block : Bytes) : List (BitVec w) :=
  (chunks c.wordBytes block).map fun b => BitVec.ofNat w (beNat b)

theorem ShaCore.schedule_eq (block : Bytes) :
    c.schedule block =
      (c.extend (c.constants.length - 16) (c.blockWords block).reverse).reverse := rfl

variable (hw : 0 < c.wordBytes) {block : Bytes} (hblock : block.length = c.blockBytes)
include hw hblock

theorem ShaCore.blockWords_length : (c.blockWords block).length = 16 := by
  rw [ShaCore.blockWords, List.length_map]
  exact (chunks_length_of_mem hw 16 (hblock.trans (Nat.mul_comm ..))).1

/-- The first sixteen words are the block's own. -/
theorem ShaCore.schedule_getD_first {t : Nat} (ht : t < 16) :
    (c.schedule block).getD t 0 =
      BitVec.ofNat w (beNat (slice block (c.wordBytes * t) (c.wordBytes * t + c.wordBytes))) := by
  have hprefix : c.blockWords block <+: c.schedule block := by
    simpa [c.schedule_eq] using
      List.reverse_prefix.mpr
        (c.suffix_extend (c.constants.length - 16) (c.blockWords block).reverse)
  obtain ⟨later, hlater⟩ := hprefix
  rw [← hlater, List.getD_append _ _ _ _ (by rwa [c.blockWords_length hw hblock]),
    ← chunks_getD hw]
  exact List.getD_map _ [] fun b => BitVec.ofNat w (beNat b)

variable (hrounds : 16 ≤ c.constants.length)
include hrounds

theorem ShaCore.schedule_length : (c.schedule block).length = c.constants.length := by
  rw [c.schedule_eq, List.length_reverse, c.extend_length, List.length_reverse,
    c.blockWords_length hw hblock]
  omega

/-- Each later word comes from the words 2, 7, 15 and 16 places before it. -/
theorem ShaCore.schedule_getD_later {t : Nat} (h16 : 16 ≤ t) (ht : t < c.constants.length) :
    (c.schedule block).getD t 0 =
      c.ssig1 ((c.schedule block).getD (t - 2) 0) + (c.schedule block).getD (t - 7) 0 +
        c.ssig0 ((c.schedule block).getD (t - 15) 0) + (c.schedule block).getD (t - 16) 0 := by
  have hlength := c.schedule_length hw hblock hrounds
  rw [c.schedule_eq] at hlength ⊢
  rw [List.length_reverse] at hlength
  have hback := fun j (hj : j < t) =>
    getD_drop_eq_getD_reverse (d := 0) _ hj (hlength.symm ▸ ht.le)
  rw [List.getD_reverse _ (by omega), c.extend_getD_new _ (by omega),
    Nat.sub_right_comm, Nat.sub_add_cancel (by omega), ShaCore.nextWord, hback 1 (by omega),
    hback 6 (by omega), hback 14 (by omega), hback 15 (by omega)]

end Schedule

/-- Settles O47, from the schedule of either core. -/
theorem shaScheduleFollowsItsRecurrence : Obligations.ShaScheduleFollowsItsRecurrence := by
  have h256 : 0 < sha256Core.wordBytes := by decide
  have h512 : 0 < sha512Core.wordBytes := by decide
  have r256 : 16 ≤ sha256Core.constants.length := by decide
  have r512 : 16 ≤ sha512Core.constants.length := by decide
  refine ⟨fun block hblock => ⟨?_, fun t ht => ?_, fun t h16 ht => ?_⟩,
    fun block hblock => ⟨?_, fun t ht => ?_, fun t h16 ht => ?_⟩⟩
  · exact sha256Core.schedule_length h256 hblock r256
  · exact sha256Core.schedule_getD_first h256 hblock ht
  · exact sha256Core.schedule_getD_later h256 hblock r256 h16 ht
  · exact sha512Core.schedule_length h512 hblock r512
  · exact sha512Core.schedule_getD_first h512 hblock ht
  · exact sha512Core.schedule_getD_later h512 hblock r512 h16 ht

end Sys2Proof.Machine
end

section
/-! Settles O7. An HMAC command has the one output length of its hash, as a digest command has. -/
namespace Sys2Proof.Machine

/-- Settles O7: each HMAC has the one length that its command checks (R196, R197). -/
theorem macResults : Obligations.MacResults := by
  intro s hm
  refine ⟨fun h => ?_, fun h => ?_⟩
  · exact State.run_fixedLength hm h rfl (hmacSha256_length _ _)
  · exact State.run_fixedLength hm h rfl (hmacSha512_length _ _)

end Sys2Proof.Machine
end

section
/-!
Settles O8, O9 and O45. A KDF command derives `DST_LEN` bytes, so its output fills the destination
(R215, R216, R230); and the output of PBKDF2 is cut from any number of its blocks that holds it (R210), so the
longer of two outputs begins with the shorter (R235).
-/
namespace Sys2Proof.Machine

/-! ### The KDF commands (R212 to R216, R230 to R233) -/

/-- A ready command whose checks pass and whose output is as long as the destination ends `OK` with
that output, and `WRITTEN` is then `DST_LEN`. -/
theorem State.run_fillsDest {s : State} {i : Instr} {early memory : List Check} {out : Bytes}
    (hm : s.mem.wf = true) (h : Ready s i) (hi : usesDest i = true) (ho : out.length = s.dstLen)
    (hw : CanWrite s s.dstLen) (he : ∀ c ∈ early, c.passes = true)
    (hk : ∀ c ∈ memory, c.passes = true) :
    ∃ t, s.run i early memory (fun _ => .finish out) = .next t ∧
      EndsOk s t out ∧ t.written = s.operands.dstLen := by
  have hfits : s.dest.base + out.length ≤ 2 ^ 32 := ho ▸ h.destFits hi
  obtain ⟨t, hrun, hends⟩ := State.run_endsOk (content := fun _ => .finish out) hm h he hk rfl
    (ho ▸ hw) hfits (ho ▸ s.dstLen_lt)
  refine ⟨t, hrun, hends, BitVec.eq_of_toNat_eq ?_⟩
  rw [hends.written, ho]
  rfl

/-- The length rule and the iteration count of PBKDF2 pass (R212, R213). -/
theorem State.pbkdf2Checks_pass {s : State} {hlen : Nat} (hc : s.operands.param0 ≠ 0)
    (hd : s.dstLen ≠ 0) (hmul : s.dstLen % hlen = 0) :
    ∀ c ∈ [s.dstLenMultiple hlen, s.costNonzero], c.passes = true := by
  have hcost : s.operands.param0.toNat ≠ 0 := word_toNat_eq_zero.not.2 hc
  simp [State.dstLenMultiple, State.costNonzero, hd, hmul, hcost]

/-- Settles O8: both forms fill the destination. -/
theorem pbkdf2Results : Obligations.Pbkdf2Results := by
  intro s hm hc hd hw
  refine ⟨fun h hmul => ?_, fun h hmul => ?_⟩
  · exact State.run_fillsDest hm h rfl (pbkdf2Sha256_length ..) hw
      (State.pbkdf2Checks_pass hc hd hmul) nofun
  · exact State.run_fillsDest hm h rfl (pbkdf2Sha512_length ..) hw
      (State.pbkdf2Checks_pass hc hd hmul) nofun

/-- The parameter and size rules of scrypt pass (R231, R232). -/
theorem scryptChecks_pass {cost r p k : Nat} (hcost : cost = 2 ^ (k + 1)) (hlt : cost < 2 ^ 32)
    (hr : 1 ≤ r) (hp : 1 ≤ p) (hv : 128 * r * cost ≤ Config.sizeLimit)
    (hb : 128 * r * p ≤ Config.sizeLimit) :
    ∀ c ∈ scryptChecks cost r p, c.passes = true := by
  have hk : k < 31 := by
    have := (Nat.pow_lt_pow_iff_right (by decide)).1 (hcost ▸ hlt)
    omega
  obtain ⟨htwo, hand⟩ := (cost_check_iff hlt).2 ⟨k, hk, hcost⟩
  have hr0 : r ≠ 0 := Nat.ne_of_gt hr
  have hp0 : p ≠ 0 := Nat.ne_of_gt hp
  simp [scryptChecks, htwo, hand, hr0, hp0, hv, hb]

/-- Settles O9: the checks are those of R231 to R233, and the output fills the destination. -/
theorem scryptResult : Obligations.ScryptResult := by
  intro s k n r p hm h hd hw hn hr hp hv hb hneed
  have hchecks := scryptChecks_pass hn s.operands.param0.isLt hr hp hv hb
  exact State.run_fillsDest hm h rfl (scrypt_length ..) hw
    (List.forall_mem_cons.2 ⟨bne_iff_ne.2 hd, hchecks⟩)
    (List.forall_mem_singleton.2 (decide_eq_true hneed))

/-! ### Outputs of different lengths (R210, R235) -/

section Pbkdf2
variable {mac : Bytes → Bytes → Bytes} {hlen : Nat} (hh : 0 < hlen)
  (hmac : ∀ k m, (mac k m).length = hlen) (pass salt : Bytes) (c : Nat)
include hh hmac

/-- The output is cut from any number of blocks that hold it: R210's is the least. -/
theorem pbkdf2_eq_take_blocks {n blocks : Nat} (hn : n ≤ hlen * blocks) :
    pbkdf2 mac hlen pass salt c n =
      ((List.range blocks).flatMap fun i => pbkdf2Block mac pass salt c (i + 1)).take n := by
  have hleast : (n + hlen - 1) / hlen = n ⌈/⌉ hlen := (Nat.ceilDiv_eq_add_pred_div ..).symm
  have hholds : n ≤ hlen * (n ⌈/⌉ hlen) := le_smul_ceilDiv hh
  obtain ⟨extra, rfl⟩ := Nat.exists_eq_add_of_le ((ceilDiv_le_iff_le_smul hh).2 hn)
  simp only [pbkdf2, hleast, List.range_add, List.flatMap_append]
  rw [List.take_append_of_le_length]
  rwa [length_flatMap_of_mem (n := hlen) fun i _ => pbkdf2Block_length hmac pass salt c (i + 1),
    List.length_range]

/-- A longer output begins with the shorter one: both are cut from the same blocks. -/
theorem pbkdf2_take {m n : Nat} (hmn : m ≤ n) :
    (pbkdf2 mac hlen pass salt c n).take m = pbkdf2 mac hlen pass salt c m := by
  have hn : n ≤ hlen * n := Nat.le_mul_of_pos_left n hh
  rw [pbkdf2_eq_take_blocks hh hmac pass salt c hn,
    pbkdf2_eq_take_blocks hh hmac pass salt c (hmn.trans hn), List.take_take, Nat.min_eq_left hmn]

end Pbkdf2

theorem pbkdf2Sha256_take (pass salt : Bytes) (c : Nat) {m n : Nat} (hmn : m ≤ n) :
    (pbkdf2Sha256 pass salt c n).take m = pbkdf2Sha256 pass salt c m :=
  pbkdf2_take (by decide) hmacSha256_length pass salt c hmn

theorem pbkdf2Sha512_take (pass salt : Bytes) (c : Nat) {m n : Nat} (hmn : m ≤ n) :
    (pbkdf2Sha512 pass salt c n).take m = pbkdf2Sha512 pass salt c m :=
  pbkdf2_take (by decide) hmacSha512_length pass salt c hmn

/-- The length of scrypt's output enters in its last stage only, a PBKDF2 (R225). -/
theorem scrypt_take (pass salt : Bytes) (cost r p : Nat) {m n : Nat} (hmn : m ≤ n) :
    (scrypt pass salt cost r p n).take m = scrypt pass salt cost r p m :=
  pbkdf2Sha256_take pass _ 1 hmn

/-- Settles O45, from the law of PBKDF2 over any MAC. -/
theorem kdfOutputsArePrefixes : Obligations.KdfOutputsArePrefixes :=
  fun pass salt c r p _ _ hmn => ⟨pbkdf2Sha256_take pass salt c hmn,
    pbkdf2Sha512_take pass salt c hmn, scrypt_take pass salt c r p hmn⟩

end Sys2Proof.Machine
end

section
/-!
Settles O34, O36 and O37. The bytes of AES in GF(2^8) and the S-box (R260 to R262); each round
transformation undone by its inverse (R263), so the rounds and the cipher (R265); then ECB and CBC
over the blocks of the data, and PKCS#7 (R270 to R272, R284).
-/
namespace Sys2Proof.Machine

/-! ### The S-box (R260 to R262) -/

/-- R262: the two tables are inverse to each other. -/
theorem invSubByte_subByte : ∀ a : Byte, invSubByte (subByte a) = a := by decide +kernel

/-- The affine map of R261. -/
def sboxAffine (b : Byte) : Byte :=
  b ^^^ b.rotateLeft 1 ^^^ b.rotateLeft 2 ^^^ b.rotateLeft 3 ^^^ b.rotateLeft 4 ^^^ 0x63

/-- The inverse of the affine map. -/
def invSboxAffine (s : Byte) : Byte :=
  s.rotateLeft 1 ^^^ s.rotateLeft 3 ^^^ s.rotateLeft 6 ^^^ 0x05

theorem sboxAffine_invSboxAffine : ∀ s : Byte, sboxAffine (invSboxAffine s) = s := by
  decide +kernel

/-- The byte that the affine map takes to `SBOX(a)` is the inverse of `a`, with 0 for 0. -/
theorem gfProduct_invSboxAffine_subByte : ∀ a : Byte,
    a = 0 ∧ invSboxAffine (subByte a) = 0 ∨ gfProduct a (invSboxAffine (subByte a)) = 1 := by
  decide +kernel

/-- Settles O34: the table's entry, taken back through the affine map, is the inverse. -/
theorem sboxFollowsItsDefinition : Obligations.SboxFollowsItsDefinition := fun a =>
  ⟨invSubByte_subByte a, invSboxAffine (subByte a), gfProduct_invSboxAffine_subByte a,
    (sboxAffine_invSboxAffine (subByte a)).symm⟩

/-! ### The round transformations undone (R263) -/

theorem invSubBytes_subBytes (s : Bytes) : invSubBytes (subBytes s) = s := by
  rw [invSubBytes, subBytes, List.map_map]
  exact List.map_id'' invSubByte_subByte s

theorem invShiftRows_shiftRows {s : Bytes} (hs : s.length = 16) :
    invShiftRows (shiftRows s) = s := by
  obtain ⟨_, _, _, _, _, _, _, _, _, _, _, _, _, _, _, _, rfl⟩ := eq_sixteen hs
  rfl

/-- Doubling is additive: the reduction is a xor too, decided by the top bit. -/
theorem xtime_xor (a b : Byte) : xtime (a ^^^ b) = xtime a ^^^ xtime b := by
  have hreduce (p q : Bool) : (if p ^^ q then (0x1B : Byte) else 0x00) =
      (if p then 0x1B else 0x00) ^^^ (if q then 0x1B else 0x00) := by
    cases p <;> cases q <;> rfl
  simp only [xtime, BitVec.shiftLeft_xor_distrib, BitVec.getLsbD_xor, hreduce]
  ac_rfl

theorem ite_xor (p : Prop) [Decidable p] (a b : Byte) :
    (if p then a ^^^ b else 0) = (if p then a else 0) ^^^ (if p then b else 0) := by
  split
  · rfl
  · exact (BitVec.xor_zero).symm

theorem gfMul_xor (k : BitVec 4) (a b : Byte) : gfMul k (a ^^^ b) = gfMul k a ^^^ gfMul k b := by
  simp only [gfMul, xtime_xor, ite_xor]
  ac_rfl

/-- A byte of `InvMixColumns`, its column read on from that byte's row. -/
def invMixByte (a b c d : Byte) : Byte :=
  gfMul 14 a ^^^ gfMul 11 b ^^^ gfMul 13 c ^^^ gfMul 9 d

theorem invMixColumns_cons (a b c d : Byte) (t : Bytes) :
    invMixColumns (a :: b :: c :: d :: t) =
      invMixByte a b c d :: invMixByte b c d a :: invMixByte c d a b :: invMixByte d a b c ::
        invMixColumns t := by
  simp only [invMixColumns, invMixByte, List.cons.injEq, and_true, true_and]
  refine ⟨?_, ?_, ?_⟩ <;> ac_rfl

theorem invMixByte_xor (a b c d a' b' c' d' : Byte) :
    invMixByte (a ^^^ a') (b ^^^ b') (c ^^^ c') (d ^^^ d') =
      invMixByte a b c d ^^^ invMixByte a' b' c' d' := by
  simp only [invMixByte, gfMul_xor]
  ac_rfl

/-- The product of the two matrices of R263, a row of one by each column of the other: it is the
identity matrix. -/
theorem invMixByte_column : ∀ a : Byte,
    invMixByte (gfMul 2 a) a a (gfMul 3 a) = a ∧ invMixByte (gfMul 3 a) (gfMul 2 a) a a = 0 ∧
      invMixByte a (gfMul 3 a) (gfMul 2 a) a = 0 ∧ invMixByte a a (gfMul 3 a) (gfMul 2 a) = 0 := by
  decide +kernel

theorem invMixColumns_mixColumns_cons (a b c d : Byte) (t : Bytes) :
    invMixColumns (mixColumns (a :: b :: c :: d :: t)) =
      a :: b :: c :: d :: invMixColumns (mixColumns t) := by
  simp only [mixColumns, invMixColumns_cons, invMixByte_xor, invMixByte_column]
  simp

theorem invMixColumns_mixColumns {s : Bytes} (hs : s.length = 16) :
    invMixColumns (mixColumns s) = s := by
  obtain ⟨_, _, _, _, _, _, _, _, _, _, _, _, _, _, _, _, rfl⟩ := eq_sixteen hs
  simp only [invMixColumns_mixColumns_cons]
  rfl

/-- `AddRoundKey` is its own inverse. -/
theorem xorBytes_xorBytes_cancel {a b : Bytes} (h : a.length = b.length) :
    xorBytes (xorBytes a b) b = a := by
  induction a generalizing b with
  | nil => rfl
  | cons x a ih =>
    cases b with
    | nil => simp at h
    | cons y b =>
      have hxy : x ^^^ y ^^^ y = x := by rw [BitVec.xor_assoc, BitVec.xor_self, BitVec.xor_zero]
      exact congrArg₂ List.cons hxy (ih (Nat.succ.inj h))

/-! ### The rounds undone (R265) -/

/-- `AES_Dec` under round keys in falling order. -/
def decFalling (keys : List Bytes) (block : Bytes) : Bytes :=
  decRounds (addRoundKey block (keys.getD 0 [])) (keys.drop 1)

theorem aesDecBlock_eq_decFalling (keys : List Bytes) (block : Bytes) :
    aesDecBlock keys block = decFalling keys.reverse block := rfl

theorem invSubBytes_invShiftRows_shiftRows_subBytes {s : Bytes} (hs : s.length = 16) :
    invSubBytes (invShiftRows (shiftRows (subBytes s))) = s := by
  rw [invShiftRows_shiftRows (by simpa using hs), invSubBytes_subBytes]

/-- A round of `AES_Dec` that is not the last. -/
theorem decRounds_cons (s k : Bytes) {later : List Bytes} (h : later ≠ []) :
    decRounds s (k :: later) =
      decRounds (invMixColumns (addRoundKey (invSubBytes (invShiftRows s)) k)) later := by
  cases later with
  | nil => exact absurd rfl h
  | cons => rfl

/-- The keys of the rounds of encryption, in falling order, take decryption back to the inside of
the first of those rounds; `earlier` are the keys that are left. -/
theorem decFalling_encRounds {keys : List Bytes} (hk : ∀ k ∈ keys, k.length = 16)
    (hne : keys ≠ []) {s : Bytes} (hs : s.length = 16) {earlier : List Bytes}
    (he : earlier ≠ []) :
    decFalling (keys.reverse ++ earlier) (encRounds s keys) =
      decRounds (shiftRows (subBytes s)) earlier := by
  induction keys generalizing s earlier with
  | nil => exact absurd rfl hne
  | cons k later ih =>
    obtain ⟨hklen, hlater⟩ := List.forall_mem_cons.1 hk
    cases later with
    | nil =>
      have hkey : (shiftRows (subBytes s)).length = k.length := by rw [shiftRows_length, hklen]
      exact congrArg (decRounds · earlier) (xorBytes_xorBytes_cancel hkey)
    | cons q qs =>
      have hmixed := mixColumns_length (shiftRows_length (subBytes s))
      have hround : (addRoundKey (mixColumns (shiftRows (subBytes s))) k).length = 16 := by
        rw [addRoundKey, xorBytes_length, hmixed, hklen, Nat.min_self]
      rw [List.reverse_cons, List.append_assoc]
      refine (ih hlater (List.cons_ne_nil q qs) hround (List.cons_ne_nil k earlier)).trans ?_
      rw [decRounds_cons _ _ he, invSubBytes_invShiftRows_shiftRows_subBytes hround, addRoundKey,
        addRoundKey, xorBytes_xorBytes_cancel (hmixed.trans hklen.symm),
        invMixColumns_mixColumns (shiftRows_length _)]

/-- Decryption inverts encryption under any two or more round keys. -/
theorem aesDecBlock_aesEncBlock {keys : List Bytes} (hk : ∀ k ∈ keys, k.length = 16)
    (hn : 2 ≤ keys.length) {block : Bytes} (hb : block.length = 16) :
    aesDecBlock keys (aesEncBlock keys block) = block := by
  obtain ⟨first, keys, rfl⟩ := List.exists_cons_of_length_pos (Nat.zero_lt_of_lt hn)
  obtain ⟨hfirst, hkeys⟩ := List.forall_mem_cons.1 hk
  have hne : keys ≠ [] := List.ne_nil_of_length_pos (Nat.lt_of_succ_lt_succ hn)
  have hs : (addRoundKey block first).length = 16 := by
    rw [addRoundKey, xorBytes_length, hb, hfirst, Nat.min_self]
  rw [aesDecBlock_eq_decFalling, List.reverse_cons]
  calc decFalling (keys.reverse ++ [first]) (encRounds (addRoundKey block first) keys)
      = decRounds (shiftRows (subBytes (addRoundKey block first))) [first] :=
        decFalling_encRounds hkeys hne hs (List.cons_ne_nil first [])
    _ = addRoundKey (addRoundKey block first) first := by
        rw [decRounds, invSubBytes_invShiftRows_shiftRows_subBytes hs]
    _ = block := xorBytes_xorBytes_cancel (hb.trans hfirst.symm)

/-- The legal key lengths, as the cases that the laws of the key schedule take. -/
theorem keyLen_cases {n : Nat} (h : n ∈ [16, 24, 32]) : n = 16 ∨ n = 24 ∨ n = 32 := by
  simpa using h

theorem aesDec_aesEnc {key block : Bytes} (hk : key.length ∈ [16, 24, 32])
    (hb : block.length = 16) : aesDec key (aesEnc key block) = block := by
  obtain ⟨hkeys, hcount⟩ := roundKeys_keys (keyLen_cases hk)
  exact aesDecBlock_aesEncBlock hkeys (by omega) hb

theorem aesEnc_length {key block : Bytes} (hk : key.length ∈ [16, 24, 32])
    (hb : block.length = 16) : (aesEnc key block).length = 16 :=
  have hlegal := keyLen_cases hk
  aesEncBlock_length (roundKeys_keys hlegal).1 (roundKeys_ne_nil hlegal) hb

/-- Settles O36: the round keys of a legal key are at least eleven of sixteen bytes. -/
theorem aesDecryptionInverts : Obligations.AesDecryptionInverts :=
  fun _ _ hk hb => ⟨aesDec_aesEnc hk hb, aesEnc_length hk hb⟩

/-! ### ECB and CBC (R270 to R272, R284) -/

/-- Whole blocks put together are cut into the same blocks. -/
theorem chunks_of_flatten {α : Type} {n : Nat} (hn : 0 < n) {blocks : List (List α)}
    (h : ∀ b ∈ blocks, b.length = n) : chunks n blocks.flatten = blocks := by
  induction blocks with
  | nil => rfl
  | cons b t ih =>
    obtain ⟨hb, ht⟩ := List.forall_mem_cons.1 h
    rw [List.flatten_cons, chunks_append hn hb, ih ht]

/-- The blocks of a string of whole blocks. -/
theorem chunks_whole {d : Bytes} (hd : d.length % 16 = 0) : ∀ b ∈ chunks 16 d, b.length = 16 :=
  (chunks_length_of_mem (by decide) (d.length / 16)
    (Nat.mul_div_cancel' (Nat.dvd_of_mod_eq_zero hd)).symm).2

theorem ecbDecrypt_ecbEncrypt {key d : Bytes} (hk : key.length ∈ [16, 24, 32])
    (hd : d.length % 16 = 0) : ecbDecrypt key (ecbEncrypt key d) = d := by
  have hblocks := chunks_whole hd
  have hcipher : ∀ c ∈ (chunks 16 d).map (aesEnc key), c.length = 16 :=
    List.forall_mem_map.2 fun b hb => aesEnc_length hk (hblocks b hb)
  have hcut : chunks 16 ((chunks 16 d).flatMap (aesEnc key)) = (chunks 16 d).map (aesEnc key) := by
    rw [List.flatMap_def, chunks_of_flatten (by decide) hcipher]
  calc (chunks 16 ((chunks 16 d).flatMap (aesEnc key))).flatMap (aesDec key)
      = ((chunks 16 d).map fun b => aesDec key (aesEnc key b)).flatten := by
        rw [hcut, List.flatMap_map, List.flatMap_def]
    _ = (chunks 16 d).flatten := by
        rw [List.map_congr_left fun b hb => aesDec_aesEnc hk (hblocks b hb), List.map_id']
    _ = d := chunks_flatten (by decide) d

/-- Each ciphertext block decrypts to the plaintext block xored with the ciphertext block before. -/
theorem cbcDecBlocks_cbcEncBlocks {keys : List Bytes} (hk : ∀ k ∈ keys, k.length = 16)
    (hn : 2 ≤ keys.length) {blocks : List Bytes} (hb : ∀ d ∈ blocks, d.length = 16) {prev : Bytes}
    (hp : prev.length = 16) :
    cbcDecBlocks keys prev (cbcEncBlocks keys prev blocks) = blocks := by
  induction blocks generalizing prev with
  | nil => rfl
  | cons d t ih =>
    obtain ⟨hd, ht⟩ := List.forall_mem_cons.1 hb
    have hne : keys ≠ [] := List.ne_nil_of_length_pos (Nat.zero_lt_of_lt hn)
    have hx : (xorBytes d prev).length = 16 := by rw [xorBytes_length, hd, hp, Nat.min_self]
    rw [cbcEncBlocks, cbcDecBlocks, aesDecBlock_aesEncBlock hk hn hx,
      xorBytes_xorBytes_cancel (hd.trans hp.symm), ih ht (aesEncBlock_length hk hne hx)]

/-- PKCS#7 padding says how long it is, so stripping takes off what was appended. -/
theorem pkcs7Strip_pkcs7Pad (d : Bytes) : pkcs7Strip (pkcs7Pad d) = some d := by
  obtain ⟨n, hn⟩ : ∃ n, 16 - d.length % 16 = n + 1 := ⟨15 - d.length % 16, by omega⟩
  have hpad : pkcs7Pad d = d ++ List.replicate (n + 1) (BitVec.ofNat 8 (n + 1)) := by
    rw [pkcs7Pad, hn]
  have hlast : ((pkcs7Pad d).getLastD 0).toNat = n + 1 := by
    rw [hpad, List.replicate_succ', ← List.append_assoc, List.getLastD_concat, BitVec.toNat_ofNat]
    omega
  have hlen : (pkcs7Pad d).length - (n + 1) = d.length := by
    rw [hpad, List.length_append, List.length_replicate, Nat.add_sub_cancel]
  simp only [pkcs7Strip, hlast, hlen]
  rw [if_neg (by omega), hpad, List.drop_left, if_pos rfl, List.take_left]

theorem cbcDecrypt_cbcEncrypt {key iv : Bytes} (d : Bytes) (hk : key.length ∈ [16, 24, 32])
    (hi : iv.length = 16) : cbcDecrypt key iv (cbcEncrypt key iv d) = some d := by
  have hlegal := keyLen_cases hk
  obtain ⟨hkeys, hcount⟩ := roundKeys_keys hlegal
  have hblocks := chunks_whole (d := pkcs7Pad d) (by rw [pkcs7Pad_length]; omega)
  have hcipher := (cbcEncBlocks_blocks hkeys (roundKeys_ne_nil hlegal) hblocks hi).1
  rw [cbcDecrypt, cbcEncrypt, chunks_of_flatten (by decide) hcipher,
    cbcDecBlocks_cbcEncBlocks hkeys (by omega) hblocks hi, chunks_flatten (by decide),
    pkcs7Strip_pkcs7Pad]

/-- Settles O37: each mode gives back its blocks, and CBC's blocks are the padded data. -/
theorem modesRoundTrip : Obligations.ModesRoundTrip :=
  fun _ _ d hk hi => ⟨ecbDecrypt_ecbEncrypt hk, cbcDecrypt_cbcEncrypt d hk hi⟩

end Sys2Proof.Machine
end

section
/-!
Settles O35. The AES key schedule, first with the latest word in front as the model extends it, then
in the order of R264.
-/
namespace Sys2Proof.Machine

/-- The next word of the schedule, `w[i]`, after words given latest first. -/
def nextKeyWord (nk i : Nat) (latest : List Bytes) : Bytes :=
  xorBytes (latest.getD (nk - 1) []) (keyMask nk i (latest.getD 0 []))

/-- The last word that `extendKey` adds is the next word after all the others. -/
theorem extendKey_succ (nk n i : Nat) (latest : List Bytes) : extendKey nk (n + 1) i latest =
    nextKeyWord nk (i + n) (extendKey nk n i latest) :: extendKey nk n i latest := by
  induction n generalizing i latest with
  | zero => rfl
  | succ n ih =>
    have hindex : i + (n + 1) = i + 1 + n := by omega
    exact hindex ▸ ih (i + 1) (nextKeyWord nk i latest :: latest)

/-- The words given stand behind the words added. -/
theorem suffix_extendKey (nk n i : Nat) (latest : List Bytes) :
    latest <:+ extendKey nk n i latest := by
  induction n with
  | zero => exact List.suffix_refl _
  | succ n ih => exact extendKey_succ nk n i latest ▸ ih.trans (List.suffix_cons ..)

/-- Each word added is the next word after the words behind it. -/
theorem extendKey_getD_new {nk n j k : Nat} (i : Nat) (latest : List Bytes) (hj : k + j + 1 = n) :
    (extendKey nk n i latest).getD k [] =
      nextKeyWord nk (i + j) ((extendKey nk n i latest).drop (k + 1)) := by
  induction n generalizing k with
  | zero => omega
  | succ n ih =>
    rw [extendKey_succ]
    cases k with
    | zero =>
      obtain rfl : j = n := by omega
      rfl
    | succ k => exact ih (by omega)

section Schedule
variable {key : Bytes} (hk : key.length ∈ [16, 24, 32])
include hk

/-- R264: `4 (Nr + 1)` words, with `Nr = Nk + 6`. -/
theorem keyWords_length : (keyWords key).length = 4 * (key.length / 4 + 6 + 1) :=
  (keyWords_words (keyLen_cases hk)).2

/-- The first words are the key's own. -/
theorem keyWords_getD_first {i : Nat} (hi : i < key.length / 4) :
    (keyWords key).getD i [] = slice key (4 * i) (4 * i + 4) := by
  have hlegal := keyLen_cases hk
  have hcount : (chunks 4 key).length = key.length / 4 :=
    (chunks_length_of_mem (by decide) _ (by omega)).1
  have hprefix : chunks 4 key <+: keyWords key := by
    simpa [keyWords] using List.reverse_prefix.mpr (suffix_extendKey (key.length / 4)
      (4 * (key.length / 4 + 7) - key.length / 4) (key.length / 4) (chunks 4 key).reverse)
  obtain ⟨later, hlater⟩ := hprefix
  rw [← hlater, List.getD_append _ _ _ _ (by rwa [hcount]), chunks_getD (by decide)]

/-- Each later word comes from the word `Nk` places before it and the word before it. -/
theorem keyWords_getD_later {i : Nat} (hi : key.length / 4 ≤ i)
    (hlt : i < 4 * (key.length / 4 + 6 + 1)) :
    (keyWords key).getD i [] = xorBytes ((keyWords key).getD (i - key.length / 4) [])
      (keyMask (key.length / 4) i ((keyWords key).getD (i - 1) [])) := by
  have hlegal := keyLen_cases hk
  have hlength := keyWords_length hk
  rw [keyWords, List.length_reverse] at hlength
  have hback := fun j (hj : j < i) =>
    getD_drop_eq_getD_reverse (d := []) _ hj (hlength.symm ▸ hlt.le)
  rw [keyWords, List.getD_reverse _ (by omega),
    extendKey_getD_new (j := i - key.length / 4) _ _ (by omega), Nat.sub_right_comm,
    Nat.sub_add_cancel (by omega), Nat.add_sub_cancel' hi, nextKeyWord, hback 0 (by omega),
    hback (key.length / 4 - 1) (by omega), Nat.sub_add_cancel (by omega)]

end Schedule

/-- Settles O35: the mask that the model xors on is the one that R264 writes out. -/
theorem aesKeyScheduleFollowsItsRecurrence : Obligations.AesKeyScheduleFollowsItsRecurrence :=
  fun _ hk => ⟨keyWords_length hk, fun _ => keyWords_getD_first hk,
    fun _ => keyWords_getD_later hk⟩

end Sys2Proof.Machine
end

section
/-!
Settles O10, O11, O12 and O29. A ready command whose lengths R421 does not refuse goes on to its
content: the cipher commands' outputs (R275 to R282), and the contents that are refused (R272, R331,
R333, R350, R352, R354).
-/
namespace Sys2Proof.Machine

/-! ### From lengths to an outcome (R420, R421) -/

theorem refuseIf_eq_none {p : Prop} [Decidable p] {c : Cause} : refuseIf p c = none ↔ ¬p := by
  simp [refuseIf]

/-- The length checks of a command pass where R421's rules do not refuse it (V4). -/
theorem State.lengthChecks_pass {s : State} {i : Instr} (h : s.lengthRefusal i = none) :
    ∀ c ∈ s.lengthChecks i, c.passes = true :=
  firstFailed_eq_none.1 ((s.firstFailed_lengthChecks i).trans h)

/-- An output within the capacity of a ready command's destination does not wrap. -/
theorem Ready.output_fits {s : State} {i : Instr} {n : Nat} (h : Ready s i)
    (hi : usesDest i = true) (hn : n ≤ s.dstLen) : s.dest.base + n ≤ 2 ^ 32 :=
  (Nat.add_le_add_left hn _).trans (h.destFits hi)

/-- A ready command with an output ends `OK` or, where it cannot write, with `BUS_ERROR_WRITE`. -/
theorem State.run_finish_cause {s : State} {i : Instr} {early memory : List Check}
    {content : Unit → Verdict} {out : Bytes} (h : Ready s i) (he : ∀ c ∈ early, c.passes = true)
    (hk : ∀ c ∈ memory, c.passes = true) (hc : content () = .finish out) :
    ∃ t, s.run i early memory content = .next t ∧
      (t.cause = .none ∨ t.cause = .busErrorWrite) := by
  refine ⟨_, State.run_calm h.calm, ?_⟩
  rw [State.verdict_of_ready h he hk, hc]
  by_cases hw : CanWrite s out.length
  · rw [State.deliver_finish hw]
    exact .inl rfl
  · rw [State.deliver_unwritable hw]
    exact .inr rfl

/-! ### The cipher commands (R275 to R282) -/

/-- The key of a command, as the laws of the ciphers take it. -/
theorem State.keyInput_cases {s : State} (h : s.srcLen .src0 ∈ [16, 24, 32]) :
    (s.input .src0).length = 16 ∨ (s.input .src0).length = 24 ∨ (s.input .src0).length = 32 :=
  keyLen_cases (by rwa [s.input_length])

/-- Settles O10: both directions keep the data's length, which is the destination's. -/
theorem ecbResults : Obligations.EcbResults := by
  intro s hm hkey hne hblocks hd hw
  have hcases := State.keyInput_cases hkey
  have hwhole : (s.input .src1).length % 16 = 0 := by rwa [s.input_length]
  have hlen : (s.input .src1).length = s.dstLen := by rw [s.input_length, hd]
  have hpass : ∀ c ∈ s.ecbChecks, c.passes = true :=
    State.lengthChecks_pass (i := .aesEcbEncrypt) (by
      simp only [State.lengthRefusal, Option.or_eq_none_iff, refuseIf_eq_none]
      tauto)
  have hwritten : s.operands.src1Len = s.operands.dstLen := BitVec.eq_of_toNat_eq hd.symm
  rw [hwritten]
  refine ⟨fun h => ?_, fun h => ?_⟩
  · exact State.run_fillsDest hm h rfl ((ecbEncrypt_length hcases hwhole).trans hlen) hw hpass nofun
  · exact State.run_fillsDest hm h rfl ((ecbDecrypt_length hcases hwhole).trans hlen) hw hpass nofun

/-- Settles O11: the ciphertext has the length that its length rule asks room for. -/
theorem cbcEncryptResult : Obligations.CbcEncryptResult := by
  intro s hm h hkey hiv hdata hd hw
  have hlen : (cbcEncrypt (s.input .src0) (s.input .src1) (s.input .src2)).length =
      16 * (s.srcLen .src2 / 16) + 16 := by
    rw [cbcEncrypt_length (State.keyInput_cases hkey) (by rwa [s.input_length]), s.input_length]
  have hpass := State.lengthChecks_pass (s := s) (i := .aesCbcEncrypt) (by
    simp only [State.lengthRefusal, Option.or_eq_none_iff, refuseIf_eq_none, Nat.not_lt]
    tauto)
  rw [← hlen] at hd hw ⊢
  obtain ⟨t, hrun, hends⟩ : ∃ t, exec .aesCbcEncrypt s = .next t ∧ EndsOk s t _ :=
    State.run_endsOk hm h hpass nofun rfl hw (h.output_fits rfl hd) (hd.trans_lt s.dstLen_lt)
  exact ⟨t, hrun, hends, hends.written⟩

/-- Decryption takes 1 to 16 bytes of padding off (R272). -/
theorem cbcDecrypt_length {key iv c m : Bytes}
    (hk : key.length = 16 ∨ key.length = 24 ∨ key.length = 32) (hi : iv.length = 16)
    (hne : c.length ≠ 0) (hc : c.length % 16 = 0) (h : cbcDecrypt key iv c = some m) :
    ∃ padn, 1 ≤ padn ∧ padn ≤ 16 ∧ m.length + padn = c.length := by
  obtain ⟨hm, hlow, hhigh⟩ := pkcs7Strip_length h
  rw [cbcDecBlocks_length hk hi hc] at hm
  exact ⟨_, hlow, hhigh, by omega⟩

/-- The lengths of a decryption are legal (R280, R282). -/
theorem State.cbcDecryptChecks_pass {s : State} (hkey : s.srcLen .src0 ∈ [16, 24, 32])
    (hiv : s.srcLen .src1 = 16) (hne : s.srcLen .src2 ≠ 0) (hblocks : s.srcLen .src2 % 16 = 0)
    (hd : s.srcLen .src2 - 1 ≤ s.dstLen) :
    ∀ c ∈ s.lengthChecks .aesCbcDecrypt, c.passes = true :=
  State.lengthChecks_pass (by
    simp only [State.lengthRefusal, Option.or_eq_none_iff, refuseIf_eq_none, Nat.not_lt]
    tauto)

/-- Settles O12: at least one byte is padding, so the plaintext fits where the length rule passes. -/
theorem cbcDecryptResult : Obligations.CbcDecryptResult := by
  intro s m hm h hkey hiv hne hblocks hd hplain hw
  obtain ⟨padn, hlow, hhigh, hlen⟩ := cbcDecrypt_length (State.keyInput_cases hkey)
    (by rwa [s.input_length]) (by rwa [s.input_length]) (by rwa [s.input_length]) hplain
  rw [s.input_length] at hlen
  have hfits : m.length ≤ s.dstLen := by omega
  obtain ⟨t, hrun, hends⟩ : ∃ t, exec .aesCbcDecrypt s = .next t ∧ EndsOk s t m :=
    State.run_endsOk hm h (State.cbcDecryptChecks_pass hkey hiv hne hblocks hd) nofun
      (by rw [hplain]) hw (h.output_fits rfl hfits) (hfits.trans_lt s.dstLen_lt)
  exact ⟨t, hrun, hends, padn, hlow, hhigh, hends.written.symm ▸ hlen⟩

/-! ### Contents that are refused (R272, R331, R333, R350, R352, R354) -/

theorem scalarInRange_iff {v : Nat} : scalarInRange v = true ↔ 1 ≤ v ∧ v < curveOrder := by
  have : 0 < curveOrder := by decide
  simp only [scalarInRange, Bool.and_eq_true, decide_eq_true_eq]
  omega

/-- A signature that cannot be made was searched for under a bound (R333). -/
theorem triesMax_ne_none_of_ecdsaSign {n : Option Nat} {d : Nat} {hash : Bytes}
    (h : ecdsaSign n d hash = none) : n ≠ none := by
  rintro rfl
  exact Option.some_ne_none _ h

/-- An ECDSA signing with legal lengths and a valid key fails exactly where the search gives no
signature (R331, R333). -/
theorem exec_ecSignEcdsa_signFailed {s : State} (h : Ready s .ecSignEcdsa)
    (hlen : s.lengthRefusal .ecSignEcdsa = none) (hkey : privOk (s.input .src0) = true) :
    ∃ t, exec .ecSignEcdsa s = .next t ∧
      (t.cause = .signFailed ↔
        ecdsaSign s.platform.nonceTriesMax (beNat (s.input .src0)) (s.input .src1) = none) ∧
      (t.cause = .signFailed → EndsWith s t .signFailed ∧ s.platform.nonceTriesMax ≠ none) := by
  have hpass := State.lengthChecks_pass hlen
  cases hsign : ecdsaSign s.platform.nonceTriesMax (beNat (s.input .src0)) (s.input .src1) with
  | none =>
    obtain ⟨t, hrun, hends⟩ : ∃ t, exec .ecSignEcdsa s = .next t ∧ EndsWith s t .signFailed :=
      State.run_endsWith h hpass nofun (by rw [if_pos hkey, hsign])
    exact ⟨t, hrun, iff_of_true hends.cause rfl,
      fun _ => ⟨hends, triesMax_ne_none_of_ecdsaSign hsign⟩⟩
  | some sig =>
    obtain ⟨t, hrun, hcause⟩ : ∃ t, exec .ecSignEcdsa s = .next t ∧
        (t.cause = .none ∨ t.cause = .busErrorWrite) :=
      State.run_finish_cause h hpass nofun (by rw [if_pos hkey, hsign])
    have hother : t.cause ≠ .signFailed := by rcases hcause with e | e <;> simp [e]
    exact ⟨t, hrun, iff_of_false hother (by simp), fun e => absurd e hother⟩

/-- Settles O29: the lengths are legal, so the content decides. -/
theorem badContentIsRefused : Obligations.BadContentIsRefused := by
  intro s
  refine ⟨fun hlen hbad => ⟨fun h hd => ?normalize, fun h hd => ?toDer⟩,
    fun h hmin hmax hd => ?fromDer, fun h hkey hiv hne hblocks hd hpad => ?padding,
    fun h hkey hhash hd hlow hhigh => ?sign⟩
  case normalize =>
    exact State.run_endsWith h (State.lengthChecks_pass (i := .ecSigNormalize)
      (by simp [State.lengthRefusal, refuseIf_eq_none, hlen, hd])) nofun
      (if_neg (ne_true_of_eq_false hbad))
  case toDer =>
    exact State.run_endsWith h (State.lengthChecks_pass (i := .ecSigToDer)
      (by simp [State.lengthRefusal, refuseIf_eq_none, hlen, hd])) nofun
      (if_neg (ne_true_of_eq_false hbad))
  case fromDer =>
    have hpass := State.lengthChecks_pass (s := s) (i := .ecSigFromDer)
      (by simp [State.lengthRefusal, refuseIf_eq_none, hmin, hmax, hd])
    refine ⟨fun hder => ?_, fun r v hder hbad => ?_⟩
    · exact State.run_endsWith h hpass nofun (by rw [hder])
    · have hrange : ¬(scalarInRange r && scalarInRange v) = true := by
        rw [Bool.and_eq_true, scalarInRange_iff, scalarInRange_iff, and_assoc]
        exact hbad
      exact State.run_endsWith h hpass nofun (by rw [hder]; exact if_neg hrange)
  case padding =>
    exact State.run_endsWith h (State.cbcDecryptChecks_pass hkey hiv hne hblocks hd) nofun
      (by rw [hpad])
  case sign =>
    exact exec_ecSignEcdsa_signFailed h
      (by simp [State.lengthRefusal, refuseIf_eq_none, hkey, hhash, hd])
      (scalarInRange_iff.2 ⟨hlow, hhigh⟩)

end Sys2Proof.Machine
end

section
/-!
Settles O38. Numbers and leading zeros; the content of a DER INTEGER as R351 writes it and as R353
accepts it; then the one form that both the writer and the parser of DER know.
-/
namespace Sys2Proof.Machine

/-! ### Big-endian numbers and leading zeros (R10) -/

theorem leNat_append (a b : Bytes) : leNat (a ++ b) = leNat a + 256 ^ a.length * leNat b := by
  induction a with
  | nil => simp [leNat]
  | cons x t ih => simp only [List.cons_append, leNat, ih, List.length_cons, Nat.pow_succ]; ring

theorem beNat_cons (x : Byte) (t : Bytes) :
    beNat (x :: t) = beNat t + 256 ^ t.length * x.toNat := by
  simp [beNat, leNat_append, leNat]

@[simp] theorem beNat_zero_cons (t : Bytes) : beNat (0x00 :: t) = beNat t := by
  simp [beNat_cons]

theorem beNat_replicate_zero_append (n : Nat) (b : Bytes) :
    beNat (List.replicate n 0x00 ++ b) = beNat b := by
  induction n with
  | zero => rfl
  | succ n ih => rw [List.replicate_succ, List.cons_append, beNat_zero_cons, ih]

theorem beNat_dropWhile_zero (b : Bytes) : beNat (b.dropWhile (· == 0x00)) = beNat b := by
  induction b with
  | nil => rfl
  | cons x t ih =>
    by_cases hx : x = 0x00
    · rw [hx, List.dropWhile_cons_of_pos (by rfl), ih, beNat_zero_cons]
    · rw [List.dropWhile_cons_of_neg (by simpa using hx)]

/-- A short string's number, written in `n` bytes, is the string after zeros. -/
theorem beBytes_beNat_of_length_le {n : Nat} {b : Bytes} (h : b.length ≤ n) :
    beBytes n (beNat b) = List.replicate (n - b.length) 0x00 ++ b := by
  have hpadded := beBytes_beNat (List.replicate (n - b.length) 0x00 ++ b)
  rwa [beNat_replicate_zero_append, List.length_append, List.length_replicate,
    Nat.sub_add_cancel h] at hpadded

/-! ### Parts of a byte string (R10) -/

theorem slice_length {b : Bytes} {i j : Nat} (h : j ≤ b.length) : (slice b i j).length = j - i := by
  rw [slice, List.length_take, List.length_drop]
  omega

theorem slice_eq_drop {b : Bytes} {i j : Nat} (h : b.length ≤ j) : slice b i j = b.drop i := by
  rw [slice, List.take_of_length_le]
  rw [List.length_drop]
  omega

/-- Byte `n + k` is byte `k` after the first `n`. -/
theorem getD_add_eq_getD_drop (d : Bytes) (n k : Nat) : d.getD (n + k) 0 = (d.drop n).getD k 0 := by
  rw [List.getD_eq_getElem?_getD, List.getD_eq_getElem?_getD, List.getElem?_drop]

theorem drop_eq_getD_cons {d : Bytes} {n : Nat} (h : n < d.length) :
    d.drop n = d.getD n 0 :: d.drop (n + 1) := by
  rw [List.drop_eq_getElem_cons h, List.getD_eq_getElem _ _ h]

/-- A byte is the one its number gives. -/
theorem byte_eq_ofNat {x : Byte} {n : Nat} (h : x.toNat = n) : x = BitVec.ofNat 8 n := by
  rw [← h, BitVec.ofNat_toNat, BitVec.setWidth_eq]

/-! ### The content of a DER INTEGER (R351, R353) -/

/-- The 32 bytes of a number without leading zeros (R351). -/
def significant (v : Nat) : Bytes := (beBytes 32 v).dropWhile (· == 0x00)

/-- The content of `DerInt(v)` (R351). -/
def derContent (v : Nat) : Bytes :=
  if ((significant v).getD 0 0).getLsbD 7 then 0x00 :: significant v else significant v

theorem derInt_eq (v : Nat) :
    derInt v = 0x02 :: BitVec.ofNat 8 (derContent v).length :: derContent v := rfl

theorem beNat_significant {v : Nat} (hv : v < 2 ^ 256) : beNat (significant v) = v := by
  rw [significant, beNat_dropWhile_zero, beNat_beBytes]
  exact Nat.mod_eq_of_lt hv

theorem beNat_derContent {v : Nat} (hv : v < 2 ^ 256) : beNat (derContent v) = v := by
  rw [derContent]
  split
  · rw [beNat_zero_cons, beNat_significant hv]
  · exact beNat_significant hv

/-- A positive number has a first significant byte, which is not 0. -/
theorem significant_eq_cons {v : Nat} (hpos : 1 ≤ v) (hv : v < 2 ^ 256) :
    ∃ x t, significant v = x :: t ∧ x ≠ 0x00 ∧ t.length < 32 := by
  have hshort : (significant v).length ≤ 32 := by
    simpa [significant] using
      (List.dropWhile_suffix (l := beBytes 32 v) (· == 0x00)).length_le
  have hhead := List.head?_dropWhile_not (· == (0x00 : Byte)) (beBytes 32 v)
  rw [← significant] at hhead
  have hnumber := beNat_significant hv
  cases hs : significant v with
  | nil => rw [hs] at hnumber; exact absurd hnumber (Nat.ne_of_lt hpos)
  | cons x t =>
    rw [hs] at hshort hhead
    exact ⟨x, t, rfl, by simpa using hhead, hshort⟩

/-- A string without a leading zero is the significant bytes of its number. -/
theorem significant_beNat_cons {x : Byte} {t : Bytes} (hx : x ≠ 0x00) (ht : t.length < 32) :
    significant (beNat (x :: t)) = x :: t := by
  rw [significant, beBytes_beNat_of_length_le ht, List.dropWhile_append_of_pos (by simp),
    List.dropWhile_cons_of_neg (by simpa using hx)]

/-- R353's content rules, of a string with a first byte. -/
theorem derContentOk_cons {x : Byte} {t : Bytes} :
    derContentOk (x :: t) = true ↔ x.getLsbD 7 = false ∧
      (t ≠ [] → x = 0x00 → (t.getD 0 0).getLsbD 7 = true) ∧ (t.length = 32 → x = 0x00) := by
  have hlong : 1 < t.length + 1 ↔ t ≠ [] := by rw [← List.length_pos_iff]; omega
  simp only [derContentOk, Bool.and_eq_true, Bool.not_eq_true', Bool.and_eq_false_iff,
    decide_eq_false_iff_not, List.length_cons, hlong, List.getD_cons_zero, List.getD_cons_succ,
    beq_eq_false_iff_ne, bne_eq_false_iff_eq, Bool.not_eq_false']
  grind

/-- What R353 accepts as the content of an INTEGER: 1 to 33 bytes that keep its content rules. -/
structure DerInteger (c : Bytes) : Prop where
  nonempty : 1 ≤ c.length
  short : c.length ≤ 33
  minimal : derContentOk c = true

/-- The content the writer makes is one the parser accepts. -/
theorem derContent_derInteger {v : Nat} (hpos : 1 ≤ v) (hv : v < 2 ^ 256) :
    DerInteger (derContent v) := by
  obtain ⟨x, t, hs, hx, ht⟩ := significant_eq_cons hpos hv
  rw [derContent, hs]
  split
  next hhigh =>
    exact ⟨Nat.succ_pos _, Nat.succ_le_succ ht,
      derContentOk_cons.2 ⟨rfl, fun _ _ => hhigh, fun _ => rfl⟩⟩
  next hlow =>
    exact ⟨Nat.succ_pos _, Nat.le_succ_of_le ht, derContentOk_cons.2
      ⟨eq_false_of_ne_true hlow, fun _ h0 => absurd h0 hx, fun h32 => absurd h32 ht.ne⟩⟩

/-- The content the parser accepts for a positive number is the one the writer makes. -/
theorem DerInteger.derContent_beNat {c : Bytes} (h : DerInteger c) (hpos : 1 ≤ beNat c) :
    derContent (beNat c) = c := by
  obtain ⟨hne, hshort, hmin⟩ := h
  cases c with
  | nil => cases hne
  | cons x t =>
    obtain ⟨hsign, hhigh, hlong⟩ := derContentOk_cons.1 hmin
    rw [List.length_cons] at hshort
    by_cases hx : x = 0x00
    · subst hx
      rw [beNat_zero_cons] at hpos ⊢
      cases t with
      | nil => cases hpos
      | cons y u =>
        have hy : y.getLsbD 7 = true := hhigh nofun rfl
        have hs := significant_beNat_cons (x := y) (t := u) (by rintro rfl; cases hy)
          (by rw [List.length_cons] at hshort; omega)
        rw [derContent, hs]
        exact if_pos hy
    · have hs := significant_beNat_cons (x := x) (t := t) hx (by have := mt hlong hx; omega)
      rw [derContent, hs]
      exact if_neg (ne_true_of_eq_false hsign)

/-- A 33rd byte is a zero in front, so the number fits in 32 bytes. -/
theorem DerInteger.beNat_lt {c : Bytes} (h : DerInteger c) : beNat c < 2 ^ 256 := by
  obtain ⟨hne, hshort, hmin⟩ := h
  have hbound {b : Bytes} (hb : b.length ≤ 32) : beNat b < 2 ^ 256 :=
    (Machine.beNat_lt b).trans_le (Nat.pow_le_pow_right (n := 256) (by decide) hb)
  cases c with
  | nil => cases hne
  | cons x t =>
    obtain ⟨-, -, hlong⟩ := derContentOk_cons.1 hmin
    rw [List.length_cons] at hshort
    by_cases ht : t.length = 32
    · rw [hlong ht, beNat_zero_cons]
      exact hbound ht.le
    · exact hbound (by rw [List.length_cons]; omega)

/-! ### The form of a signature (R351, R353) -/

/-- Two INTEGERs with the given contents, in a SEQUENCE, all with short-form lengths. -/
def derSequence (a b : Bytes) : Bytes :=
  0x30 :: BitVec.ofNat 8 (4 + a.length + b.length) :: 0x02 :: BitVec.ofNat 8 a.length ::
    (a ++ 0x02 :: BitVec.ofNat 8 b.length :: b)

theorem sigToDer_eq (r s : Nat) : sigToDer r s = derSequence (derContent r) (derContent s) := by
  have hlength : (derInt r ++ derInt s).length =
      4 + (derContent r).length + (derContent s).length := by
    simp only [derInt_eq, List.length_append, List.length_cons]; omega
  simp only [sigToDer, hlength, derSequence]
  rfl

@[simp] theorem derSequence_length (a b : Bytes) :
    (derSequence a b).length = 6 + a.length + b.length := by
  simp only [derSequence, List.length_cons, List.length_append]; omega

/-- The tags and the lengths that R353 asks for, with contents of `lr` and `ls` bytes. -/
structure DerShape (d : Bytes) (lr ls : Nat) : Prop where
  sequence : (d.getD 0 0).toNat = 0x30
  total : (d.getD 1 0).toNat = d.length - 2
  firstTag : (d.getD 2 0).toNat = 0x02
  firstLength : (d.getD 3 0).toNat = lr
  firstBounds : 1 ≤ lr ∧ lr ≤ 33
  secondTag : (d.getD (4 + lr) 0).toNat = 0x02
  secondLength : (d.getD (5 + lr) 0).toNat = ls
  secondBounds : 1 ≤ ls ∧ ls ≤ 33
  length_eq : d.length = 6 + lr + ls

/-- The parser accepts that shape, where both contents keep the content rules (R353). -/
theorem derToSig_eq_some_iff {d : Bytes} {r s : Nat} :
    derToSig d = some (r, s) ↔ ∃ lr ls, DerShape d lr ls ∧
      derContentOk (slice d 4 (4 + lr)) = true ∧
      derContentOk (slice d (6 + lr) (6 + lr + ls)) = true ∧
      r = beNat (slice d 4 (4 + lr)) ∧ s = beNat (slice d (6 + lr) (6 + lr + ls)) := by
  simp only [derToSig, Option.ite_none_left_eq_some, Option.ite_none_right_eq_some,
    Option.some.injEq, Prod.mk.injEq, not_not, Bool.and_eq_true]
  constructor
  · rintro ⟨-, h0, h1, ⟨h2, hlr, hlr', -⟩, ⟨h4, hls⟩, hexact, ⟨hr, hs⟩, rfl, rfl⟩
    exact ⟨_, _, ⟨h0, h1, h2, rfl, ⟨hlr, hlr'⟩, h4, rfl, hls, hexact.symm⟩, hr, hs, rfl, rfl⟩
  · rintro ⟨_, _, ⟨h0, h1, h2, rfl, ⟨hlr, hlr'⟩, h4, rfl, hls, hexact⟩, hr, hs, rfl, rfl⟩
    exact ⟨by omega, h0, h1, ⟨h2, hlr, hlr', by omega⟩, ⟨h4, hls⟩, hexact.symm, ⟨hr, hs⟩, rfl, rfl⟩

theorem derSequence_drop_second (a b : Bytes) :
    (derSequence a b).drop (4 + a.length) = 0x02 :: BitVec.ofNat 8 b.length :: b := by
  rw [← List.drop_drop]
  exact List.drop_left

/-- The parser reads the two contents back. -/
theorem derToSig_derSequence {a b : Bytes} (ha : DerInteger a) (hb : DerInteger b) :
    derToSig (derSequence a b) = some (beNat a, beNat b) := by
  obtain ⟨ha1, ha33, haok⟩ := ha
  obtain ⟨hb1, hb33, hbok⟩ := hb
  have htail := derSequence_drop_second a b
  have hfirst : slice (derSequence a b) 4 (4 + a.length) = a := by
    rw [slice, Nat.add_sub_cancel_left]
    exact List.take_left
  have hsecond : slice (derSequence a b) (6 + a.length) (6 + a.length + b.length) = b := by
    rw [slice, Nat.add_sub_cancel_left, show 6 + a.length = 4 + a.length + 2 by omega,
      ← List.drop_drop, htail]
    exact List.take_length
  have hlengthByte (n : Nat) (hn : n < 256) : (BitVec.ofNat 8 n).toNat = n := by
    rw [BitVec.toNat_ofNat, Nat.mod_eq_of_lt hn]
  have hshape : DerShape (derSequence a b) a.length b.length := {
    sequence := rfl
    total := by
      rw [derSequence_length]
      exact (hlengthByte _ (by omega)).trans (by omega)
    firstTag := rfl
    firstLength := hlengthByte _ (by omega)
    firstBounds := ⟨ha1, ha33⟩
    secondTag := by rw [← Nat.add_zero (4 + _), getD_add_eq_getD_drop, htail]; rfl
    secondLength := by
      rw [show 5 + a.length = 4 + a.length + 1 by omega, getD_add_eq_getD_drop, htail]
      exact hlengthByte _ (by omega)
    secondBounds := ⟨hb1, hb33⟩
    length_eq := derSequence_length a b }
  refine derToSig_eq_some_iff.2 ⟨_, _, hshape, ?_⟩
  rw [hfirst, hsecond]
  exact ⟨haok, hbok, rfl, rfl⟩

/-- A string of that shape is the sequence of its two contents. -/
theorem DerShape.eq_derSequence {d : Bytes} {lr ls : Nat} (h : DerShape d lr ls) :
    d = derSequence (slice d 4 (4 + lr)) (slice d (6 + lr) (6 + lr + ls)) := by
  obtain ⟨h0, h1, h2, h3, -, h4, h5, -, hlength⟩ := h
  have hfirst : slice d 4 (4 + lr) ++ d.drop (4 + lr) = d.drop 4 := by
    rw [slice, Nat.add_sub_cancel_left, ← List.drop_drop, List.take_append_drop]
  have hsecond : slice d (6 + lr) (6 + lr + ls) = d.drop (6 + lr) := slice_eq_drop hlength.le
  have htail : d.drop (4 + lr) =
      0x02 :: BitVec.ofNat 8 ls :: slice d (6 + lr) (6 + lr + ls) := by
    rw [hsecond, drop_eq_getD_cons (by omega), byte_eq_ofNat h4,
      show 4 + lr + 1 = 5 + lr by omega, drop_eq_getD_cons (by omega), byte_eq_ofNat h5,
      show 5 + lr + 1 = 6 + lr by omega]
    rfl
  have hhead : d = 0x30 :: BitVec.ofNat 8 (d.length - 2) :: 0x02 :: BitVec.ofNat 8 lr ::
      d.drop 4 := by
    conv_lhs => rw [← List.drop_zero (l := d)]
    rw [drop_eq_getD_cons (by omega), drop_eq_getD_cons (by omega), drop_eq_getD_cons (by omega),
      drop_eq_getD_cons (by omega), byte_eq_ofNat h0, byte_eq_ofNat h1, byte_eq_ofNat h2,
      byte_eq_ofNat h3]
    rfl
  conv_lhs => rw [hhead, ← hfirst, htail]
  rw [derSequence, slice_length (by omega), slice_length (by omega)]
  congr <;> omega

/-- What the parser accepts has that form. -/
theorem derToSig_eq_some {d : Bytes} {r s : Nat} (h : derToSig d = some (r, s)) :
    ∃ a b, DerInteger a ∧ DerInteger b ∧ d = derSequence a b ∧ r = beNat a ∧ s = beNat b := by
  obtain ⟨lr, ls, hshape, hr, hs, rfl, rfl⟩ := derToSig_eq_some_iff.1 h
  have hlength := hshape.length_eq
  obtain ⟨hlr, hlr'⟩ := hshape.firstBounds
  obtain ⟨hls, hls'⟩ := hshape.secondBounds
  have ha := slice_length (b := d) (i := 4) (j := 4 + lr) (by omega)
  have hb := slice_length (b := d) (i := 6 + lr) (j := 6 + lr + ls) (by omega)
  exact ⟨_, _, ⟨by omega, by omega, hr⟩, ⟨by omega, by omega, hs⟩, hshape.eq_derSequence, rfl, rfl⟩

/-- Settles O38: the writer and the parser know one form, and the content of an INTEGER of a
positive number is fixed. -/
theorem derIsStrict : Obligations.DerIsStrict := by
  refine ⟨fun r s hr hr' hs hs' => ⟨?_, sigToDer_length hr hr' hs hs'⟩, fun d r s hder => ?_⟩
  · rw [sigToDer_eq, derToSig_derSequence (derContent_derInteger hr hr')
      (derContent_derInteger hs hs'), beNat_derContent hr', beNat_derContent hs']
  · obtain ⟨a, b, ha, hb, rfl, rfl, rfl⟩ := derToSig_eq_some hder
    refine ⟨ha.beNat_lt, hb.beNat_lt, fun hr hs => ?_⟩
    rw [sigToDer_eq, ha.derContent_beNat hr, hb.derContent_beNat hs]

end Sys2Proof.Machine
end

section
/-!
Settles O42 and O44. What a compressed key that parses was checked for (R313): its root is a square
root of `x^3 + 7`, which is never 0, and the other root is its negative. Multiples of the base point
are evaluated.
-/
namespace Sys2Proof.Machine

/-! ### Square roots in the field (R310, R313) -/

theorem fieldPrime_odd : fieldPrime % 2 = 1 := by decide

theorem fieldSqrt_lt (c : Nat) : fieldSqrt c < fieldPrime := by
  have hpos : 0 < fieldPrime := by decide
  rw [fieldSqrt, powersAreModular _ _ _ hpos]
  exact Nat.mod_lt _ hpos

/-- A number and its negative modulo `m` have one square. -/
theorem sub_mul_sub_mod {m y : Nat} (h : y ≤ m) : (m - y) * (m - y) % m = y * y % m := by
  obtain ⟨z, rfl⟩ := Nat.exists_eq_add_of_le h
  have hsum : z * z + y * (y + z) = y * y + z * (y + z) := by ring
  rw [Nat.add_sub_cancel_left, ← Nat.add_mul_mod_self_right (z * z) y, hsum,
    Nat.add_mul_mod_self_right]

/-- A root of `x^3 + 7` is not 0, as that has no root modulo `p` (R313). -/
theorem root_pos {x y : Nat} (h : y * y % fieldPrime = (x * x * x + 7) % fieldPrime) : 0 < y := by
  rcases Nat.eq_zero_or_pos y with rfl | hy
  · exact absurd h.symm (cubic_ne_zero x)
  · exact hy

/-! ### Compressed keys (R312, R313) -/

/-- A key that parses has one of two tags and an `x` in the field; its `y` is a root of `x^3 + 7`
below `p`, or the negative of one where the parity is not the tag's. -/
theorem parseCompressed_eq_some {b : Bytes} {x y : Nat} (h : parseCompressed b = some (x, y)) :
    ((b.getD 0 0).toNat = 0x02 ∨ (b.getD 0 0).toNat = 0x03) ∧ x = beNat (slice b 1 33) ∧
      x < fieldPrime ∧ ∃ root < fieldPrime,
        root * root % fieldPrime = (x * x * x + 7) % fieldPrime ∧
        y = if root % 2 = (b.getD 0 0).toNat % 2 then root else fieldPrime - root := by
  simp only [parseCompressed, Option.ite_none_left_eq_some, not_le, not_not] at h
  obtain ⟨htag, hx, hroot, h⟩ := h
  split at h
  next hparity =>
    cases h
    exact ⟨or_iff_not_and_not.2 htag, rfl, hx, _, fieldSqrt_lt _, hroot, (if_neg hparity).symm⟩
  next hparity =>
    cases h
    exact ⟨or_iff_not_and_not.2 htag, rfl, hx, _, fieldSqrt_lt _, hroot,
      (if_pos (not_not.1 hparity)).symm⟩

/-- The `y` that a key names is a root of `x^3 + 7` in the field, of the tag's parity. -/
theorem root_of_parity {x root tag : Nat} (hlt : root < fieldPrime)
    (hroot : root * root % fieldPrime = (x * x * x + 7) % fieldPrime) :
    let y := if root % 2 = tag % 2 then root else fieldPrime - root
    0 < y ∧ y < fieldPrime ∧ y * y % fieldPrime = (x * x * x + 7) % fieldPrime ∧
      y % 2 = tag % 2 := by
  have hpos := root_pos hroot
  have hodd := fieldPrime_odd
  dsimp only
  split
  next hparity => exact ⟨hpos, hlt, hroot, hparity⟩
  next hparity => exact ⟨by omega, by omega, (sub_mul_sub_mod hlt.le).trans hroot, by omega⟩

/-- Which of the coordinates 0 to 7 are on the curve, by the candidate root of each (R313). -/
theorem small_coordinates_parse :
    ∀ x < 8, (parseCompressed (0x02 :: beBytes 32 x)).isSome = true ↔ x ∈ [1, 2, 3, 4, 6] := by
  decide +kernel

/-- Settles O42, from what a key that parses was checked for. -/
theorem parsedKeysArePoints : Obligations.ParsedKeysArePoints := by
  refine ⟨fun b x y hlength hparse => ?_, small_coordinates_parse⟩
  obtain ⟨htag, hx, hlt, root, hroot, hsquare, rfl⟩ := parseCompressed_eq_some hparse
  rw [slice_eq_drop hlength.le] at hx
  exact ⟨htag, hx, hlt, root_of_parity hroot hsquare⟩

/-! ### Multiples of the base point (R311) -/

/-- The first multiples are repeated sums, each on the curve. -/
theorem mulPoint_basePoint_succ :
    ∀ k < 8, mulPoint (k + 1) basePoint = addPoints (mulPoint k basePoint) basePoint ∧
      onCurve (mulPoint (k + 1) basePoint).xCoord (mulPoint (k + 1) basePoint).yCoord = true := by
  decide +kernel

/-- R310: the base point's order divides `n`. -/
theorem mulPoint_curveOrder_basePoint : mulPoint curveOrder basePoint = .infinity := by
  decide +kernel

/-- Settles O44, by evaluating the multiples. -/
theorem multiplesOfTheBasePoint : Obligations.MultiplesOfTheBasePoint :=
  ⟨rfl, mulPoint_basePoint_succ, mulPoint_curveOrder_basePoint⟩

end Sys2Proof.Machine
end

section
/-!
Settles O39, O40 and O41. Compact signatures and their two scalars (R315), the low representative of
`s` (R316), and that every signature the engine makes is a low one (R331); the Schnorr parameter's
properties (R360).
-/
namespace Sys2Proof.Machine

/-! ### Compact signatures (R315) -/

theorem curveOrder_lt : curveOrder < 2 ^ 256 := by decide

/-- `n` is odd, and `HALF_N` is half of it, rounded down (R316). -/
theorem curveOrder_eq : curveOrder = 2 * halfOrder + 1 := by decide

theorem halfOrder_lt : halfOrder < 2 ^ 256 := by decide

theorem sigR_compactSig {r s : Nat} (hr : r < 2 ^ 256) : sigR (compactSig r s) = r := by
  have hslice : slice (compactSig r s) 0 32 = beBytes 32 r := by simp [slice, compactSig]
  rw [sigR, hslice, beNat_beBytes]
  exact Nat.mod_eq_of_lt hr

theorem sigS_compactSig {r s : Nat} (hs : s < 2 ^ 256) : sigS (compactSig r s) = s := by
  have hslice : slice (compactSig r s) 32 64 = beBytes 32 s := by simp [slice, compactSig]
  rw [sigS, hslice, beNat_beBytes]
  exact Nat.mod_eq_of_lt hs

/-- A string of 64 bytes is the compact form of its two scalars. -/
theorem compactSig_sigR_sigS {sig : Bytes} (h : sig.length = 64) :
    compactSig (sigR sig) (sigS sig) = sig := by
  have hr := beBytes_beNat (sig.take 32)
  have hs := beBytes_beNat (sig.drop 32)
  rw [List.length_take, h] at hr
  rw [List.length_drop, h] at hs
  calc compactSig (sigR sig) (sigS sig)
      = beBytes 32 (beNat (sig.take 32)) ++ beBytes 32 (beNat (sig.drop 32)) := by
        rw [compactSig, sigR, sigS, slice_eq_drop h.le]
        rfl
    _ = sig.take 32 ++ sig.drop 32 := congrArg₂ (· ++ ·) hr hs
    _ = sig := List.take_append_drop 32 sig

theorem scalarsOk_iff {sig : Bytes} : scalarsOk sig = true ↔
    (1 ≤ sigR sig ∧ sigR sig < curveOrder) ∧ 1 ≤ sigS sig ∧ sigS sig < curveOrder := by
  rw [scalarsOk, Bool.and_eq_true, scalarInRange_iff, scalarInRange_iff]

/-! ### The low representative (R316) -/

theorem lowS_of_le {s : Nat} (h : s ≤ halfOrder) : lowS s = s := if_neg h.not_gt

/-- The low representative of a scalar in range is in range, and at most `HALF_N`. -/
theorem lowS_bounds {s : Nat} (hpos : 1 ≤ s) (hlt : s < curveOrder) :
    1 ≤ lowS s ∧ lowS s ≤ halfOrder := by
  have hodd := curveOrder_eq
  rw [lowS]
  split <;> omega

/-- A compact signature in range whose `s` is low. -/
def LowSig (sig : Bytes) : Prop :=
  ∃ r s, sig = compactSig r s ∧ (1 ≤ r ∧ r < curveOrder) ∧ 1 ≤ s ∧ s ≤ halfOrder

/-- A low signature is in range and its own normal form (R355). -/
theorem LowSig.isNormal {sig : Bytes} (h : LowSig sig) :
    sig.length = 64 ∧ scalarsOk sig = true ∧ sigS sig ≤ halfOrder ∧
      compactSig (sigR sig) (lowS (sigS sig)) = sig := by
  obtain ⟨r, s, rfl, hr, hpos, hlow⟩ := h
  have hhalf := curveOrder_eq
  have hR : sigR (compactSig r s) = r := sigR_compactSig (hr.2.trans curveOrder_lt)
  have hS : sigS (compactSig r s) = s := sigS_compactSig (hlow.trans_lt halfOrder_lt)
  rw [scalarsOk_iff, hR, hS, lowS_of_le hlow]
  exact ⟨compactSig_length r s, ⟨hr, hpos, by omega⟩, hlow, rfl⟩

/-- Settles O39: normalisation gives a low signature. -/
theorem normalizationIsIdempotent : Obligations.NormalizationIsIdempotent := by
  refine ⟨by decide, fun sig hlength hscalars => ?_⟩
  obtain ⟨hr, hpos, hlt⟩ := scalarsOk_iff.1 hscalars
  obtain ⟨hlowpos, hlow⟩ := lowS_bounds hpos hlt
  obtain ⟨-, hok, hS, hnormal⟩ := LowSig.isNormal ⟨_, _, rfl, hr, hlowpos, hlow⟩
  exact ⟨hok, sigR_compactSig (hr.2.trans curveOrder_lt), hS, hnormal,
    fun h => by rw [lowS_of_le h, compactSig_sigR_sigS hlength]⟩

/-! ### ECDSA signatures (R331, R333) -/

/-- A candidate that is not passed over gives a low signature. -/
theorem ecdsaWithNonce_lowSig {d k : Nat} {hash sig : Bytes}
    (h : ecdsaWithNonce d hash k = some sig) : LowSig sig := by
  have hn : 0 < curveOrder := by decide
  simp only [ecdsaWithNonce, Option.ite_none_left_eq_some, Option.some.injEq] at h
  obtain ⟨-, hr, hs, rfl⟩ := h
  exact ⟨_, _, rfl, ⟨Nat.pos_of_ne_zero hr, Nat.mod_lt _ hn⟩,
    lowS_bounds (Nat.pos_of_ne_zero hs) (Nat.mod_lt _ hn)⟩

theorem ecdsaSearch_lowSig {d tries : Nat} {hash sig : Bytes} {g : NonceGen}
    (h : ecdsaSearch d hash tries g = some sig) : LowSig sig := by
  induction tries generalizing g with
  | zero => cases h
  | succ tries ih =>
    rw [ecdsaSearch] at h
    split at h
    next found =>
      cases h
      exact ecdsaWithNonce_lowSig found
    next => exact ih h

/-- So is the free signature of a search that never ends (log 9). -/
theorem endlessSignature_lowSig (d : Nat) (hash : Bytes) : LowSig (endlessSignature d hash) := by
  have hn : 0 < curveOrder - 1 := by decide
  have hhalf : 0 < halfOrder := by decide
  have hr := Nat.mod_lt (Config.endlessScalar d hash false) hn
  have hs := Nat.mod_lt (Config.endlessScalar d hash true) hhalf
  exact ⟨_, _, rfl, ⟨by omega, by omega⟩, by omega, by omega⟩

/-- Every ECDSA signature is low (R331). -/
theorem ecdsaSign_lowSig {triesMax : Option Nat} {d : Nat} {hash sig : Bytes}
    (h : ecdsaSign triesMax d hash = some sig) : LowSig sig := by
  cases triesMax with
  | some bound => exact ecdsaSearch_lowSig h
  | none =>
    simp only [ecdsaSign, Option.some.injEq] at h
    subst h
    cases hsearch : ecdsaSearch d hash nonceSpace (nonceInit d hash) with
    | some sig => exact ecdsaSearch_lowSig hsearch
    | none => exact endlessSignature_lowSig d hash

/-- Settles O40: every signature that `ECDSA_Sign` gives is low. -/
theorem ecdsaSignaturesAreLow : Obligations.EcdsaSignaturesAreLow :=
  fun _ _ _ _ h => (ecdsaSign_lowSig h).isNormal

/-! ### The Schnorr parameter (R360) -/

/-- A key that does not parse verifies nothing. -/
theorem schnorrVerify_of_parse_none {pub hash sig : Bytes} (h : parseCompressed pub = none) :
    schnorrVerify pub hash sig = false := by
  rw [schnorrVerify, h]
  rfl

/-- The scheme's own signature verifies under the signer's key, where that parses. -/
theorem schnorrVerify_schnorrSign {key hash : Bytes}
    (h : parseCompressed (compressPoint (mulPoint (beNat key) basePoint)) ≠ none) :
    schnorrVerify (compressPoint (mulPoint (beNat key) basePoint)) hash (schnorrSign key hash) =
      true := by
  rw [schnorrVerify, schnorrSign, Option.isSome_iff_ne_none.2 h, beq_self_eq_true]
  rfl

/-- Settles O41, by the shape of the model's parameter (log 5). -/
theorem schnorrParameterProperties : Obligations.SchnorrParameterProperties :=
  ⟨schnorrSign_length, fun _ _ _ => schnorrVerify_of_parse_none,
    fun _ _ => schnorrVerify_schnorrSign⟩

end Sys2Proof.Machine
end

section
/-!
Settles O13, O14, O15, O16, O18, O19, O20 and O28. A ready key or signature command of legal lengths
ends with its content: the output its rule gives (R320 to R322, R331 to R334, R350 to R354), or the
cause of a key that is not valid (R313, R314).
-/
namespace Sys2Proof.Machine

/-! ### Commands whose checks are length checks alone (R420, R421) -/

section LengthChecked
variable {s : State} {i : Instr} {content : Unit → Verdict} (h : Ready s i)
  (hlen : s.lengthRefusal i = none)
include h hlen

/-- A ready command of legal lengths whose content is an output of `n` bytes ends `OK` with it. -/
theorem Ready.output {out : Bytes} {n : Nat} (hm : s.mem.wf = true) (hi : usesDest i = true)
    (hc : content () = .finish out) (ho : out.length = n) (hd : n ≤ s.dstLen)
    (hw : CanWrite s n) :
    ∃ t, s.run i (s.lengthChecks i) [] content = .next t ∧ EndsOk s t out ∧
      t.written = BitVec.ofNat 32 n := by
  subst ho
  obtain ⟨t, hrun, hends⟩ := State.run_endsOk (memory := []) hm h (State.lengthChecks_pass hlen)
    nofun hc hw (h.output_fits hi hd) (hd.trans_lt s.dstLen_lt)
  exact ⟨t, hrun, hends, hends.written_eq⟩

/-- A ready command of legal lengths that has nothing to write ends `OK` and leaves the memory. -/
theorem Ready.noOutput (hc : content () = .finish []) :
    ∃ t, s.run i (s.lengthChecks i) [] content = .next t ∧ EndsOk s t [] ∧ t.mem = s.mem := by
  refine ⟨_, State.run_calm h.calm, ?_⟩
  rw [State.verdict_of_ready (memory := []) h (State.lengthChecks_pass hlen) nofun, hc,
    State.deliver_finish (canWrite_zero s)]
  exact ⟨{ completed := State.conclude_completed ..
           result := rfl
           cause := rfl
           written := rfl
           bytes := nofun
           elsewhere := fun _ _ => rfl
           undisturbed := State.conclude_undisturbed .. }, rfl⟩

/-- A ready command of legal lengths whose content raises a cause ends with it. -/
theorem Ready.refusal {c : Cause} (hc : content () = .raise c) :
    ∃ t, s.run i (s.lengthChecks i) [] content = .next t ∧ EndsWith s t c :=
  State.run_endsWith h (State.lengthChecks_pass hlen) nofun hc

end LengthChecked

/-! ### Legal lengths (R117, R332) -/

section Lengths
variable {s : State}

theorem lengthRefusal_ecPrivVerify (h0 : s.srcLen .src0 = 32) :
    s.lengthRefusal .ecPrivVerify = none := by
  simp [State.lengthRefusal, refuseIf_eq_none, h0]

theorem lengthRefusal_ecPubFromPriv (h0 : s.srcLen .src0 = 32) (hd : s.dstLen = 33) :
    s.lengthRefusal .ecPubFromPriv = none := by
  simp [State.lengthRefusal, refuseIf_eq_none, h0, hd]

theorem lengthRefusal_ecPubDecompress (h0 : s.srcLen .src0 = 33) (hd : s.dstLen = 65) :
    s.lengthRefusal .ecPubDecompress = none := by
  simp [State.lengthRefusal, refuseIf_eq_none, h0, hd]

/-- Both forms of `EC_SIGN` take a 32-byte key and hash and give 64 bytes. -/
theorem lengthRefusal_ecSign (h0 : s.srcLen .src0 = 32) (h1 : s.srcLen .src1 = 32)
    (hd : s.dstLen = 64) :
    s.lengthRefusal .ecSignEcdsa = none ∧ s.lengthRefusal .ecSignSchnorr = none := by
  simp [State.lengthRefusal, refuseIf_eq_none, h0, h1, hd]

theorem lengthRefusal_ecSigNormalize (h0 : s.srcLen .src0 = 64) (hd : s.dstLen = 64) :
    s.lengthRefusal .ecSigNormalize = none := by
  simp [State.lengthRefusal, refuseIf_eq_none, h0, hd]

theorem lengthRefusal_ecSigToDer (h0 : s.srcLen .src0 = 64) (hd : 72 ≤ s.dstLen) :
    s.lengthRefusal .ecSigToDer = none := by
  simp [State.lengthRefusal, refuseIf_eq_none, h0, hd]

theorem lengthRefusal_ecSigFromDer (hmin : 8 ≤ s.srcLen .src0) (hmax : s.srcLen .src0 ≤ 72)
    (hd : s.dstLen = 64) : s.lengthRefusal .ecSigFromDer = none := by
  simp [State.lengthRefusal, refuseIf_eq_none, hmin, hmax, hd]

end Lengths

/-! ### Keys (R313, R314, R320 to R322) -/

theorem privOk_iff {b : Bytes} : privOk b = true ↔ 1 ≤ beNat b ∧ beNat b < curveOrder :=
  scalarInRange_iff

/-- Settles O13: a key in range is valid. -/
theorem privateKeyResults : Obligations.PrivateKeyResults := by
  intro s hm h0 hlow hhigh
  have hkey : privOk (s.input .src0) = true := privOk_iff.2 ⟨hlow, hhigh⟩
  refine ⟨fun h => ?_, fun h hd hw => ?_⟩
  · obtain ⟨t, hrun, hends, -⟩ : ∃ t, exec .ecPrivVerify s = .next t ∧ EndsOk s t [] ∧ _ :=
      h.noOutput (lengthRefusal_ecPrivVerify h0) (if_pos hkey)
    exact ⟨t, hrun, hends, hends.written_eq⟩
  · exact h.output (lengthRefusal_ecPubFromPriv h0 hd) hm rfl (if_pos hkey)
      (compressPoint_length _) hd.ge hw

/-- Settles O14: the output of a key that parses is its uncompressed form. -/
theorem pubDecompressResult : Obligations.PubDecompressResult := by
  intro s x y hm h h0 hd hw hparse
  exact h.output (lengthRefusal_ecPubDecompress h0 hd) hm rfl (by rw [hparse]; rfl)
    (uncompressed_length x y) hd.ge hw

/-- Settles O28: the content of a key command refuses a signing key out of range and a public key
that does not parse. -/
theorem badKeysAreRefused : Obligations.BadKeysAreRefused := by
  intro s
  refine ⟨fun h0 hbad => ?_, fun h0 h hd hparse => ?_⟩
  · have hkey : ¬privOk (s.input .src0) = true := by rw [privOk_iff]; omega
    refine ⟨fun h => ?_, fun h hd => ?_, fun h h1 hd => ?_, fun h h1 hd => ?_⟩
    · exact h.refusal (lengthRefusal_ecPrivVerify h0) (if_neg hkey)
    · exact h.refusal (lengthRefusal_ecPubFromPriv h0 hd) (if_neg hkey)
    · exact h.refusal (lengthRefusal_ecSign h0 h1 hd).1 (if_neg hkey)
    · exact h.refusal (lengthRefusal_ecSign h0 h1 hd).2 (if_neg hkey)
  · exact h.refusal (lengthRefusal_ecPubDecompress h0 hd) (by rw [hparse])

/-! ### Signing (R331 to R334) -/

/-- Settles O15: the signature that the nonce search gives is the output; an unbounded search always
gives one. -/
theorem ecdsaSignResult : Obligations.EcdsaSignResult := by
  intro s hm h h0 h1 hd hw hlow hhigh
  have hkey : privOk (s.input .src0) = true := privOk_iff.2 ⟨hlow, hhigh⟩
  have signs : ∀ sig, ecdsaSign s.platform.nonceTriesMax (beNat (s.input .src0))
      (s.input .src1) = some sig →
      ∃ t, exec .ecSignEcdsa s = .next t ∧ EndsOk s t sig ∧ t.written = 64 := fun sig hsig =>
    h.output (lengthRefusal_ecSign h0 h1 hd).1 hm rfl (by rw [if_pos hkey, hsig])
      (ecdsaSign_length hsig) hd.ge hw
  refine ⟨signs, fun hunbounded => ?_⟩
  obtain ⟨t, hrun⟩ := signs _ (by rw [hunbounded]; rfl)
  exact ⟨t, _, hrun⟩

/-- Settles O16: the output is the scheme's signature, whatever the scheme (log 5). -/
theorem schnorrSignResult : Obligations.SchnorrSignResult := by
  intro s hm h h0 h1 hd hw hlow hhigh
  have hkey : privOk (s.input .src0) = true := privOk_iff.2 ⟨hlow, hhigh⟩
  exact h.output (lengthRefusal_ecSign h0 h1 hd).2 hm rfl (if_pos hkey)
    (schnorrSign_length _ _) hd.ge hw

/-! ### The forms of a signature (R350, R352, R354) -/

/-- Settles O18: scalars in range are normalised. -/
theorem normalizeResult : Obligations.NormalizeResult := by
  rintro s hm h h0 hd hw r v rfl rfl hr hr' hv hv'
  have hok : scalarsOk (s.input .src0) = true := scalarsOk_iff.2 ⟨⟨hr, hr'⟩, hv, hv'⟩
  exact h.output (lengthRefusal_ecSigNormalize h0 hd) hm rfl (if_pos hok)
    (compactSig_length _ _) hd.ge hw

/-- Settles O19: the DER form of scalars in range is at most 72 bytes, so it fits. -/
theorem toDerResult : Obligations.ToDerResult := by
  rintro s hm h h0 hd r v rfl rfl hr hr' hv hv' hw
  have hok : scalarsOk (s.input .src0) = true := scalarsOk_iff.2 ⟨⟨hr, hr'⟩, hv, hv'⟩
  obtain ⟨hmin, hmax⟩ := sigToDer_length hr (hr'.trans curveOrder_lt) hv (hv'.trans curveOrder_lt)
  obtain ⟨t, hrun, hends, -⟩ : ∃ t, exec .ecSigToDer s = .next t ∧ EndsOk s t _ ∧ _ :=
    h.output (lengthRefusal_ecSigToDer h0 hd) hm rfl (if_pos hok) rfl (hmax.trans hd) hw
  exact ⟨t, hrun, hends, hends.written ▸ hmin, hends.written ▸ hmax⟩

/-- Settles O20: scalars in range that strict DER gives are put in compact form. -/
theorem fromDerResult : Obligations.FromDerResult := by
  intro s r v hm h hmin hmax hd hw hder hr hr' hv hv'
  have hok : (scalarInRange r && scalarInRange v) = true := by
    rw [Bool.and_eq_true, scalarInRange_iff, scalarInRange_iff]
    exact ⟨⟨hr, hr'⟩, hv, hv'⟩
  exact h.output (lengthRefusal_ecSigFromDer hmin hmax hd) hm rfl (by rw [hder]; exact if_pos hok)
    (compactSig_length r v) hd.ge hw

end Sys2Proof.Machine
end

section
/-!
Settles O17 and O30. When a signature is accepted (R340 to R343), that a ready verification ends by
that alone, and the outcome registers every failed one leaves (R388).
-/
namespace Sys2Proof.Machine

/-! ### When ECDSA accepts (R340) -/

/-- The point whose `x` R340 compares with `r`. -/
def verificationPoint (q : Point) (hash sig : Bytes) : Point :=
  addPoints (mulPoint (hashScalar hash * invMod curveOrder (sigS sig) % curveOrder) basePoint)
    (mulPoint (sigR sig * invMod curveOrder (sigS sig) % curveOrder) q)

/-- R340: both scalars in range, `s` low, and the equation. -/
theorem ecdsaVerify_iff {q : Point} {hash sig : Bytes} : ecdsaVerify q hash sig = true ↔
    scalarsOk sig = true ∧ sigS sig ≤ halfOrder ∧ verificationPoint q hash sig ≠ .infinity ∧
      (verificationPoint q hash sig).xCoord % curveOrder = sigR sig := by
  simp only [ecdsaVerify, scalarsOk, verificationPoint, Bool.if_false_left, Bool.and_eq_true,
    Bool.not_eq_true', Bool.not_eq_false, decide_eq_false_iff_not, not_lt]
  refine and_congr_right' (and_congr_right' ?_)
  cases addPoints _ _ with
  | infinity => simp
  | affine x y => simp [Point.xCoord]

/-- `ECDSA` accepts a key that parses where R340 does. -/
theorem ecdsaAccepts_of_parse {pub hash sig : Bytes} {x y : Nat}
    (h : parseCompressed pub = some (x, y)) :
    ecdsaAccepts pub hash sig = ecdsaVerify (.affine x y) hash sig := by
  rw [ecdsaAccepts, h]

theorem ecdsaAccepts_of_parse_none {pub hash sig : Bytes} (h : parseCompressed pub = none) :
    ecdsaAccepts pub hash sig = false := by
  rw [ecdsaAccepts, h]

/-- `ECDSA` accepts only scalars in range with a low `s`, whatever the key. -/
theorem scalars_of_ecdsaAccepts {pub hash sig : Bytes} (h : ecdsaAccepts pub hash sig = true) :
    scalarsOk sig = true ∧ sigS sig ≤ halfOrder := by
  cases hparse : parseCompressed pub with
  | none => rw [ecdsaAccepts_of_parse_none hparse] at h; cases h
  | some point =>
    rw [ecdsaAccepts_of_parse hparse] at h
    obtain ⟨hok, hlow, -⟩ := ecdsaVerify_iff.1 h
    exact ⟨hok, hlow⟩

/-! ### A verification's outcome (R341 to R343) -/

/-- Whether a verification command accepts its three inputs. -/
def State.accepts (s : State) : Instr → Bool
  | .ecSigVerifySchnorr => schnorrVerify (s.input .src0) (s.input .src1) (s.input .src2)
  | _ => ecdsaAccepts (s.input .src0) (s.input .src1) (s.input .src2)

/-- A key that does not parse is accepted by neither algorithm. -/
theorem State.accepts_of_parse_none {s : State} (h : parseCompressed (s.input .src0) = none)
    (i : Instr) : s.accepts i = false := by
  unfold State.accepts
  split
  · exact schnorrVerify_of_parse_none h
  · exact ecdsaAccepts_of_parse_none h

theorem lengthRefusal_ecSigVerify {s : State} (h0 : s.srcLen .src0 = 33)
    (h1 : s.srcLen .src1 = 32) (h2 : s.srcLen .src2 = 64) {i : Instr}
    (hi : i ∈ [Instr.ecSigVerifyEcdsa, Instr.ecSigVerifySchnorr]) :
    s.lengthRefusal i = none := by
  simp only [List.mem_cons, List.not_mem_nil, or_false] at hi
  rcases hi with rfl | rfl <;> simp [State.lengthRefusal, refuseIf_eq_none, h0, h1, h2]

/-- Both verifications make the same checks and have nothing to write. -/
theorem exec_ecSigVerify (s : State) {i : Instr}
    (hi : i ∈ [Instr.ecSigVerifyEcdsa, Instr.ecSigVerifySchnorr]) :
    exec i s = s.run i (s.lengthChecks i) [] fun _ =>
      if s.accepts i then .finish [] else .raise .verify := by
  simp only [List.mem_cons, List.not_mem_nil, or_false] at hi
  rcases hi with rfl | rfl <;> rfl

/-- A ready verification of legal lengths ends `OK` where the signature is accepted, and with
`VERIFY` where it is not; it writes nothing. -/
theorem Ready.verification {s : State} {i : Instr} (h : Ready s i)
    (hi : i ∈ [Instr.ecSigVerifyEcdsa, Instr.ecSigVerifySchnorr]) (h0 : s.srcLen .src0 = 33)
    (h1 : s.srcLen .src1 = 32) (h2 : s.srcLen .src2 = 64) :
    ∃ t, exec i s = .next t ∧ (s.accepts i = true → EndsOk s t [] ∧ t.mem = s.mem) ∧
      (s.accepts i = false → EndsWith s t .verify) := by
  have hlen := lengthRefusal_ecSigVerify h0 h1 h2 hi
  rw [exec_ecSigVerify s hi]
  cases haccepts : s.accepts i with
  | true =>
    obtain ⟨t, hrun, hends⟩ := h.noOutput hlen (content := fun _ =>
      if true then .finish [] else .raise .verify) rfl
    exact ⟨t, hrun, fun _ => hends, nofun⟩
  | false =>
    obtain ⟨t, hrun, hends⟩ := h.refusal hlen (content := fun _ =>
      if false then .finish [] else .raise .verify) rfl
    exact ⟨t, hrun, nofun, fun _ => hends⟩

/-- Settles O17: an accepted signature ends `OK`. -/
theorem verifyResults : Obligations.VerifyResults := by
  intro s _ h0 h1 h2
  refine ⟨fun x y h hparse hverify => ?_, fun h hverify => ?_⟩
  · obtain ⟨t, hexec, hok, -⟩ := h.verification (by decide) h0 h1 h2
    exact ⟨t, hexec, hok ((ecdsaAccepts_of_parse hparse).trans hverify)⟩
  · obtain ⟨t, hexec, hok, -⟩ := h.verification (by decide) h0 h1 h2
    exact ⟨t, hexec, hok hverify⟩

/-! ### Failed verifications (R388) -/

/-- A command that ended with `VERIFY_FAIL`, raced or not, is the completion with that cause. -/
theorem Ended.eq_of_verifyFail {s t : State} {i : Instr} (h : Ended s i t)
    (hfail : t.result = .verifyFail) : t = s.complete (.raise .verify) := by
  cases h with
  | ok n m _ => cases hfail
  | raised c _ => rw [Cause.resultClass_verifyFail.1 hfail]
  | writeFailed n m _ => cases hfail

/-- `STATUS` after a failed verification, but for `WERR`: `DONE`, the class and the cause. -/
theorem State.statusWord_verifyFail (s : State) :
    (s.complete (.raise .verify)).statusWord &&& 0xFFF3 = 0x4022 := by
  have hstatus : (s.complete (.raise .verify)).statusWord =
      BitVec.ofNat 32 (2 + 4 * s.werr.toNat + 0x4020) := by
    simp [State.statusWord, State.complete, State.busy, Engine.isBusy, ResultClass.code,
      Cause.code, Cause.resultClass, Nat.add_assoc]
  rw [hstatus]
  cases s.werr <;> decide

/-- A signature with a scalar out of range, or with a high `s`, is not accepted. -/
theorem State.accepts_ecdsa_eq_false {s : State}
    (h : sigR (s.input .src2) = 0 ∨ curveOrder ≤ sigR (s.input .src2) ∨
      sigS (s.input .src2) = 0 ∨ curveOrder ≤ sigS (s.input .src2) ∨
      halfOrder < sigS (s.input .src2)) : s.accepts .ecSigVerifyEcdsa = false := by
  rw [← Bool.not_eq_true]
  intro haccepts
  obtain ⟨hok, hlow⟩ := scalars_of_ecdsaAccepts haccepts
  obtain ⟨⟨hr, hr'⟩, hv, hv'⟩ := scalarsOk_iff.1 hok
  omega

/-- Settles O30: each condition for failure refutes acceptance, and the outcome of a failed
verification is one completion. -/
theorem failedVerificationsAreAlike : Obligations.FailedVerificationsAreAlike := by
  refine ⟨fun s h0 h1 h2 => ⟨fun i hi h => ?either, fun h => ?schnorr, ?ecdsa⟩, ?alike⟩
  case either =>
    obtain ⟨t, hexec, hok, hfail⟩ := h.verification hi h0 h1 h2
    refine ⟨t, hexec, ?_, fun hparse => hfail (State.accepts_of_parse_none hparse i)⟩
    cases haccepts : s.accepts i with
    | true => exact .inl (hok haccepts).1
    | false => exact .inr (hfail haccepts)
  case schnorr =>
    obtain ⟨t, hexec, hok, hfail⟩ := h.verification (by decide) h0 h1 h2
    refine ⟨t, hexec, fun hends => ?_, hfail⟩
    rw [← Bool.not_eq_true]
    intro haccepts
    cases hends.cause.symm.trans (hok haccepts).1.cause
  case ecdsa =>
    rintro r v rfl rfl h
    obtain ⟨t, hexec, -, hfail⟩ := h.verification (by decide) h0 h1 h2
    refine ⟨t, hexec, fun hbad => hfail (State.accepts_ecdsa_eq_false hbad), fun x y hparse => ?_⟩
    have hverify : s.accepts .ecSigVerifyEcdsa = _ := ecdsaAccepts_of_parse hparse
    refine ⟨fun hrefused => hfail (hverify.trans hrefused), fun hequation => hfail ?_⟩
    rw [hverify, ← Bool.not_eq_true, ecdsaVerify_iff]
    rintro ⟨-, -, hfinite, hx⟩
    exact hequation.elim hfinite fun hne => hne hx
  case alike =>
    intro s s' i _ t t' hexec hexec' hfail hfail'
    rw [(exec_ended hexec).eq_of_verifyFail hfail, (exec_ended hexec').eq_of_verifyFail hfail',
      s.statusWord_verifyFail, s'.statusWord_verifyFail]
    exact ⟨rfl, rfl, rfl, rfl⟩

end Sys2Proof.Machine
end

section
/-!
Settles O24, O25 and O31. The content of each command (V10, V11) is a function of the operands that
R117 gives it. A command that is not raced is its checks and that content, so two blocks that agree
on those operands reach one verdict (R402, R420, R421, R425).
-/
namespace Sys2Proof.Machine

/-! ### The numbers of an outcome (R400 to R402) -/

/-- The numbers of a cause and of its class pair as R402 says. -/
theorem Cause.code_pairs (c : Cause) :
    (c.code = 0x00 ↔ c.resultClass.code = 0) ∧ (c.code = 0x40 ↔ c.resultClass.code = 2) ∧
      (c.resultClass.code = 1 ↔ c.code ∈ [0x01, 0x02, 0x03, 0x10, 0x11, 0x12, 0x13, 0x14, 0x15,
        0x16, 0x17, 0x18, 0x19, 0x20, 0x21, 0x22, 0x23, 0x24]) ∧
      (c.resultClass.code = 3 ↔ c.code ∈ [0x30, 0x31, 0x32, 0x33]) := by
  cases c <;> decide

/-- Settles O24: the completion step of every word is one `conclude`, which saves a cause with its
class. -/
theorem outcomesPair : Obligations.OutcomesPair := by
  intro s t w hnext hstep
  obtain ⟨c, n, m, hconclude, -⟩ := step_of_completionNext hnext
  obtain rfl := Host.Outcome.next.inj (hconclude.symm.trans hstep)
  obtain ⟨hok, hverify, heinval, hinternal⟩ := c.code_pairs
  exact ⟨hok, hverify, heinval, hinternal, (State.conclude_paired _ c n m).nothingWritten⟩

/-! ### The content of a command (V10, V11) -/

/-- What a command's arm computes from its operands once its checks pass. -/
def State.content (s : State) : Instr → Verdict
  | .sha256 => .finish (sha256 (s.input .src0))
  | .sha256d => .finish (sha256d (s.input .src0))
  | .sha512 => .finish (sha512 (s.input .src0))
  | .hmacSha256 => .finish (hmacSha256 (s.input .src0) (s.input .src1))
  | .hmacSha512 => .finish (hmacSha512 (s.input .src0) (s.input .src1))
  | .pbkdf2Sha256 =>
    .finish (pbkdf2Sha256 (s.input .src0) (s.input .src1) s.operands.param0.toNat s.dstLen)
  | .pbkdf2Sha512 =>
    .finish (pbkdf2Sha512 (s.input .src0) (s.input .src1) s.operands.param0.toNat s.dstLen)
  | .scrypt =>
    .finish (scrypt (s.input .src0) (s.input .src1) s.operands.param0.toNat
      s.operands.param1.toNat s.operands.param2.toNat s.dstLen)
  | .aesEcbEncrypt => .finish (ecbEncrypt (s.input .src0) (s.input .src1))
  | .aesEcbDecrypt => .finish (ecbDecrypt (s.input .src0) (s.input .src1))
  | .aesCbcEncrypt => .finish (cbcEncrypt (s.input .src0) (s.input .src1) (s.input .src2))
  | .aesCbcDecrypt =>
    match cbcDecrypt (s.input .src0) (s.input .src1) (s.input .src2) with
    | some m => .finish m
    | none => .raise .badPadding
  | .ecPrivVerify => if privOk (s.input .src0) then .finish [] else .raise .badPrivkey
  | .ecPubFromPriv =>
    if privOk (s.input .src0) then
      .finish (compressPoint (mulPoint (beNat (s.input .src0)) basePoint))
    else .raise .badPrivkey
  | .ecPubDecompress =>
    match parseCompressed (s.input .src0) with
    | some (x, y) => .finish (uncompressed x y)
    | none => .raise .badPubkey
  | .ecSignEcdsa =>
    if privOk (s.input .src0) then
      match ecdsaSign s.platform.nonceTriesMax (beNat (s.input .src0)) (s.input .src1) with
      | some sig => .finish sig
      | none => .raise .signFailed
    else .raise .badPrivkey
  | .ecSignSchnorr =>
    if privOk (s.input .src0) then .finish (schnorrSign (s.input .src0) (s.input .src1))
    else .raise .badPrivkey
  | .ecSigVerifyEcdsa =>
    if ecdsaAccepts (s.input .src0) (s.input .src1) (s.input .src2) then .finish []
    else .raise .verify
  | .ecSigVerifySchnorr =>
    if schnorrVerify (s.input .src0) (s.input .src1) (s.input .src2) then .finish []
    else .raise .verify
  | .ecSigNormalize =>
    if scalarsOk (s.input .src0) then
      .finish (compactSig (sigR (s.input .src0)) (lowS (sigS (s.input .src0))))
    else .raise .badSigScalar
  | .ecSigToDer =>
    if scalarsOk (s.input .src0) then
      .finish (sigToDer (sigR (s.input .src0)) (sigS (s.input .src0)))
    else .raise .badSigScalar
  | .ecSigFromDer =>
    match derToSig (s.input .src0) with
    | none => .raise .badDer
    | some (r, t) =>
      if scalarInRange r && scalarInRange t then .finish (compactSig r t) else .raise .badSigScalar

/-- Every command is a run of its checks and its content. -/
theorem exec_eq_run (i : Instr) (s : State) :
    exec i s = s.run i (s.lengthChecks i ++ s.paramChecks i) (s.memoryChecks i)
      fun _ => s.content i := by
  cases i <;> rfl

/-- The verdict of a command's checks and content (R420). -/
def State.ending (s : State) (i : Instr) : Verdict :=
  s.verdict i (s.lengthChecks i ++ s.paramChecks i) (s.memoryChecks i) fun _ => s.content i

/-- A command that is not raced completes with that verdict. -/
theorem exec_calm {s : State} {i : Instr} (h : s.engine.isRaced = false) :
    exec i s = .next (s.complete (s.ending i)) :=
  (exec_eq_run i s).trans (State.run_calm h)

/-- What a content can be: an output, which is empty without a destination, or a cause of V10 or
V11. -/
def Verdict.IsContent (i : Instr) : Verdict → Prop
  | .finish out => usesDest i = false → out = []
  | .raise c => c ∈ contentOnlyCauses
  | .writeFailed _ => False

/-- A command with a destination may have any output. -/
theorem Verdict.IsContent.finish {i : Instr} (h : usesDest i = true) (out : Bytes) :
    (Verdict.finish out).IsContent i := by
  intro hnone
  cases h.symm.trans hnone

theorem Verdict.IsContent.raise {i : Instr} {c : Cause} (h : c ∈ contentOnlyCauses) :
    (Verdict.raise c).IsContent i := h

/-- A content under a condition raises its cause where the condition fails. -/
theorem Verdict.IsContent.ite {i : Instr} {v : Verdict} {c : Cause} {p : Prop} [Decidable p]
    (hv : v.IsContent i) (hc : c ∈ contentOnlyCauses) :
    (if p then v else .raise c).IsContent i := by
  split
  · exact hv
  · exact hc

/-- The content of every command is one. -/
theorem State.content_isContent (s : State) (i : Instr) : (s.content i).IsContent i := by
  cases i with
  | sha256 | sha256d | sha512 | hmacSha256 | hmacSha512 | pbkdf2Sha256 | pbkdf2Sha512 | scrypt
  | aesEcbEncrypt | aesEcbDecrypt | aesCbcEncrypt => exact .finish rfl _
  | ecPrivVerify | ecSigVerifyEcdsa | ecSigVerifySchnorr => exact .ite (fun _ => rfl) (by decide)
  | ecPubFromPriv | ecSignSchnorr | ecSigNormalize | ecSigToDer =>
    exact .ite (.finish rfl _) (by decide)
  | aesCbcDecrypt | ecPubDecompress =>
    simp only [State.content]
    split
    · exact .finish rfl _
    · exact .raise (by decide)
  | ecSignEcdsa =>
    refine .ite ?_ (by decide)
    split
    · exact .finish rfl _
    · exact .raise (by decide)
  | ecSigFromDer =>
    simp only [State.content]
    split
    · exact .raise (by decide)
    · exact .ite (.finish rfl _) (by decide)

/-! ### The order of the refusals (R420, R421) -/

/-- A content delivered ends with no cause of V1 to V9. -/
theorem Verdict.IsContent.cause_mem {s : State} {i : Instr} {v : Verdict} (h : v.IsContent i) :
    (s.complete (s.deliver v)).cause ∈ .none :: .busErrorWrite :: contentOnlyCauses := by
  cases v with
  | finish out =>
    by_cases hw : CanWrite s out.length
    · rw [State.deliver_finish hw]
      exact .head _
    · rw [State.deliver_unwritable hw]
      exact .tail _ (.head _)
  | raise c => exact .tail _ (.tail _ h)
  | writeFailed n => exact False.elim h

/-- The causes after V8, in the order that O25's statement lists them. -/
theorem mem_lateCauses {c : Cause}
    (h : c ∈ Cause.busErrorRead :: .none :: .busErrorWrite :: contentOnlyCauses) :
    c ∈ [Cause.none, Cause.busErrorRead, Cause.badPrivkey, Cause.badPubkey, Cause.badSigScalar,
      Cause.badDer, Cause.badPadding, Cause.signFailed, Cause.verify, Cause.busErrorWrite] := by
  revert h
  cases c <;> decide

/-- Settles O25: the checks refuse as R421 tables; after them only the read check, the content and the
write check have a say. -/
theorem refusalsComeInOrder : Obligations.RefusalsComeInOrder := by
  intro s i hcalm
  have hchecks := s.firstFailed_checks i
  cases hearly : s.earlyRefusal i with
  | some c =>
    rw [exec_eq_run]
    exact State.run_refused hcalm (hchecks.trans hearly)
  | none =>
    refine ⟨_, exec_calm hcalm, mem_lateCauses ?_⟩
    rw [hearly] at hchecks
    obtain ⟨c, hf, -⟩ | ⟨-, -, hv⟩ | ⟨-, -, hv⟩ := s.verdict_cases i
      (s.lengthChecks i ++ s.paramChecks i) (s.memoryChecks i) fun _ => s.content i
    · cases hchecks.symm.trans hf
    · rw [State.ending, hv]
      exact .head _
    · rw [State.ending, hv]
      exact .tail _ (s.content_isContent i).cause_mem

/-! ### What the outcome depends on (R58, R117, R425) -/

section SameInputs
variable {s s' : State} {i : Instr} (h : SameInputs s s' i)
include h

theorem SameInputs.srcLen_eq {k : Source} (hk : k ∈ usedSources i) : s.srcLen k = s'.srcLen k :=
  congrArg Region.size (h.sources k hk)

theorem SameInputs.dstLen_eq (hd : usesDest i = true) : s.dstLen = s'.dstLen :=
  congrArg Region.size (h.dest hd)

theorem SameInputs.param0_eq (hr : .param0 ∈ usedParams i) :
    s.operands.param0 = s'.operands.param0 :=
  h.params .param0 hr

theorem SameInputs.param1_eq (hr : .param1 ∈ usedParams i) :
    s.operands.param1 = s'.operands.param1 :=
  h.params .param1 hr

theorem SameInputs.param2_eq (hr : .param2 ∈ usedParams i) :
    s.operands.param2 = s'.operands.param2 :=
  h.params .param2 hr

theorem SameInputs.sources_eq : s.sources i = s'.sources i :=
  List.map_congr_left h.sources

/-- The length rules read the lengths of used regions alone (V4). -/
theorem SameInputs.lengthRefusal_eq : s.lengthRefusal i = s'.lengthRefusal i := by
  cases i with
  | sha256 | sha256d | sha512 | hmacSha256 | hmacSha512 | pbkdf2Sha256 | pbkdf2Sha512 | scrypt =>
    simp only [State.lengthRefusal, h.dstLen_eq rfl]
  | ecPrivVerify => simp only [State.lengthRefusal, h.srcLen_eq (k := .src0) (by decide)]
  | ecPubFromPriv | ecPubDecompress | ecSigNormalize | ecSigToDer | ecSigFromDer =>
    simp only [State.lengthRefusal, h.srcLen_eq (k := .src0) (by decide), h.dstLen_eq rfl]
  | aesEcbEncrypt | aesEcbDecrypt | ecSignEcdsa | ecSignSchnorr =>
    simp only [State.lengthRefusal, h.srcLen_eq (k := .src0) (by decide),
      h.srcLen_eq (k := .src1) (by decide), h.dstLen_eq rfl]
  | aesCbcEncrypt | aesCbcDecrypt =>
    simp only [State.lengthRefusal, h.srcLen_eq (k := .src0) (by decide),
      h.srcLen_eq (k := .src1) (by decide), h.srcLen_eq (k := .src2) (by decide), h.dstLen_eq rfl]
  | ecSigVerifyEcdsa | ecSigVerifySchnorr =>
    simp only [State.lengthRefusal, h.srcLen_eq (k := .src0) (by decide),
      h.srcLen_eq (k := .src1) (by decide), h.srcLen_eq (k := .src2) (by decide)]

/-- The parameter rules read the used parameters alone (V5). -/
theorem SameInputs.paramRefusal_eq : s.paramRefusal i = s'.paramRefusal i := by
  cases i
  case pbkdf2Sha256 | pbkdf2Sha512 =>
    simp only [State.paramRefusal, h.param0_eq (by decide)]
  case scrypt =>
    simp only [State.paramRefusal, h.param0_eq (by decide), h.param1_eq (by decide),
      h.param2_eq (by decide)]
  all_goals rfl

/-- The region rules read the used regions alone (V6, V7). -/
theorem SameInputs.regionRefusal_eq : s.regionRefusal i = s'.regionRefusal i := by
  rw [← s.firstFailed_regionChecks, ← s'.firstFailed_regionChecks, State.regionChecks,
    State.regionChecks, h.sources_eq]
  cases hd : usesDest i with
  | true => rw [h.dest hd]
  | false => rfl

/-- scrypt's memory rule reads its parameters and the platform (V8). -/
theorem SameInputs.memoryRefusal_eq : s.memoryRefusal i = s'.memoryRefusal i := by
  rw [← s.firstFailed_memoryChecks, ← s'.firstFailed_memoryChecks]
  cases i
  case scrypt =>
    simp only [State.memoryChecks, h.param0_eq (by decide), h.param1_eq (by decide),
      h.param2_eq (by decide), h.platform]
  all_goals rfl

theorem SameInputs.earlyRefusal_eq : s.earlyRefusal i = s'.earlyRefusal i := by
  rw [State.earlyRefusal, State.earlyRefusal, h.lengthRefusal_eq, h.paramRefusal_eq,
    h.regionRefusal_eq, h.memoryRefusal_eq]

theorem SameInputs.sourcesReadable_eq : s.sourcesReadable i = s'.sourcesReadable i := by
  rw [State.sourcesReadable, State.sourcesReadable, h.sources_eq, h.platform]

/-- A content reads the bytes of used sources, used parameters, a used destination's length and the
platform (V10, V11). -/
theorem SameInputs.content_eq : s.content i = s'.content i := by
  have h0 := h.bytes .src0
  have h1 := h.bytes .src1
  have h2 := h.bytes .src2
  cases i with
  | sha256 | sha256d | sha512 | ecPrivVerify | ecPubFromPriv | ecPubDecompress | ecSigNormalize
  | ecSigToDer | ecSigFromDer => simp only [State.content, h0 (by decide)]
  | hmacSha256 | hmacSha512 | aesEcbEncrypt | aesEcbDecrypt | ecSignSchnorr =>
    simp only [State.content, h0 (by decide), h1 (by decide)]
  | aesCbcEncrypt | aesCbcDecrypt | ecSigVerifyEcdsa | ecSigVerifySchnorr =>
    simp only [State.content, h0 (by decide), h1 (by decide), h2 (by decide)]
  | pbkdf2Sha256 | pbkdf2Sha512 =>
    simp only [State.content, h0 (by decide), h1 (by decide), h.param0_eq (by decide),
      h.dstLen_eq rfl]
  | scrypt =>
    simp only [State.content, h0 (by decide), h1 (by decide), h.param0_eq (by decide),
      h.param1_eq (by decide), h.param2_eq (by decide), h.dstLen_eq rfl]
  | ecSignEcdsa => simp only [State.content, h0 (by decide), h1 (by decide), h.platform]

/-- Delivery looks at the destination's address only where there is something to write. -/
theorem SameInputs.deliver_eq {v : Verdict} (hv : v.IsContent i) : s.deliver v = s'.deliver v := by
  cases v with
  | finish out =>
    cases hd : usesDest i with
    | true =>
      have haddr : s.operands.dstAddr.toNat = s'.operands.dstAddr.toNat :=
        congrArg Region.base (h.dest hd)
      simp only [State.deliver, haddr, h.platform]
    | false =>
      obtain rfl : out = [] := hv hd
      rw [State.deliver_finish (canWrite_zero s), State.deliver_finish (canWrite_zero s')]
  | raise c => rfl
  | writeFailed n => rfl

theorem SameInputs.ending_eq : s.ending i = s'.ending i := by
  simp only [State.ending, State.verdict, State.firstFailed_checks, h.earlyRefusal_eq,
    h.sourcesReadable_eq, h.content_eq, h.deliver_eq (s'.content_isContent i)]

end SameInputs

/-- The outcome registers of a completion are fixed by its verdict (R51). -/
theorem State.complete_outcome (s s' : State) {v v' : Verdict} (h : v = v') :
    (s.complete v).result = (s'.complete v').result ∧
      (s.complete v).cause = (s'.complete v').cause ∧
      (s.complete v).written = (s'.complete v').written := by
  subst h
  cases v <;> exact ⟨rfl, rfl, rfl⟩

/-- A content that is an output of some bytes is that of a command with a destination. -/
theorem Verdict.IsContent.usesDest_of_lt {i : Instr} {out : Bytes} {k : Nat}
    (h : (Verdict.finish out).IsContent i) (hk : k < out.length) : usesDest i = true := by
  rw [← Bool.not_eq_false]
  intro hnone
  rw [h hnone] at hk
  cases hk

/-- The bytes that `WRITTEN` counts are those of the content's output, at the destination (R91). -/
theorem State.read_of_written {s : State} {i : Instr} {k : Nat} (hm : s.mem.wf = true)
    (hk : k < (s.complete (s.ending i)).written.toNat) :
    ∃ out, s.content i = .finish out ∧ k < out.length ∧
      (s.complete (s.ending i)).mem.read (s.dest.base + k) = out.getD k 0 := by
  have hsome : (s.complete (s.ending i)).written ≠ 0 := by
    intro hnone
    simp [hnone] at hk
  obtain ⟨out, hchecks, hreadable, hcontent, hcan, hwritten⟩ := State.verdict_of_written hsome
  have hending : s.ending i = .finish out := by
    simp only [State.ending, State.verdict, hchecks, hreadable, if_true, hcontent]
    exact State.deliver_finish hcan
  have hlength : (s.complete (s.ending i)).written.toNat = out.length := by
    rw [State.ending, hwritten, hcan.toNat_ofNat (hwritten ▸ hsome)]
  rw [hlength] at hk
  have hfits : s.dest.base + out.length ≤ 2 ^ 32 := by
    have hlast := lt_of_writable (hcan (out.length - 1) (by omega))
    omega
  rw [hending]
  exact ⟨out, hcontent, hk, Memory.read_writeBytes_inside hm hfits hk⟩

/-- Settles O31: blocks that agree on a command's operands reach one verdict, and where it is an
output they write it to one destination. -/
theorem outcomeDependsOnInputsOnly : Obligations.OutcomeDependsOnInputsOnly := by
  intro s s' t t' i hm hm' h hexec hexec'
  obtain ⟨hcalm, hcalm'⟩ := h.calm
  obtain rfl := Host.Outcome.next.inj ((exec_calm hcalm).symm.trans hexec)
  obtain rfl := Host.Outcome.next.inj ((exec_calm hcalm').symm.trans hexec')
  obtain ⟨hresult, hcause, hwritten⟩ := s.complete_outcome s' h.ending_eq
  refine ⟨hresult, hcause, hwritten, fun _ k hk => ?_⟩
  obtain ⟨out, hout, hlt, hread⟩ := State.read_of_written hm hk
  obtain ⟨out', hout', -, hread'⟩ := State.read_of_written hm' (hwritten ▸ hk)
  obtain rfl : out = out' := Verdict.finish.inj (hout.symm.trans (h.content_eq.trans hout'))
  have hcontent : (Verdict.finish out).IsContent i := hout ▸ s.content_isContent i
  have hdest : s.dest = s'.dest := h.dest (hcontent.usesDest_of_lt hlt)
  rw [hread, hdest, hread']

end Sys2Proof.Machine
end

section
/-!
Settles O58. How much of a command's output a reset that abandons it leaves free, and which bytes of
data memory it leaves as they are (R450, R451, U5).
-/
namespace Sys2Proof.Machine

/-! ### What a reset abandons (R451) -/

/-- Reset does not look at the events that wait behind it. -/
theorem State.assertReset_withInbox (s : State) (powerOn : Bool) (rest : List Event) :
    (s.withInbox rest).assertReset powerOn = (s.assertReset powerOn).withInbox rest := rfl

/-- A word that is no command has no output to abandon. -/
theorem State.abandonedBytes_noCommand {s : State} (h : s.running = none) :
    s.abandonedBytes = 0 := by
  simp only [State.abandonedBytes, h]

theorem State.abandonedBytes_running {s : State} {i : Instr} (h : s.running = some i) :
    s.abandonedBytes = min s.dstLen (s.outputRange i).2 := by
  simp only [State.abandonedBytes, h]

/-- A command without a destination has no output to abandon. -/
theorem State.abandonedBytes_noDest {s : State} {i : Instr} (h : s.running = some i)
    (hd : usesDest i = false) : s.abandonedBytes = 0 := by
  rw [State.abandonedBytes_running h, s.outputRange_noDest hd, Nat.min_zero]

/-- Where no output is abandoned, reset leaves the data memory as it is. -/
theorem State.assertReset_mem_of_abandonsNothing {s : State} (h : s.abandonedBytes = 0)
    (powerOn : Bool) : (s.assertReset powerOn).mem = s.mem := by
  rw [State.assertReset, State.enterReset_mem, h, Memory.scramble]

/-- Reset reaches no byte before the destination and none past the bytes it abandons. -/
theorem State.read_assertReset_outside {s : State} {a : Nat}
    (h : a < s.dest.base ∨ s.dest.base + s.abandonedBytes ≤ a) (powerOn : Bool) :
    (s.assertReset powerOn).mem.read a = s.mem.read a :=
  Memory.read_scramble_outside (h.imp_right .inl)

/-- Reset reaches no byte of a used source, even one that the destination covers. -/
theorem State.read_assertReset_source {s : State} {r : Region} {a : Nat} (hr : r ∈ s.ownedSources)
    (hcovers : covers r a = true) (powerOn : Bool) :
    (s.assertReset powerOn).mem.read a = s.mem.read a := by
  have hany : s.ownedSources.any (covers · a) = true := List.any_eq_true.2 ⟨r, hr, hcovers⟩
  exact Memory.read_scramble_outside (.inr (.inr (by rw [hany, Bool.not_true, Bool.and_false])))

/-- Settles O58: a word that is no command, or has no destination, abandons nothing; a command's
abandoned bytes are the first of its destination, its sources excepted. -/
theorem resetAbandonsTheCommand : Obligations.ResetAbandonsTheCommand := by
  intro s powerOn w raced rest hbusy hinbox
  have hstep : step s = .next ((s.assertReset powerOn).withInbox rest) := by
    rw [step_of_inbox_cons hinbox, takeEvent, State.assertReset_withInbox]
  refine ⟨_, hstep, rfl, rfl, rfl, rfl, rfl, rfl, rfl, fun e he => ?_, fun i hi => ?_⟩
  · have hnone : s.running = none := by simp [State.running, hbusy, he, Except.toOption]
    exact State.assertReset_mem_of_abandonsNothing (State.abandonedBytes_noCommand hnone) powerOn
  · have hrun : s.running = some i := State.running_eq_some.2 ⟨w, raced, hbusy, hi⟩
    refine ⟨fun hd => ?_, fun a ha => ?_, fun k hk a hlo hhi => ?_⟩
    · exact State.assertReset_mem_of_abandonsNothing (State.abandonedBytes_noDest hrun hd) powerOn
    · have hout : a < s.dest.base ∨ s.dest.base + s.abandonedBytes ≤ a := by
        have hsize : s.dest.size = s.dstLen := rfl
        have hbytes := State.abandonedBytes_running hrun
        omega
      exact State.read_assertReset_outside hout powerOn
    · have hsource : s.source k ∈ s.ownedSources :=
        State.mem_ownedSources.2 ⟨i, hrun, List.mem_map_of_mem hk⟩
      exact State.read_assertReset_source hsource (covers_iff.2 ⟨hlo, hhi⟩) powerOn

end Sys2Proof.Machine
end
